-- ==== Sys2Proof/Word.lean ====
section
/-! DEFINITION. The machine's word types (00_scope.md R8, R11; 20_memory.md R51). -/

namespace Sys2Proof

/-- One bus word and one command word: 32 bits (R11, R80). -/
abbrev Word := BitVec 32

/-- One byte: what one entropy draw is made of (R15, R191), and the width of ERRCODE, PINF and CLEN (R33, R35, R36). -/
abbrev Byte := BitVec 8

/-- One operand or curve parameter register: W = 384 bits (R8, R22, R25). -/
abbrev Reg := BitVec 384

end Sys2Proof
end

