-- ==== Sys2Proof/Syntax.lean ====
section
/-! DEFINITION. The syntax of the command set (30_encoding.md): the 21 commands with their operands as names, and the raw fields
of a command word. -/

namespace Sys2Proof

/-- An operand of class X: operand register x[v], v in 0..15 (R82, R85). -/
abbrev XReg := Fin 16

/-- An operand of class P: point register p[v], v in 0..7 (R82, R85). -/
abbrev PReg := Fin 8

/-- An operand of class S: pair register s[v], v in 0..7 (R82, R85). -/
abbrev SReg := Fin 8

/-- The modulus select of the modular arithmetic family: cr.P for w.M = 0, cr.N for w.M = 1 (R83). -/
inductive ModSel where
  | p
  | n
  deriving DecidableEq, Repr

/-- The curve selector of CLOAD, class K (R82, R84, R113): ids 0, 1 and 2 by the names of R91. -/
inductive CurveId where
  | secp256k1
  | secp256r1
  | secp384r1
  deriving DecidableEq, Repr

/-- The commands of R86, one constructor per row of spec/opcode_table.json; operands in field order D, A, B, C, omitting unused
fields, then the modulus (R91). -/
inductive Instr where
  /-- R110 -/
  | nop
  /-- R133 -/
  | madd (d a b : XReg) (m : ModSel)
  /-- R134 -/
  | msub (d a b : XReg) (m : ModSel)
  /-- R135 -/
  | mmul (d a b : XReg) (m : ModSel)
  /-- R136 -/
  | mmont (d a b : XReg) (m : ModSel)
  /-- R137 -/
  | minv (d a : XReg) (m : ModSel)
  /-- R138 -/
  | mred (d a : XReg) (m : ModSel)
  /-- R139 -/
  | mrr (d : XReg) (m : ModSel)
  /-- R165 -/
  | padd (d a b : PReg)
  /-- R166 -/
  | pdbl (d a : PReg)
  /-- R167 -/
  | pmul (d a : PReg) (b : XReg)
  /-- R168 -/
  | pchk (a : PReg)
  /-- R169 -/
  | pldg (d : PReg)
  /-- R210 -/
  | pubk (d : PReg) (a : XReg)
  /-- R197 -/
  | rand (d : XReg)
  /-- R198: a the digest, b the secret -/
  | nonce (d a b : XReg)
  /-- R213: a the digest, b the secret -/
  | sign (d : SReg) (a b : XReg)
  /-- R214: a the digest, b the secret, c the nonce -/
  | signk (d : SReg) (a b c : XReg)
  /-- R217: a the digest, b the signature, c the public key -/
  | verify (a : XReg) (b : SReg) (c : PReg)
  /-- R111 -/
  | cset
  /-- R113 -/
  | cload (k : CurveId)
  deriving DecidableEq, Repr

/-- The assigned opcodes by name (R86). -/
inductive Opcode where
  | nop | madd | msub | mmul | mmont | minv | mred | mrr
  | padd | pdbl | pmul | pchk | pldg | pubk
  | rand | nonce | sign | signk | verify | cset | cload
  deriving DecidableEq, Repr

/-- The opcode of a command. -/
def Instr.opcode : Instr → Opcode
  | .nop => .nop
  | .madd _ _ _ _ => .madd
  | .msub _ _ _ _ => .msub
  | .mmul _ _ _ _ => .mmul
  | .mmont _ _ _ _ => .mmont
  | .minv _ _ _ => .minv
  | .mred _ _ _ => .mred
  | .mrr _ _ => .mrr
  | .padd _ _ _ => .padd
  | .pdbl _ _ => .pdbl
  | .pmul _ _ _ => .pmul
  | .pchk _ => .pchk
  | .pldg _ => .pldg
  | .pubk _ _ => .pubk
  | .rand _ => .rand
  | .nonce _ _ _ => .nonce
  | .sign _ _ _ => .sign
  | .signk _ _ _ _ => .signk
  | .verify _ _ _ => .verify
  | .cset => .cset
  | .cload _ => .cload

/-- The fields of a command word as they stand in it (R81). -/
structure Fields where
  op  : BitVec 8
  d   : BitVec 4
  a   : BitVec 4
  b   : BitVec 4
  c   : BitVec 4
  m   : BitVec 1
  rsv : BitVec 7
  deriving DecidableEq, Repr

end Sys2Proof
end

