-- ==== Sys2Proof/WellFormed.lean ====
section
/-! DEFINITION. When a command word is well-formed (30_encoding.md R82, R86, R88): field by field from the operand classes, and
again as the mask and match table of R88. The decoder uses the first; that the two agree is a statement. -/

namespace Sys2Proof

/-- The five operand classes of a 4-bit field (R82). -/
inductive OperandClass where
  /-- an operand register: all 16 values legal -/
  | x
  /-- a point register: bit 3 must be 0 -/
  | p
  /-- a pair register: bit 3 must be 0 -/
  | s
  /-- the curve selector of CLOAD: 0, 1 or 2 -/
  | k
  /-- unused: all four bits must be 0 -/
  | unused
  deriving DecidableEq, Repr

/-- Whether a field's value is legal for its class (R82). -/
def OperandClass.legal : OperandClass → BitVec 4 → Bool
  | .x, _ => true
  | .p, v => v.getLsbD 3 == false
  | .s, v => v.getLsbD 3 == false
  | .k, v => decide (v.toNat ≤ 2)
  | .unused, v => v == 0

/-- One row of R86: the classes of D, A, B and C, whether w.M is free, and whether the command needs a validated curve. -/
structure Form where
  d : OperandClass
  a : OperandClass
  b : OperandClass
  c : OperandClass
  mFree : Bool
  needsCurve : Bool
  deriving DecidableEq, Repr

/-- The `fields`, `M` and `curve needed` columns of R86. -/
def Opcode.form : Opcode → Form
  | .nop    => ⟨.unused, .unused, .unused, .unused, false, false⟩
  | .madd   => ⟨.x, .x, .x, .unused, true, true⟩
  | .msub   => ⟨.x, .x, .x, .unused, true, true⟩
  | .mmul   => ⟨.x, .x, .x, .unused, true, true⟩
  | .mmont  => ⟨.x, .x, .x, .unused, true, true⟩
  | .minv   => ⟨.x, .x, .unused, .unused, true, true⟩
  | .mred   => ⟨.x, .x, .unused, .unused, true, true⟩
  | .mrr    => ⟨.x, .unused, .unused, .unused, true, true⟩
  | .padd   => ⟨.p, .p, .p, .unused, false, true⟩
  | .pdbl   => ⟨.p, .p, .unused, .unused, false, true⟩
  | .pmul   => ⟨.p, .p, .x, .unused, false, true⟩
  | .pchk   => ⟨.unused, .p, .unused, .unused, false, true⟩
  | .pldg   => ⟨.p, .unused, .unused, .unused, false, true⟩
  | .pubk   => ⟨.p, .x, .unused, .unused, false, true⟩
  | .rand   => ⟨.x, .unused, .unused, .unused, false, true⟩
  | .nonce  => ⟨.x, .x, .x, .unused, false, true⟩
  | .sign   => ⟨.s, .x, .x, .unused, false, true⟩
  | .signk  => ⟨.s, .x, .x, .x, false, true⟩
  | .verify => ⟨.unused, .x, .s, .p, false, true⟩
  | .cset   => ⟨.unused, .unused, .unused, .unused, false, false⟩
  | .cload  => ⟨.k, .unused, .unused, .unused, false, false⟩

/-- The `curve needed` column of R86 for a command. -/
def Instr.needsCurve (i : Instr) : Bool := i.opcode.form.needsCurve

/-- The reserved field must be 0 (R81). -/
def Fields.rsvZero (f : Fields) : Bool := f.rsv == 0

/-- w.M must be 0 outside the modular arithmetic family (R83). -/
def Fields.modLegal (f : Fields) (o : Opcode) : Bool := o.form.mFree || f.m == 0

/-- Every operand field is legal for its class (R82). -/
def Fields.operandsLegal (f : Fields) (o : Opcode) : Bool :=
  o.form.d.legal f.d && o.form.a.legal f.a && o.form.b.legal f.b && o.form.c.legal f.c

/-- The fields of a word whose OP is that of `o` are those of a well-formed command (R81 to R83, R86). -/
def Fields.wellFormed (f : Fields) (o : Opcode) : Bool :=
  f.rsvZero && f.modLegal o && f.operandsLegal o

/-- A row of the mask and match table (R88). -/
structure MaskMatch where
  value : Word
  mask   : Word
  deriving DecidableEq, Repr

/-- The mask and match table of R88, number for number. -/
def Opcode.maskMatch : Opcode → MaskMatch
  | .nop    => ⟨0x00000000#32, 0xFFFFFFFF#32⟩
  | .madd   => ⟨0x00000001#32, 0xFEF000FF#32⟩
  | .msub   => ⟨0x00000002#32, 0xFEF000FF#32⟩
  | .mmul   => ⟨0x00000003#32, 0xFEF000FF#32⟩
  | .mmont  => ⟨0x00000004#32, 0xFEF000FF#32⟩
  | .minv   => ⟨0x00000005#32, 0xFEFF00FF#32⟩
  | .mred   => ⟨0x00000006#32, 0xFEFF00FF#32⟩
  | .mrr    => ⟨0x00000007#32, 0xFEFFF0FF#32⟩
  | .padd   => ⟨0x00000010#32, 0xFFF888FF#32⟩
  | .pdbl   => ⟨0x00000011#32, 0xFFFF88FF#32⟩
  | .pmul   => ⟨0x00000012#32, 0xFFF088FF#32⟩
  | .pchk   => ⟨0x00000013#32, 0xFFFF8FFF#32⟩
  | .pldg   => ⟨0x00000014#32, 0xFFFFF8FF#32⟩
  | .pubk   => ⟨0x00000015#32, 0xFFFF08FF#32⟩
  | .rand   => ⟨0x00000020#32, 0xFFFFF0FF#32⟩
  | .nonce  => ⟨0x00000021#32, 0xFFF000FF#32⟩
  | .sign   => ⟨0x00000028#32, 0xFFF008FF#32⟩
  | .signk  => ⟨0x00000029#32, 0xFF0008FF#32⟩
  | .verify => ⟨0x0000002A#32, 0xFF880FFF#32⟩
  | .cset   => ⟨0x00000030#32, 0xFFFFFFFF#32⟩
  | .cload  => ⟨0x00000031#32, 0xFFFFF0FF#32⟩

/-- The bits R88's mask fixes in a field of a class: all four of an unused field, bit 3 of a P or S field. -/
def OperandClass.fixedBits : OperandClass → BitVec 4
  | .x => 0b0000#4
  | .p => 0b1000#4
  | .s => 0b1000#4
  | .k => 0b0000#4
  | .unused => 0b1111#4

/-- R88's own words: `(w AND mask) = match`, and, for CLOAD only, also `w.D <= 2`. -/
def Opcode.matches (o : Opcode) (w : Word) : Bool :=
  (w &&& o.maskMatch.mask == o.maskMatch.value) &&
    (if o = .cload then decide ((w.extractLsb' 8 4).toNat ≤ 2) else true)

/-- All assigned opcodes, in the order of R86. -/
def Opcode.all : List Opcode :=
  [.nop, .madd, .msub, .mmul, .mmont, .minv, .mred, .mrr, .padd, .pdbl, .pmul, .pchk, .pldg, .pubk,
   .rand, .nonce, .sign, .signk, .verify, .cset, .cload]

end Sys2Proof
end

