-- ==== Sys2Proof/Decode.lean ====
section
/-! DEFINITION. The decoder, total on 32-bit words (30_encoding.md R80 to R90), and the encoder. -/

namespace Sys2Proof

/-- What a word decodes to: exactly one of three things (R90). -/
inductive Decoded where
  | command (i : Instr)
  /-- w.OP is reserved (R87) -/
  | illegalOpcode
  /-- w.OP is assigned and the word is not well-formed (R89) -/
  | illegalOperand
  deriving DecidableEq, Repr

/-- The fields of a command word by their bit positions (R81). -/
def Fields.ofWord (w : Word) : Fields where
  op  := w.extractLsb' 0 8
  d   := w.extractLsb' 8 4
  a   := w.extractLsb' 12 4
  b   := w.extractLsb' 16 4
  c   := w.extractLsb' 20 4
  m   := w.extractLsb' 24 1
  rsv := w.extractLsb' 25 7

/-- The word that holds the given fields: `RRRRRRRM CCCCBBBB AAAADDDD OOOOOOOO` (R81). -/
def Fields.toWord (f : Fields) : Word :=
  f.rsv ++ f.m ++ f.c ++ f.b ++ f.a ++ f.d ++ f.op

/-- The OP column of R86. -/
def Opcode.code : Opcode → BitVec 8
  | .nop => 0x00#8
  | .madd => 0x01#8
  | .msub => 0x02#8
  | .mmul => 0x03#8
  | .mmont => 0x04#8
  | .minv => 0x05#8
  | .mred => 0x06#8
  | .mrr => 0x07#8
  | .padd => 0x10#8
  | .pdbl => 0x11#8
  | .pmul => 0x12#8
  | .pchk => 0x13#8
  | .pldg => 0x14#8
  | .pubk => 0x15#8
  | .rand => 0x20#8
  | .nonce => 0x21#8
  | .sign => 0x28#8
  | .signk => 0x29#8
  | .verify => 0x2A#8
  | .cset => 0x30#8
  | .cload => 0x31#8

/-- The assigned opcode an OP value names, none for the reserved ones (R86, R87). -/
def Opcode.ofCode (v : BitVec 8) : Option Opcode :=
  Opcode.all.find? fun o => o.code == v

/-- An X field names the operand register of its value (R85). -/
def xOfField (v : BitVec 4) : XReg := v.toFin

/-- A P or S field whose bit 3 is 0 names the register of its low three bits (R82, R85). -/
def pOfField (v : BitVec 4) : PReg := (v.extractLsb' 0 3).toFin

/-- w.M = 0 selects P, w.M = 1 selects N (R83). -/
def modOfField (v : BitVec 1) : ModSel := if v = 0#1 then .p else .n

/-- The selector of CLOAD: 0 secp256k1, 1 secp256r1, 2 secp384r1 (R84, R91, R113, R117). -/
def curveOfField (v : BitVec 4) : CurveId :=
  if v = 0#4 then .secp256k1 else if v = 1#4 then .secp256r1 else .secp384r1

/-- The command that well-formed fields name: the columns D, A, B, C of R86. -/
def Fields.toInstr (f : Fields) : Opcode → Instr
  | .nop => .nop
  | .madd => .madd (xOfField f.d) (xOfField f.a) (xOfField f.b) (modOfField f.m)
  | .msub => .msub (xOfField f.d) (xOfField f.a) (xOfField f.b) (modOfField f.m)
  | .mmul => .mmul (xOfField f.d) (xOfField f.a) (xOfField f.b) (modOfField f.m)
  | .mmont => .mmont (xOfField f.d) (xOfField f.a) (xOfField f.b) (modOfField f.m)
  | .minv => .minv (xOfField f.d) (xOfField f.a) (modOfField f.m)
  | .mred => .mred (xOfField f.d) (xOfField f.a) (modOfField f.m)
  | .mrr => .mrr (xOfField f.d) (modOfField f.m)
  | .padd => .padd (pOfField f.d) (pOfField f.a) (pOfField f.b)
  | .pdbl => .pdbl (pOfField f.d) (pOfField f.a)
  | .pmul => .pmul (pOfField f.d) (pOfField f.a) (xOfField f.b)
  | .pchk => .pchk (pOfField f.a)
  | .pldg => .pldg (pOfField f.d)
  | .pubk => .pubk (pOfField f.d) (xOfField f.a)
  | .rand => .rand (xOfField f.d)
  | .nonce => .nonce (xOfField f.d) (xOfField f.a) (xOfField f.b)
  | .sign => .sign (pOfField f.d) (xOfField f.a) (xOfField f.b)
  | .signk => .signk (pOfField f.d) (xOfField f.a) (xOfField f.b) (xOfField f.c)
  | .verify => .verify (xOfField f.a) (pOfField f.b) (pOfField f.c)
  | .cset => .cset
  | .cload => .cload (curveOfField f.d)

/-- The decoder (R87 to R90): a reserved OP first, then the well-formedness of the word, then the command. -/
def decode (w : Word) : Decoded :=
  let f := Fields.ofWord w
  match Opcode.ofCode f.op with
  | none => .illegalOpcode
  | some o => if f.wellFormed o then .command (f.toInstr o) else .illegalOperand

/-- The field of an operand register. -/
def fieldOfX (i : XReg) : BitVec 4 := BitVec.ofFin i

/-- The field of a point or pair register: its number below a 0 in bit 3 (R82). -/
def fieldOfP (i : PReg) : BitVec 4 := 0#1 ++ (BitVec.ofFin i : BitVec 3)

/-- The M bit of a modulus (R83). -/
def fieldOfMod : ModSel → BitVec 1
  | .p => 0#1
  | .n => 1#1

/-- The selector of a preset curve (R91). -/
def fieldOfCurve : CurveId → BitVec 4
  | .secp256k1 => 0#4
  | .secp256r1 => 1#4
  | .secp384r1 => 2#4

/-- The fields of a command, unused and reserved fields 0 (R81, R86). -/
def Instr.fields (i : Instr) : Fields :=
  let op := i.opcode.code
  match i with
  | .nop => ⟨op, 0, 0, 0, 0, 0, 0⟩
  | .madd d a b m => ⟨op, fieldOfX d, fieldOfX a, fieldOfX b, 0, fieldOfMod m, 0⟩
  | .msub d a b m => ⟨op, fieldOfX d, fieldOfX a, fieldOfX b, 0, fieldOfMod m, 0⟩
  | .mmul d a b m => ⟨op, fieldOfX d, fieldOfX a, fieldOfX b, 0, fieldOfMod m, 0⟩
  | .mmont d a b m => ⟨op, fieldOfX d, fieldOfX a, fieldOfX b, 0, fieldOfMod m, 0⟩
  | .minv d a m => ⟨op, fieldOfX d, fieldOfX a, 0, 0, fieldOfMod m, 0⟩
  | .mred d a m => ⟨op, fieldOfX d, fieldOfX a, 0, 0, fieldOfMod m, 0⟩
  | .mrr d m => ⟨op, fieldOfX d, 0, 0, 0, fieldOfMod m, 0⟩
  | .padd d a b => ⟨op, fieldOfP d, fieldOfP a, fieldOfP b, 0, 0, 0⟩
  | .pdbl d a => ⟨op, fieldOfP d, fieldOfP a, 0, 0, 0, 0⟩
  | .pmul d a b => ⟨op, fieldOfP d, fieldOfP a, fieldOfX b, 0, 0, 0⟩
  | .pchk a => ⟨op, 0, fieldOfP a, 0, 0, 0, 0⟩
  | .pldg d => ⟨op, fieldOfP d, 0, 0, 0, 0, 0⟩
  | .pubk d a => ⟨op, fieldOfP d, fieldOfX a, 0, 0, 0, 0⟩
  | .rand d => ⟨op, fieldOfX d, 0, 0, 0, 0, 0⟩
  | .nonce d a b => ⟨op, fieldOfX d, fieldOfX a, fieldOfX b, 0, 0, 0⟩
  | .sign d a b => ⟨op, fieldOfP d, fieldOfX a, fieldOfX b, 0, 0, 0⟩
  | .signk d a b c => ⟨op, fieldOfP d, fieldOfX a, fieldOfX b, fieldOfX c, 0, 0⟩
  | .verify a b c => ⟨op, 0, fieldOfX a, fieldOfP b, fieldOfP c, 0, 0⟩
  | .cset => ⟨op, 0, 0, 0, 0, 0, 0⟩
  | .cload k => ⟨op, fieldOfCurve k, 0, 0, 0, 0, 0⟩

/-- The command word of a command (R81, R86). -/
def encode (i : Instr) : Word := i.fields.toWord

/-- A command is well-formed when its own word is (R88); every command is, since its operands' types hold no illegal value. -/
def Instr.wellFormed (i : Instr) : Bool := i.opcode.matches (encode i)

/-- The command the decoder reads from a word of the opcode table's numbering: every row is one 32-bit word (R80). -/
def decodeTableWord (nbits w : Nat) : Option Instr :=
  match decode (BitVec.ofNat 32 (w % Nat.pow 2 nbits)) with
  | .command i => some i
  | .illegalOpcode => none
  | .illegalOperand => none

end Sys2Proof
end

