-- ==== Sys2Proof/Config.lean ====
section
/-! DEFINITION. What is fixed for one core and is not state (10_state.md R21): the parameters the spec gives a value, and
the OPEN ones, each an opaque constant of which nothing can be proved. The curve ROM (40_curve.md R117) is in
Sys2Proof/Machine/Curve.lean. -/

namespace Sys2Proof

/-- The five curve parameters A, B, P, N, G as integers (40_curve.md R112: a candidate curve is (A, B, P, N, GX, GY)). -/
structure CurveVal where
  a  : Nat
  b  : Nat
  p  : Nat
  n  : Nat
  gx : Nat
  gy : Nat
  deriving DecidableEq, Repr

/-- MAX_TRIES: the most nonce candidates one command examines, and the most entropy draws one RAND makes (R12). -/
def Config.maxTries : Nat := 256

/-- BASE, OPEN: where the window lies in the host's address space (R11). No rule of the core reads it: every offset of the
model is relative to it. Log entry 17. -/
opaque Config.base : Nat

/-- HLEN − 1, OPEN. -/
opaque Config.hlenPred : Nat

/-- HLEN, OPEN: the digest length in bytes that the nonce function is given, a positive integer (R13). Log entry 5. -/
def Config.hlen : Nat := Config.hlenPred + 1

/-- NONCE_FN(d, e, curve, HLEN, i), OPEN: the i-th nonce candidate for secret d and digest e on the loaded curve. Nothing is
assumed of it except that it is a function of those arguments alone (R14, R192). Log entry 5. -/
opaque Config.nonceFn : Nat → Nat → CurveVal → Nat → Nat → Nat

/-- FREE VALUE. The k-th byte the entropy source delivers, where the state's input queue of bytes does not hold it (R15, R196:
"each draw returns a byte string of a requested length with no law"). Log entry 4. -/
opaque Config.entropyByte : Nat → Byte

/-- FREE VALUE. What the k-th read of a data register, PINF or CLEN made while BUSY = 1 returns (70_reset_and_hazards.md R272:
"an independent draw of a 32-bit value with no law"). Log entry 3. -/
opaque Config.busyRead : Nat → Word

end Sys2Proof
end

