-- ==== Sys2Proof/Machine/State.lean ====
section
/-! DEFINITION. The state of ECC-CORE (10_state.md), the inputs it still has to take, and the reasons a step can stop. -/

namespace Sys2Proof.Machine

/-- The six curve parameter registers (R25). -/
structure CurveRegs where
  a  : Reg
  b  : Reg
  p  : Reg
  n  : Reg
  gx : Reg
  gy : Reg
  deriving DecidableEq, Repr

/-- What one step takes from outside the core, and whose step it is (R20, R66, R236). Log entry 1. -/
inductive Event where
  /-- the host reads `width` bytes at a byte offset from BASE (00_scope.md R18, 20_memory.md R51) -/
  | read (off width : Nat)
  /-- the host writes `width` bytes at a byte offset from BASE; `v` is the 32-bit value of a word access -/
  | write (off width : Nat) (v : Word)
  /-- the platform asserts the reset input (70_reset_and_hazards.md R260) -/
  | reset
  /-- the core takes its completion step, if a command is in flight (30_encoding.md R99) -/
  | complete
  /-- the platform answered an access from a cache, or merged or reordered accesses (20_memory.md R66, R72; U12). Log entry 15. -/
  | nonCoherentAccess
  deriving DecidableEq, Repr

/-- The whole state. The fields down to `lastcmd` are the spec's (R21, R41); those after it are the model's own: inputs, the
output to the host, and the counters of free values (log entries 1, 3, 4, 9). -/
structure State where
  /-- x0..x15 (R22) -/
  x : Vector Reg 16
  /-- PINF[7:0] (R24, R35) -/
  pinf : Byte
  /-- cr.A, cr.B, cr.P, cr.N, cr.GX, cr.GY (R25) -/
  cr : CurveRegs
  /-- CV, STATUS bit 4 (R26) -/
  cv : Bool
  /-- CLEN (R27, R36) -/
  clen : Byte
  /-- CTRL.IE (R32) -/
  ie : Bool
  /-- STATUS.BUSY (R29, R33) -/
  busy : Bool
  /-- STATUS.DONE (R33) -/
  done : Bool
  /-- STATUS.ERR (R33) -/
  err : Bool
  /-- STATUS.TRUE (R30, R33) -/
  truth : Bool
  /-- STATUS.BUSYWR (R33, R271) -/
  busywr : Bool
  /-- STATUS.ERRCODE (R33, R230) -/
  errcode : Byte
  /-- LASTCMD, the CMD register's read value (R29, R34) -/
  lastcmd : Word
  /-- MODEL: the events still to come, oldest first (log entry 1) -/
  schedule : List Event
  /-- MODEL: the value the last host read returned (log entry 9) -/
  rdata : Word
  /-- MODEL: the bytes the entropy source delivers next (log entry 4) -/
  entropy : List Byte
  /-- MODEL: how many entropy bytes have been drawn (log entry 4) -/
  entropyDrawn : Nat
  /-- MODEL: how many unspecified reads have been made (log entry 3) -/
  busyReads : Nat
  deriving DecidableEq, Repr

/-- Reasons the machine stops by itself: none. Every error of a command is an ordinary completion (60_exceptions.md R235: "Errors
are command outcomes, not model faults"), so this type has no constructor and no step faults. Log entry 16. -/
inductive Fault where
  deriving DecidableEq, Repr

/-- Reasons a step is refused. All but the first are the host's or the platform's doing, none an instruction's; each is SAFE: the
model stops where the hardware's behaviour is implementation-defined. -/
inductive Refusal where
  /-- an instruction without a meaning in this model; raised by exec's rejected arms only (there are none); safe -/
  | notModelled (mnemonic : String)
  /-- a host access that is not one 32-bit word; raised by host accesses (20_memory.md R51, U5; log entry 8); safe -/
  | accessWidth
  /-- a host access at an offset that is not a multiple of 4; raised by host accesses (R51, U5; log entry 8); safe -/
  | accessUnaligned
  /-- a host access outside the 4096-byte window; raised by host accesses (R51, U5; log entry 8); safe -/
  | accessOutsideWindow
  /-- a platform that caches, merges or reorders accesses; raised by its event (R72, U12; log entry 15); safe -/
  | nonCoherentPlatform
  deriving DecidableEq, Repr

/-- The error codes of a failing command (60_exceptions.md R230); their numbers are in Machine/Flags.lean. -/
inductive ErrCode where
  | illegalOpcode
  | illegalOperand
  | noCurve
  | range
  | notInvertible
  | invalidKey
  | invalidCurve
  | retryExhausted
  | invalidNonce
  deriving DecidableEq, Repr

/-- A point value: INF or a pair of integers (00_scope.md R19). -/
inductive Point where
  | inf
  | aff (x y : Nat)
  deriving DecidableEq, Repr

/-- The machine right after reset: every value of R41. The model's own fields are empty or 0 (log entries 1, 3, 4, 9). -/
def State.reset : State where
  x := Vector.replicate 16 0#384
  pinf := 0#8
  cr := { a := 0#384, b := 0#384, p := 0#384, n := 0#384, gx := 0#384, gy := 0#384 }
  cv := false
  clen := 0#8
  ie := false
  busy := false
  done := false
  err := false
  truth := false
  busywr := false
  errcode := 0#8
  lastcmd := 0#32
  schedule := []
  rdata := 0#32
  entropy := []
  entropyDrawn := 0
  busyReads := 0

/-- The outcome of one step or one meaning. -/
abbrev Answer := Host.Outcome State Fault Refusal

end Sys2Proof.Machine
end

