-- ==== Sys2Proof/Machine/Arith.lean ====
section
/-! DEFINITION. The integer arithmetic every command is written in (00_scope.md R19, 41_field.md R131, R132): exact integers,
reduced at the end. -/

namespace Sys2Proof.Machine

/-- bitlen(v): the number of bits of v, with bitlen(0) = 0 (R19). -/
def bitlen (v : Nat) : Nat := if v = 0 then 0 else Nat.log2 v + 1

/-- ceil(a/b) (R19). -/
def ceilDiv (a b : Nat) : Nat := (a + (b - 1)) / b

/-- a mod m for an integer a and m ≥ 1: the unique r in [0, m − 1] with a ≡ r (mod m), for negative a too (R19). -/
def imod (a : Int) (m : Nat) : Nat := (Int.emod a (Int.ofNat m)).toNat

/-- Euclid's algorithm on (r0, r1), carrying t0 and t1 with r0 ≡ t0·a and r1 ≡ t1·a (mod m). Log entry 12. -/
def euclid (m : Nat) : Nat → Nat → Nat → Nat → Nat → Nat
  | 0, _, _, t0, _ => t0
  | fuel + 1, r0, r1, t0, t1 =>
    if r1 = 0 then t0
    else euclid m fuel r1 (r0 % r1) t1 ((t0 + (m - (r0 / r1 * t1) % m)) % m)

/-- inv(a, m), for m ≥ 2 and a in [0, m − 1] (R132): the unique t in [0, m − 1] with (a·t) mod m = 1, or NOT_INVERTIBLE when
gcd(a, m) ≠ 1. Log entry 12: the bound on Euclid's steps, and what other arguments give. -/
def inv (a m : Nat) : Except ErrCode Nat :=
  if Nat.gcd a m ≠ 1 then .error .notInvertible
  else .ok (euclid m (2 * bitlen m + 2) m a 0 1)

/-- RB(M) = 64 · ceil(bitlen(M) / 64) (R131). -/
def radixBits (m : Nat) : Nat := 64 * ceilDiv (bitlen m) 64

/-- R = 2^RB(M), the Montgomery radix (R131). -/
def radix (m : Nat) : Nat := Nat.pow 2 (radixBits m)

/-- The Montgomery product a·b·R⁻¹ mod M; NOT_INVERTIBLE for an even M (R136). -/
def montgomery (a b m : Nat) : Except ErrCode Nat :=
  if m % 2 = 0 then .error .notInvertible
  else do
    let r ← inv (radix m % m) m
    pure (a * b * r % m)

/-- R² mod M; NOT_INVERTIBLE for an even M (R139). -/
def radixSquared (m : Nat) : Except ErrCode Nat :=
  if m % 2 = 0 then .error .notInvertible
  else .ok (radix m * radix m % m)

end Sys2Proof.Machine
end

