-- ==== Sys2Proof/Machine/Flags.lean ====
section
/-! DEFINITION. The control and status words (10_state.md R31 to R36) and the flags a command leaves (R30, 30_encoding.md R99). -/

namespace Sys2Proof.Machine

/-- ID reads "ECC1" at all times (R31). -/
def idValue : Word := 0x45434331#32

/-- The code column of 60_exceptions.md R230. -/
def ErrCode.code : ErrCode → Byte
  | .illegalOpcode => 1#8
  | .illegalOperand => 2#8
  | .noCurve => 3#8
  | .range => 4#8
  | .notInvertible => 5#8
  | .invalidKey => 6#8
  | .invalidCurve => 7#8
  | .retryExhausted => 8#8
  | .invalidNonce => 9#8

/-- One bit as a word of one bit. -/
def flagBit (b : Bool) : BitVec 1 := BitVec.ofBool b

/-- STATUS as the host reads it (R33): reserved bits 7:6 and 31:16 read 0. -/
def State.statusWord (s : State) : Word :=
  0#16 ++ s.errcode ++ 0#2 ++ flagBit s.busywr ++ flagBit s.cv ++ flagBit s.truth ++ flagBit s.err ++ flagBit s.done ++
    flagBit s.busy

/-- CTRL as the host reads it (R32): SRST and bits 31:2 read 0. -/
def State.ctrlWord (s : State) : Word := 0#31 ++ flagBit s.ie

/-- PINF as the host reads it (R35). -/
def State.pinfWord (s : State) : Word := 0#24 ++ s.pinf

/-- CLEN as the host reads it (R36). -/
def State.clenWord (s : State) : Word := 0#24 ++ s.clen

/-- IRQ = CTRL.IE and STATUS.DONE, a level (60_exceptions.md R240, 10_state.md R40). -/
def State.irq (s : State) : Bool := s.ie && s.done

/-- A write to STATUS clears DONE if bit 1 of the value is 1 and BUSYWR if bit 5 is 1, and changes nothing else (R33). -/
def State.writeStatus (s : State) (v : Word) : State :=
  { s with done := s.done && !v.getLsbD 1, busywr := s.busywr && !v.getLsbD 5 }

/-- The flags of a successful completion: BUSY 0, DONE 1, ERR 0, ERRCODE 0, TRUE t (R99). -/
def State.succeed (s : State) (t : Bool) : State :=
  { s with busy := false, done := true, err := false, errcode := 0#8, truth := t }

/-- A failing command's completion, the one shared operation for every error (R99, 60_exceptions.md R233): BUSY 0, DONE 1, ERR 1,
ERRCODE the code, TRUE 0, and no other register changes. -/
def State.takeError (s : State) (e : ErrCode) : State :=
  { s with busy := false, done := true, err := true, errcode := e.code, truth := false }

/-- Acceptance of a command word: LASTCMD, BUSY 1, and DONE, ERR, ERRCODE, TRUE cleared; no operand, PINF or curve register changes
(30_encoding.md R95). -/
def State.accept (s : State) (w : Word) : State :=
  { s with lastcmd := w, busy := true, done := false, err := false, errcode := 0#8, truth := false }

/-- A host write that is ignored because BUSY = 1 sets BUSYWR (70_reset_and_hazards.md R271). -/
def State.lostWrite (s : State) : State := { s with busywr := true }

end Sys2Proof.Machine
end

