-- ==== Sys2Proof/Machine/Operands.lean ====
section
/-! DEFINITION. Reading and writing every operand form (10_state.md R22 to R25, 30_encoding.md R85), and the source checks
(41_field.md R130, 42_point.md R164, 44_ecdsa.md R215). -/

namespace Sys2Proof.Machine

/-- x[i] as a register (R22). -/
def State.getX (s : State) (i : XReg) : Reg := s.x[i.val]

/-- x[i] as an unsigned integer in [0, 2^W − 1] (00_scope.md R17). -/
def State.xVal (s : State) (i : XReg) : Nat := (s.getX i).toNat

/-- x[i] <- v as a register. PINF is untouched (70_reset_and_hazards.md R276). -/
def State.setX (s : State) (i : XReg) (v : Reg) : State := { s with x := s.x.set i.val v i.isLt }

/-- x[i] <- v as an integer; every rule writes a value in [0, 2^W − 1] (R17, R19; log entry 12). -/
def State.putX (s : State) (i : XReg) (v : Nat) : State := s.setX i (BitVec.ofNat 384 v)

/-- The register that holds the first half of p[i] and s[i]: x[2i] (R23). -/
def loReg (i : PReg) : XReg := ⟨2 * i.val, by omega⟩

/-- The register that holds the second half of p[i] and s[i]: x[2i+1] (R23). -/
def hiReg (i : PReg) : XReg := ⟨2 * i.val + 1, by omega⟩

/-- PINF[i] (R24). -/
def State.getPinf (s : State) (i : PReg) : Bool := s.pinf.getLsbD i.val

/-- PINF[i] <- b, the other seven flags unchanged (R24). -/
def State.setPinf (s : State) (i : PReg) (b : Bool) : State :=
  { s with pinf := if b then s.pinf ||| BitVec.twoPow 8 i.val else s.pinf &&& ~~~ BitVec.twoPow 8 i.val }

/-- The point p[i]: INF if PINF[i] = 1, else (x[2i], x[2i+1]) (R23). -/
def State.point (s : State) (i : PReg) : Point :=
  if s.getPinf i then .inf else .aff (s.xVal (loReg i)) (s.xVal (hiReg i))

/-- Writing a point to p[i]: INF zeroes both coordinates and sets PINF[i]; a finite point is stored and clears it (R23). -/
def State.putPoint (s : State) (i : PReg) : Point → State
  | .inf => ((s.putX (loReg i) 0).putX (hiReg i) 0).setPinf i true
  | .aff px py => ((s.putX (loReg i) px).putX (hiReg i) py).setPinf i false

/-- r of the pair s[i], ignoring PINF[i] (R23). -/
def State.pairLo (s : State) (i : SReg) : Nat := s.xVal (loReg i)

/-- s of the pair s[i], ignoring PINF[i] (R23). -/
def State.pairHi (s : State) (i : SReg) : Nat := s.xVal (hiReg i)

/-- Writing a pair to s[i] writes the two operand registers and leaves PINF[i] unchanged (R23). -/
def State.putPair (s : State) (i : SReg) (r t : Nat) : State := (s.putX (loReg i) r).putX (hiReg i) t

/-- The curve registers as integers (R25). -/
def CurveRegs.val (c : CurveRegs) : CurveVal where
  a  := c.a.toNat
  b  := c.b.toNat
  p  := c.p.toNat
  n  := c.n.toNat
  gx := c.gx.toNat
  gy := c.gy.toNat

/-- The curve registers that hold given parameters (R25). -/
def CurveRegs.ofVal (c : CurveVal) : CurveRegs where
  a  := BitVec.ofNat 384 c.a
  b  := BitVec.ofNat 384 c.b
  p  := BitVec.ofNat 384 c.p
  n  := BitVec.ofNat 384 c.n
  gx := BitVec.ofNat 384 c.gx
  gy := BitVec.ofNat 384 c.gy

/-- The loaded curve (40_curve.md R118). -/
def State.curve (s : State) : CurveVal := s.cr.val

/-- The base point G = (GX, GY) of a curve (R25). -/
def basePoint (c : CurveVal) : Point := .aff c.gx c.gy

/-- M: cr.P or cr.N (30_encoding.md R83). -/
def State.modulus (s : State) : ModSel → Nat
  | .p => s.curve.p
  | .n => s.curve.n

/-- canon: an operand register as a canonical residue of M, else RANGE (R130). -/
def State.canon (s : State) (m : ModSel) (i : XReg) : Except ErrCode Nat :=
  if s.xVal i ≥ s.modulus m then .error .range else .ok (s.xVal i)

/-- pcanon: a point register whose finite coordinates are below P, else RANGE (R164). -/
def State.pcanon (s : State) (i : PReg) : Except ErrCode Point :=
  if s.getPinf i then .ok .inf
  else if s.xVal (loReg i) ≥ s.curve.p ∨ s.xVal (hiReg i) ≥ s.curve.p then .error .range
  else .ok (.aff (s.xVal (loReg i)) (s.xVal (hiReg i)))

/-- A scalar in [1, N − 1] (R215), else the error of the operand it is read from. -/
def State.scalarIn (s : State) (i : XReg) (e : ErrCode) : Except ErrCode Nat :=
  if 1 ≤ s.xVal i ∧ s.xVal i ≤ s.curve.n - 1 then .ok (s.xVal i) else .error e

/-- A private key operand, else INVALID_KEY (R215). -/
def State.secret (s : State) (i : XReg) : Except ErrCode Nat := s.scalarIn i .invalidKey

end Sys2Proof.Machine
end

