-- ==== Sys2Proof/Machine/Ops.lean ====
section
/-! DEFINITION. The shared shape of every command's completion (30_encoding.md R96, R99; 60_exceptions.md R231, R233), the reset
(70_reset_and_hazards.md R260), and the draws of the entropy source (43_random_nonce.md R196). -/

namespace Sys2Proof.Machine

/-- Exec(w, S, draws) of R96: the state with every write of the command applied and the value TRUE takes, or the error. -/
abbrev Result := Except ErrCode (State × Bool)

/-- The completion step with a given outcome (R99): the writes take effect together with the flags, or nothing but STATUS changes. -/
def State.finish (s : State) : Result → Answer
  | .ok (s', t) => .next (s'.succeed t)
  | .error e => .next (s.takeError e)

/-- A command that needs the curve: NO_CURVE if CV = 0, before any source check (60_exceptions.md R231, 40_curve.md R118). -/
def State.curveCommand (s : State) (r : Result) : Answer :=
  s.finish (if s.cv then r else .error .noCurve)

/-- The completion of an accepted word that is not a command: its decode error, before any other check, and nothing written but
STATUS (30_encoding.md R89). -/
def State.rejectWord (s : State) (e : ErrCode) : Answer := s.finish (.error e)

/-- A reset, hardware or soft: every piece of the core's state takes its value of 10_state.md R41, and a command in flight is
abandoned (70_reset_and_hazards.md R260, R261; 30_encoding.md R98). What is outside the core stays: the inputs still to come, the
host's read data and the entropy source's position (R262; log entry 13). -/
def State.coreReset (s : State) : State :=
  { State.reset with
    schedule := s.schedule, rdata := s.rdata, entropy := s.entropy, entropyDrawn := s.entropyDrawn, busyReads := s.busyReads }

/-- The j-th byte the entropy source delivers from now on: of the input queue, and beyond it a free value (R15, R196; log entry 4). -/
def State.entropyAt (s : State) (j : Nat) : Byte := s.entropy.getD j (Config.entropyByte (s.entropyDrawn + j))

/-- k bytes have been drawn. -/
def State.drawn (s : State) (k : Nat) : State :=
  { s with entropy := s.entropy.drop k, entropyDrawn := s.entropyDrawn + k }

end Sys2Proof.Machine
end

