-- ==== Sys2Proof/Machine/Curve.lean ====
section
/-! DEFINITION. Curve configuration and control commands: NOP, CSET, CLOAD (40_curve.md). -/

namespace Sys2Proof.Machine

/-- y² − (x³ + A·x + B) mod P = 0: the curve equation (R112, 42_point.md R163). -/
def curveEq (c : CurveVal) (px py : Nat) : Bool :=
  imod (Int.ofNat (py * py) - Int.ofNat (px * px * px + c.a * px + c.b)) c.p == 0

/-- CurveOK(c) (R112). -/
def curveOK (c : CurveVal) : Bool :=
  decide (3 ≤ c.p) && decide (c.p % 2 = 1) &&
    decide (c.a < c.p) && decide (c.b < c.p) && decide (c.gx < c.p) && decide (c.gy < c.p) &&
    decide (2 ≤ c.n) &&
    curveEq c c.gx c.gy

/-- The curve length: ceil(bitlen(N)/8) (10_state.md R27, R116). -/
def curveLen (c : CurveVal) : Nat := ceilDiv (bitlen c.n) 8

/-- The curve ROM, with its default contents (R117). Log entry 7. -/
def rom : CurveId → CurveVal
  | .secp256k1 =>
    { p  := 0xFFFFFFFFFFFFFFFFFFFFFFFFFFFFFFFFFFFFFFFFFFFFFFFFFFFFFFFEFFFFFC2F
      a  := 0x0
      b  := 0x7
      gx := 0x79BE667EF9DCBBAC55A06295CE870B07029BFCDB2DCE28D959F2815B16F81798
      gy := 0x483ADA7726A3C4655DA4FBFC0E1108A8FD17B448A68554199C47D08FFB10D4B8
      n  := 0xFFFFFFFFFFFFFFFFFFFFFFFFFFFFFFFEBAAEDCE6AF48A03BBFD25E8CD0364141 }
  | .secp256r1 =>
    { p  := 0xFFFFFFFF00000001000000000000000000000000FFFFFFFFFFFFFFFFFFFFFFFF
      a  := 0xFFFFFFFF00000001000000000000000000000000FFFFFFFFFFFFFFFFFFFFFFFC
      b  := 0x5AC635D8AA3A93E7B3EBBD55769886BC651D06B0CC53B0F63BCE3C3E27D2604B
      gx := 0x6B17D1F2E12C4247F8BCE6E563A440F277037D812DEB33A0F4A13945D898C296
      gy := 0x4FE342E2FE1A7F9B8EE7EB4A7C0F9E162BCE33576B315ECECBB6406837BF51F5
      n  := 0xFFFFFFFF00000000FFFFFFFFFFFFFFFFBCE6FAADA7179E84F3B9CAC2FC632551 }
  | .secp384r1 =>
    { p  := 0xFFFFFFFFFFFFFFFFFFFFFFFFFFFFFFFFFFFFFFFFFFFFFFFFFFFFFFFFFFFFFFFEFFFFFFFF0000000000000000FFFFFFFF
      a  := 0xFFFFFFFFFFFFFFFFFFFFFFFFFFFFFFFFFFFFFFFFFFFFFFFFFFFFFFFFFFFFFFFEFFFFFFFF0000000000000000FFFFFFFC
      b  := 0xB3312FA7E23EE7E4988E056BE3F82D19181D9C6EFE8141120314088F5013875AC656398D8A2ED19D2A85C8EDD3EC2AEF
      gx := 0xAA87CA22BE8B05378EB1C71EF320AD746E1D3B628BA79B9859F741E082542A385502F25DBF55296C3A545E3872760AB7
      gy := 0x3617DE4A96262C6F5D9E98BF9292DC29F8F41DBD289A147CE9DA3113B5F0B8C00A60B1CE1D7E819D7A431D7C90EA0E5F
      n  := 0xFFFFFFFFFFFFFFFFFFFFFFFFFFFFFFFFFFFFFFFFFFFFFFFFC7634D81F4372DDF581A0DB248B0A77AECEC196ACCC52973 }

/-- CV <- 1 and CLEN <- ceil(bitlen(N)/8) for a validated curve (R111, R113). -/
def State.validate (s : State) (c : CurveVal) : State :=
  { s with cv := true, clen := BitVec.ofNat 8 (curveLen c) }

/-- The six curve registers <- c (R113). -/
def State.loadCurve (s : State) (c : CurveVal) : State := { s with cr := CurveRegs.ofVal c }

/-- NOP (R110): Ok with no writes. -/
def execNop (s : State) : Answer := s.finish (.ok (s, false))

/-- CSET (R111): validate the curve registers. -/
def execCset (s : State) : Answer :=
  s.finish (if curveOK s.curve then .ok (s.validate s.curve, false) else .error .invalidCurve)

/-- CLOAD id (R113): load a preset curve from the ROM and validate it. -/
def execCload (k : CurveId) (s : State) : Answer :=
  s.finish (if curveOK (rom k) then .ok ((s.loadCurve (rom k)).validate (rom k), false) else .error .invalidCurve)

end Sys2Proof.Machine
end

