-- ==== Sys2Proof/Machine/PointUnit.lean ====
section
/-! DEFINITION. The point unit and the scalar multiplier: PADD, PDBL, PMUL, PCHK, PLDG (42_point.md). -/

namespace Sys2Proof.Machine

/-- The slope of the doubling case: (3·x² + A) / (2·y) mod P (R160 case 4). -/
def tangentSlope (c : CurveVal) (px py : Nat) : Except ErrCode Nat := do
  let t ← inv (2 * py % c.p) c.p
  pure ((3 * (px * px) + c.a) % c.p * t % c.p)

/-- The slope of the addition case: (q.y − p.y) / (q.x − p.x) mod P (R160 case 5). -/
def chordSlope (c : CurveVal) (px py qx qy : Nat) : Except ErrCode Nat := do
  let t ← inv (imod (Int.ofNat qx - Int.ofNat px) c.p) c.p
  pure (imod (Int.ofNat qy - Int.ofNat py) c.p * t % c.p)

/-- x3 = (λ² − p.x − q.x) mod P (R160). -/
def thirdX (c : CurveVal) (l px qx : Nat) : Nat :=
  imod (Int.ofNat (l * l) - Int.ofNat px - Int.ofNat qx) c.p

/-- y3 = (λ·(p.x − x3) − p.y) mod P (R160). -/
def thirdY (c : CurveVal) (l px py x3 : Nat) : Nat :=
  imod (Int.ofNat l * (Int.ofNat px - Int.ofNat x3) - Int.ofNat py) c.p

/-- The slope of a sum of finite points: case 4 of R160 for equal points, case 5 otherwise. -/
def sumSlope (c : CurveVal) (px py qx qy : Nat) : Except ErrCode Nat :=
  if px = qx ∧ py = qy then tangentSlope c px py else chordSlope c px py qx qy

/-- pointAdd (R160), its cases in the source's order; case 3 compares raw coordinates as written (R161). -/
def pointAdd (c : CurveVal) : Point → Point → Except ErrCode Point
  | .inf, q => .ok q
  | .aff px py, .inf => .ok (.aff px py)
  | .aff px py, .aff qx qy =>
    if px = qx ∧ (py ≠ qy ∨ py = 0) then .ok .inf
    else do
      let l ← sumSlope c px py qx qy
      pure (.aff (thirdX c l px qx) (thirdY c l px py (thirdX c l px qx)))

/-- The conditional add of R162. -/
def addIf (c : CurveVal) (pt : Point) (bit : Bool) (acc : Point) : Except ErrCode Point :=
  if bit then pointAdd c acc pt else .ok acc

/-- Bits n − 1 down to 0 of kk, most significant first: double, then add pt if the bit is set (R162). -/
def doubleAndAdd (c : CurveVal) (pt : Point) (kk : Nat) : Nat → Point → Except ErrCode Point
  | 0, acc => .ok acc
  | n + 1, acc => do
    let dbl ← pointAdd c acc acc
    let acc' ← addIf c pt (kk.testBit n) dbl
    doubleAndAdd c pt kk n acc'

/-- scalarMultiply(pt, k) (R162): double-and-add over k mod N. -/
def scalarMultiply (c : CurveVal) (pt : Point) (k : Nat) : Except ErrCode Point :=
  doubleAndAdd c pt (k % c.n) (bitlen (k % c.n)) .inf

/-- onCurve(pt) (R163): finite, both coordinates below P, and on the curve. -/
def onCurve (c : CurveVal) : Point → Bool
  | .inf => false
  | .aff px py => decide (px < c.p) && decide (py < c.p) && curveEq c px py

/-- PADD (R165): p[D] <- p[A] + p[B]. -/
def execPadd (d a b : PReg) (s : State) : Answer :=
  s.curveCommand do
    let p ← s.pcanon a
    let q ← s.pcanon b
    let r ← pointAdd s.curve p q
    pure (s.putPoint d r, false)

/-- PDBL (R166): p[D] <- p[A] + p[A]. -/
def execPdbl (d a : PReg) (s : State) : Answer :=
  s.curveCommand do
    let p ← s.pcanon a
    let r ← pointAdd s.curve p p
    pure (s.putPoint d r, false)

/-- PMUL (R167): p[D] <- x[B]·p[A]; the scalar is not range-checked. -/
def execPmul (d a : PReg) (b : XReg) (s : State) : Answer :=
  s.curveCommand do
    let p ← s.pcanon a
    let r ← scalarMultiply s.curve p (s.xVal b)
    pure (s.putPoint d r, false)

/-- PCHK (R168): TRUE <- onCurve(p[A]), read without pcanon. -/
def execPchk (a : PReg) (s : State) : Answer :=
  s.curveCommand (pure (s, onCurve s.curve (s.point a)))

/-- PLDG (R169): p[D] <- G. -/
def execPldg (d : PReg) (s : State) : Answer :=
  s.curveCommand (pure (s.putPoint d (basePoint s.curve), false))

end Sys2Proof.Machine
end

