-- ==== Sys2Proof/Machine/Random.lean ====
section
/-! DEFINITION. The random scalar and the deterministic nonce: RAND, NONCE (43_random_nonce.md). -/

namespace Sys2Proof.Machine

/-- nb bytes of a stream from position `start`, assembled big-endian (R191). -/
def bigEndian (byte : Nat → Byte) (start : Nat) : Nat → Nat
  | 0 => 0
  | k + 1 => bigEndian byte start k * 256 + (byte (start + k)).toNat

/-- The attempts from number t on, of nb bytes each: the first value below `range`, or RETRY_EXHAUSTED; with it, how many draws were
made in all (R191). -/
def sample (byte : Nat → Byte) (range nb : Nat) : Nat → Nat → Except ErrCode Nat × Nat
  | 0, t => (.error .retryExhausted, t)
  | left + 1, t =>
    let v := bigEndian byte (t * nb) nb
    if v < range then (.ok v, t + 1) else sample byte range nb left (t + 1)

/-- The minimal byte width that covers 0 .. range − 1 (R191). -/
def sampleBytes (range : Nat) : Nat := max 1 (ceilDiv (bitlen (range - 1)) 8)

/-- between(low, high) (R190, R191), on the bytes the entropy source delivers; with it, how many bytes were drawn. -/
def between (byte : Nat → Byte) (low high : Nat) : Except ErrCode Nat × Nat :=
  let r := sample byte (high - low) (sampleBytes (high - low)) Config.maxTries 0
  (match r.1 with
    | .ok v => .ok (low + v)
    | .error e => .error e, r.2 * sampleBytes (high - low))

/-- The candidates of the nonce function for secret d and digest e on the loaded curve (R192; log entry 5). -/
def nonceCandidate (c : CurveVal) (d e i : Nat) : Nat := Config.nonceFn d e c Config.hlen i

/-- The first candidate in [1, N − 1] at or after index i, of `left` candidates, with its index (R193). -/
def firstIn (cand : Nat → Nat) (n : Nat) : Nat → Nat → Except ErrCode (Nat × Nat)
  | 0, _ => .error .retryExhausted
  | left + 1, i => if 1 ≤ cand i ∧ cand i ≤ n - 1 then .ok (cand i, i) else firstIn cand n left (i + 1)

/-- firstNonce(d, e, start), for the candidates of (d, e): MAX_TRIES bounds the index (R193). -/
def firstNonce (cand : Nat → Nat) (n start : Nat) : Except ErrCode (Nat × Nat) :=
  firstIn cand n (Config.maxTries - start) start

/-- RAND (R197): x[D] <- between(1, N), on the entropy draws of this command (R196). -/
def execRand (d : XReg) (s : State) : Answer :=
  if s.cv then
    let r := between s.entropyAt 1 s.curve.n
    (s.drawn r.2).finish (match r.1 with
      | .ok v => .ok ((s.drawn r.2).putX d v, false)
      | .error e => .error e)
  else s.curveCommand (.error .noCurve)

/-- NONCE (R198): x[D] <- the first nonce candidate in [1, N − 1] for the digest x[A] and the secret x[B]. -/
def execNonce (d a b : XReg) (s : State) : Answer :=
  s.curveCommand do
    let key ← s.secret b
    let k ← firstNonce (nonceCandidate s.curve key (s.xVal a)) s.curve.n 0
    pure (s.putX d k.1, false)

end Sys2Proof.Machine
end

