-- ==== Sys2Proof/Machine/Ecdsa.lean ====
section
/-! DEFINITION. The ECDSA engine: PUBK, SIGN, SIGNK, VERIFY (44_ecdsa.md). -/

namespace Sys2Proof.Machine

/-- The x-coordinate of R reduced mod N, none for INF: what makes r (R212). -/
def xModN (c : CurveVal) : Point → Option Nat
  | .inf => none
  | .aff px _ => some (px % c.n)

/-- signCore(e, d, k): one signing attempt, none for FAIL (R212). -/
def signCore (c : CurveVal) (e d k : Nat) : Except ErrCode (Option (Nat × Nat)) := do
  let pt ← scalarMultiply c (basePoint c) k
  match xModN c pt with
  | none => pure none
  | some r =>
    if r = 0 then pure none
    else do
      let kinv ← inv k c.n
      let t := kinv * ((e + r * d) % c.n) % c.n
      if t = 0 then pure none else pure (some (r, t))

/-- The loop of SIGN from candidate index i (R213). Each turn uses up at least one index below MAX_TRIES, so MAX_TRIES + 1 turns are
never used up: firstNonce has raised RETRY_EXHAUSTED before. -/
def signLoop (c : CurveVal) (cand : Nat → Nat) (e d : Nat) : Nat → Nat → Except ErrCode (Nat × Nat)
  | 0, _ => .error .retryExhausted
  | turns + 1, i => do
    let k ← firstNonce cand c.n i
    let res ← signCore c e d k.1
    match res with
    | some rs => pure rs
    | none => signLoop c cand e d turns (k.2 + 1)

/-- The signature of SIGN for the candidates of (d, e), from index 0 (R213). -/
def signWith (c : CurveVal) (cand : Nat → Nat) (e d : Nat) : Except ErrCode (Nat × Nat) :=
  signLoop c cand e d (Config.maxTries + 1) 0

/-- verifyCore(e, r, s, Q), for a valid public key Q (R216). -/
def verifyCore (c : CurveVal) (e r t : Nat) (q : Point) : Except ErrCode Bool :=
  if 1 ≤ r ∧ r ≤ c.n - 1 ∧ 1 ≤ t ∧ t ≤ c.n - 1 then do
    let w ← inv t c.n
    let p1 ← scalarMultiply c (basePoint c) (e * w % c.n)
    let p2 ← scalarMultiply c q (r * w % c.n)
    let pt ← pointAdd c p1 p2
    pure (xModN c pt == some r)
  else pure false

/-- PUBK (R210): p[D] <- x[A]·G for a valid private key. -/
def execPubk (d : PReg) (a : XReg) (s : State) : Answer :=
  s.curveCommand do
    let key ← s.secret a
    let r ← scalarMultiply s.curve (basePoint s.curve) key
    pure (s.putPoint d r, false)

/-- SIGN (R213): s[D] <- the deterministic signature of the digest x[A] under the key x[B]. -/
def execSign (d : SReg) (a b : XReg) (s : State) : Answer :=
  s.curveCommand do
    let key ← s.secret b
    let rs ← signWith s.curve (nonceCandidate s.curve key (s.xVal a)) (s.xVal a) key
    pure (s.putPair d rs.1 rs.2, false)

/-- SIGNK (R214): s[D] <- the signature with the nonce x[C]; the key is checked before the nonce, and a failed attempt is
INVALID_NONCE. -/
def execSignk (d : SReg) (a b c : XReg) (s : State) : Answer :=
  s.curveCommand do
    let key ← s.secret b
    let k ← s.scalarIn c .invalidNonce
    let res ← signCore s.curve (s.xVal a) key k
    match res with
    | none => .error .invalidNonce
    | some rs => pure (s.putPair d rs.1 rs.2, false)

/-- VERIFY (R217): TRUE <- the signature s[B] of the digest x[A] is valid under the public key p[C]; Q is read without pcanon, and an
invalid key is the only input error. -/
def execVerify (a : XReg) (b : SReg) (c : PReg) (s : State) : Answer :=
  s.curveCommand do
    if onCurve s.curve (s.point c) then do
      let t ← verifyCore s.curve (s.xVal a) (s.pairLo b) (s.pairHi b) (s.point c)
      pure (s, t)
    else .error .invalidKey

end Sys2Proof.Machine
end

