-- ==== Sys2Proof/Machine/Field.lean ====
section
/-! DEFINITION. The modular arithmetic family: MADD, MSUB, MMUL, MMONT, MINV, MRED, MRR (41_field.md). -/

namespace Sys2Proof.Machine

/-- MADD (R133): x[D] <- (a + b) mod M. -/
def execMadd (d a b : XReg) (m : ModSel) (s : State) : Answer :=
  s.curveCommand do
    let av ← s.canon m a
    let bv ← s.canon m b
    pure (s.putX d ((av + bv) % s.modulus m), false)

/-- MSUB (R134): x[D] <- (a − b) mod M, in [0, M − 1] for a negative difference. -/
def execMsub (d a b : XReg) (m : ModSel) (s : State) : Answer :=
  s.curveCommand do
    let av ← s.canon m a
    let bv ← s.canon m b
    pure (s.putX d (imod (Int.ofNat av - Int.ofNat bv) (s.modulus m)), false)

/-- MMUL (R135): x[D] <- (a·b) mod M, the exact product reduced once. -/
def execMmul (d a b : XReg) (m : ModSel) (s : State) : Answer :=
  s.curveCommand do
    let av ← s.canon m a
    let bv ← s.canon m b
    pure (s.putX d (av * bv % s.modulus m), false)

/-- MMONT (R136): x[D] <- a·b·R⁻¹ mod M; after the source checks, NOT_INVERTIBLE for an even M. -/
def execMmont (d a b : XReg) (m : ModSel) (s : State) : Answer :=
  s.curveCommand do
    let av ← s.canon m a
    let bv ← s.canon m b
    let r ← montgomery av bv (s.modulus m)
    pure (s.putX d r, false)

/-- MINV (R137): x[D] <- inv(a, M). -/
def execMinv (d a : XReg) (m : ModSel) (s : State) : Answer :=
  s.curveCommand do
    let av ← s.canon m a
    let t ← inv av (s.modulus m)
    pure (s.putX d t, false)

/-- MRED (R138): x[D] <- x[A] mod M; the source is not range-checked. -/
def execMred (d a : XReg) (m : ModSel) (s : State) : Answer :=
  s.curveCommand (pure (s.putX d (s.xVal a % s.modulus m), false))

/-- MRR (R139): x[D] <- R² mod M; NOT_INVERTIBLE for an even M. -/
def execMrr (d : XReg) (m : ModSel) (s : State) : Answer :=
  s.curveCommand do
    let r ← radixSquared (s.modulus m)
    pure (s.putX d r, false)

end Sys2Proof.Machine
end

