-- ==== Sys2Proof/Machine/Dispatch.lean ====
section
/-! DEFINITION. The completion of each command: one arm per constructor of Instr (30_encoding.md R96, R99). -/

namespace Sys2Proof.Machine

def exec (i : Instr) (s : State) : Host.Outcome State Fault Refusal :=
  match i with
  | .nop => Sys2Proof.Machine.execNop s
  | .madd d a b m => Sys2Proof.Machine.execMadd d a b m s
  | .msub d a b m => Sys2Proof.Machine.execMsub d a b m s
  | .mmul d a b m => Sys2Proof.Machine.execMmul d a b m s
  | .mmont d a b m => Sys2Proof.Machine.execMmont d a b m s
  | .minv d a m => Sys2Proof.Machine.execMinv d a m s
  | .mred d a m => Sys2Proof.Machine.execMred d a m s
  | .mrr d m => Sys2Proof.Machine.execMrr d m s
  | .padd d a b => Sys2Proof.Machine.execPadd d a b s
  | .pdbl d a => Sys2Proof.Machine.execPdbl d a s
  | .pmul d a b => Sys2Proof.Machine.execPmul d a b s
  | .pchk a => Sys2Proof.Machine.execPchk a s
  | .pldg d => Sys2Proof.Machine.execPldg d s
  | .pubk d a => Sys2Proof.Machine.execPubk d a s
  | .rand d => Sys2Proof.Machine.execRand d s
  | .nonce d a b => Sys2Proof.Machine.execNonce d a b s
  | .sign d a b => Sys2Proof.Machine.execSign d a b s
  | .signk d a b c => Sys2Proof.Machine.execSignk d a b c s
  | .verify a b c => Sys2Proof.Machine.execVerify a b c s
  | .cset => Sys2Proof.Machine.execCset s
  | .cload k => Sys2Proof.Machine.execCload k s

end Sys2Proof.Machine
end

