-- ==== Sys2Proof/Machine/Window.lean ====
section
/-! DEFINITION. The register window: its map, and what a host read and a host write do (20_memory.md, 70_reset_and_hazards.md R270 to
R274). -/

namespace Sys2Proof.Machine

/-- The curve registers by name, in the order of their slots (R57). -/
inductive CurveReg where
  | a | b | p | n | gx | gy
  deriving DecidableEq, Repr

/-- What an offset of the window holds (R54). -/
inductive Location where
  | id
  | ctrl
  | status
  | cmd
  | pinf
  | clen
  /-- word j of x[i] (R55) -/
  | xWord (i : XReg) (j : Fin 12)
  /-- word j of a curve register (R57) -/
  | crWord (c : CurveReg) (j : Fin 12)
  /-- words 12..15 of a 64-byte slot in 0x100–0x67F (R59) -/
  | slotReserved
  /-- 0x018–0x0FC and 0x680–0xFFC (R59) -/
  | reserved
  deriving DecidableEq, Repr

/-- Curve register c of R57: 0 cr.A, 1 cr.B, 2 cr.P, 3 cr.N, 4 cr.GX, 5 cr.GY. -/
def CurveReg.ofSlot (c : Nat) : CurveReg :=
  if c = 0 then .a else if c = 1 then .b else if c = 2 then .p else if c = 3 then .n else if c = 4 then .gx else .gy

/-- The slot number of a curve register (R57). -/
def CurveReg.slot : CurveReg → Nat
  | .a => 0
  | .b => 1
  | .p => 2
  | .n => 3
  | .gx => 4
  | .gy => 5

/-- The map of R54, for an offset of the window that is a multiple of 4. -/
def locate (off : Nat) : Location :=
  if off = 0x000 then .id
  else if off = 0x004 then .ctrl
  else if off = 0x008 then .status
  else if off = 0x00C then .cmd
  else if off = 0x010 then .pinf
  else if off = 0x014 then .clen
  else if 0x100 ≤ off ∧ off < 0x500 then
    if h : off % 0x40 / 4 < 12 then .xWord (Fin.ofNat 16 ((off - 0x100) / 0x40)) ⟨off % 0x40 / 4, h⟩ else .slotReserved
  else if 0x500 ≤ off ∧ off < 0x680 then
    if h : off % 0x40 / 4 < 12 then .crWord (CurveReg.ofSlot ((off - 0x500) / 0x40)) ⟨off % 0x40 / 4, h⟩ else .slotReserved
  else .reserved

/-- The offset of word j of x[i] (R55). -/
def xOffset (i : XReg) (j : Fin 12) : Nat := 0x100 + 0x40 * i.val + 4 * j.val

/-- The offset of word j of a curve register (R57). -/
def crOffset (c : CurveReg) (j : Fin 12) : Nat := 0x500 + 0x40 * c.slot + 4 * j.val

/-- Bits 32j+31 : 32j of a register: word 0 is the least significant (R55). -/
def getWord (r : Reg) (j : Fin 12) : Word := r.extractLsb' (32 * j.val) 32

/-- A register with bits 32j+31 : 32j replaced by v and every other bit kept (R55). -/
def setWord (r : Reg) (j : Fin 12) (v : Word) : Reg :=
  (r &&& ~~~ ((BitVec.allOnes 32).setWidth 384 <<< (32 * j.val))) ||| (v.setWidth 384 <<< (32 * j.val))

/-- A curve register by name (R25). -/
def CurveRegs.get (c : CurveRegs) : CurveReg → Reg
  | .a => c.a
  | .b => c.b
  | .p => c.p
  | .n => c.n
  | .gx => c.gx
  | .gy => c.gy

/-- A curve register replaced (R25). -/
def CurveRegs.set (c : CurveRegs) (v : Reg) : CurveReg → CurveRegs
  | .a => { c with a := v }
  | .b => { c with b := v }
  | .p => { c with p := v }
  | .n => { c with n := v }
  | .gx => { c with gx := v }
  | .gy => { c with gy := v }

/-- The word a location holds; what a read returns wherever the spec defines it (10_state.md R31 to R36, R55, R57, R59). -/
def State.wordAt (s : State) : Location → Word
  | .id => idValue
  | .ctrl => s.ctrlWord
  | .status => s.statusWord
  | .cmd => s.lastcmd
  | .pinf => s.pinfWord
  | .clen => s.clenWord
  | .xWord i j => getWord (s.getX i) j
  | .crWord c j => getWord (s.cr.get c) j
  | .slotReserved => 0#32
  | .reserved => 0#32

/-- The word at an offset of the window. -/
def State.windowWord (s : State) (off : Nat) : Word := s.wordAt (locate off)

/-- The locations whose read is unspecified while BUSY = 1: words 0..11 of an operand or curve register, PINF, CLEN
(70_reset_and_hazards.md R272). -/
def Location.busyUnspecified : Location → Bool
  | .pinf => true
  | .clen => true
  | .xWord _ _ => true
  | .crWord _ _ => true
  | .id => false
  | .ctrl => false
  | .status => false
  | .cmd => false
  | .slotReserved => false
  | .reserved => false

/-- The locations whose write is ignored and sets BUSYWR while BUSY = 1: CMD, PINF and 0x100–0x67F, used or reserved words
(R271, R59). -/
def Location.busyLocked : Location → Bool
  | .cmd => true
  | .pinf => true
  | .xWord _ _ => true
  | .crWord _ _ => true
  | .slotReserved => true
  | .id => false
  | .ctrl => false
  | .status => false
  | .clen => false
  | .reserved => false

/-- A host read of a location: no side effect on the core (R60). While BUSY = 1 a data word, PINF or CLEN reads as a fresh free value
(R272; log entry 3). -/
def State.hostRead (s : State) (l : Location) : State :=
  if s.busy && l.busyUnspecified then { s with rdata := Config.busyRead s.busyReads, busyReads := s.busyReads + 1 }
  else { s with rdata := s.wordAt l }

/-- A write to CTRL: with bit 1 set a soft reset, whatever the other bits; else IE <- bit 0 (R32, 70_reset_and_hazards.md R261). -/
def State.writeCtrl (s : State) (v : Word) : State :=
  if v.getLsbD 1 then s.coreReset else { s with ie := v.getLsbD 0 }

/-- A write to PINF stores bits 7:0 (R35). -/
def State.writePinf (s : State) (v : Word) : State := { s with pinf := v.extractLsb' 0 8 }

/-- A write to word j of x[i] replaces those 32 bits (R55). -/
def State.writeX (s : State) (i : XReg) (j : Fin 12) (v : Word) : State := s.setX i (setWord (s.getX i) j v)

/-- A write to word j of a curve register replaces those 32 bits and clears CV and CLEN, even when the value is the old one (R57). -/
def State.writeCurve (s : State) (c : CurveReg) (j : Fin 12) (v : Word) : State :=
  { s with cr := s.cr.set (setWord (s.cr.get c) j v) c, cv := false, clen := 0#8 }

/-- A host write of a location (R61): while BUSY = 1 a write to CMD, PINF or 0x100–0x67F is lost (R271). -/
def State.hostWrite (s : State) (l : Location) (v : Word) : State :=
  if s.busy && l.busyLocked then s.lostWrite
  else
    match l with
    | .id => s
    | .ctrl => s.writeCtrl v
    | .status => s.writeStatus v
    | .cmd => s.accept v
    | .pinf => s.writePinf v
    | .clen => s
    | .xWord i j => s.writeX i j v
    | .crWord c j => s.writeCurve c j v
    | .slotReserved => s
    | .reserved => s

/-- Why the model refuses an access, none for one 32-bit word at a multiple of 4 in the window (R51, R274; log entry 8). -/
def accessRefusal (off width : Nat) : Option Refusal :=
  if width ≠ 4 then some .accessWidth
  else if off % 4 ≠ 0 then some .accessUnaligned
  else if 0x1000 ≤ off then some .accessOutsideWindow
  else none

/-- MemRead(off, width) (00_scope.md R18). -/
def State.memRead (s : State) (off width : Nat) : Answer :=
  match accessRefusal off width with
  | some r => .refused r
  | none => .next (s.hostRead (locate off))

/-- MemWrite(off, width, v) (00_scope.md R18). -/
def State.memWrite (s : State) (off width : Nat) (v : Word) : Answer :=
  match accessRefusal off width with
  | some r => .refused r
  | none => .next (s.hostWrite (locate off) v)

end Sys2Proof.Machine
end

