-- ==== Sys2Proof/Machine/Turn.lean ====
section
/-! DEFINITION. What each agent's turn does: the core's completion step, a host access, the reset input (10_state.md R20,
60_exceptions.md R236). Step.lean only chooses whose turn it is. -/

namespace Sys2Proof.Machine

/-- The core's completion step (30_encoding.md R99): the outcome of the accepted word LASTCMD. -/
def State.complete (s : State) : Answer :=
  match decode s.lastcmd with
  | .command i => exec i s
  | .illegalOpcode => s.rejectWord .illegalOpcode
  | .illegalOperand => s.rejectWord .illegalOperand

/-- The core's turn: it completes the command in flight, and does nothing while idle (R99, R29; log entry 2). -/
def State.coreTurn (s : State) : Answer := if s.busy then s.complete else .next s

/-- One event. -/
def State.take (s : State) : Event → Answer
  | .read off width => s.memRead off width
  | .write off width v => s.memWrite off width v
  | .reset => .next s.coreReset
  | .complete => s.coreTurn
  | .nonCoherentAccess => .refused .nonCoherentPlatform

end Sys2Proof.Machine
end

