-- ==== Sys2Proof/Machine/Step.lean ====
section
/-! DEFINITION. One step of the machine: the next event of the schedule, which is a host access, the reset input, or the core's
completion step (10_state.md R20, 20_memory.md R66, 60_exceptions.md R236). -/

namespace Sys2Proof.Machine

/-- One step. With no event left the only step there can be is the core's: a command in flight completes (R232, R279), and an idle
machine stays as it is (log entry 2). -/
def step (s : State) : Host.Outcome State Fault Refusal :=
  match s.schedule with
  | [] => s.coreTurn
  | e :: rest => State.take { s with schedule := rest } e

/-- s with the word w accepted as a command and the core's completion step due next, so that the very next step runs it. This stands
for the host's CMD write (R95); log entry 14. -/
def State.withFetchWord (s : State) (nbits w : Nat) : State :=
  { s.accept (BitVec.ofNat 32 (w % Nat.pow 2 nbits)) with schedule := .complete :: s.schedule }

end Sys2Proof.Machine
end

