-- ==== Sys2Proof/Safety.lean ====
section
/-! DEFINITION. What a run of the core is judged by: the invariant of its states, the launch states, the accesses the model covers, and
what is observed at the end of a run. -/

namespace Sys2Proof.Machine

/-- CV = 1 only with curve registers that pass CurveOK and CLEN their curve length, and CLEN = 0 while CV = 0 (10_state.md R26, R27;
40_curve.md R115, R116). -/
abbrev State.CurveInv (s : State) : Prop :=
  (s.cv = true → curveOK s.curve = true ∧ s.clen = BitVec.ofNat 8 (curveLen s.curve)) ∧ (s.cv = false → s.clen = 0#8)

/-- While a command is in flight DONE, ERR, ERRCODE and TRUE are what its acceptance left: 0 (30_encoding.md R95, R99; 10_state.md
R33). -/
abbrev State.BusyInv (s : State) : Prop :=
  s.busy = true → s.done = false ∧ s.err = false ∧ s.errcode = 0#8 ∧ s.truth = false

/-- ERR says whether ERRCODE is one of the nine codes or 0, and a failed command has TRUE = 0 (60_exceptions.md R230, R233). -/
abbrev State.ErrInv (s : State) : Prop :=
  (s.err = true ↔ s.errcode ≠ 0#8) ∧ s.errcode.toNat ≤ 9 ∧ (s.err = true → s.truth = false)

/-- The step of s on one event, with what s has scheduled still to come. -/
abbrev stepOn (e : Event) (s : State) : Answer := step { s with schedule := e :: s.schedule }

/-- A point value whose finite coordinates are canonical (42_point.md R160, R164). -/
def Point.canonical (c : CurveVal) : Point → Prop
  | .inf => True
  | .aff px py => px < c.p ∧ py < c.p

/-- A scalar in [1, N − 1]: a valid private key or nonce (44_ecdsa.md R215). -/
abbrev inScalarRange (c : CurveVal) (k : Nat) : Prop := 1 ≤ k ∧ k ≤ c.n - 1

/-- k·pt by adding pt again and again: what "G of order N" (44_ecdsa.md R218) is said with. -/
def multiple (c : CurveVal) (pt : Point) : Nat → Except ErrCode Point
  | 0 => .ok .inf
  | k + 1 => do
    let r ← multiple c pt k
    pointAdd c r pt

/-- The curve has no singular point: 4·A³ + 27·B² is not 0 modulo P (40_curve.md R114). -/
abbrev nonsingular (c : CurveVal) : Prop := (4 * (c.a * c.a * c.a) + 27 * (c.b * c.b)) % c.p ≠ 0

/-- What R218 asks of a curve beyond CurveOK, and validation does not check (40_curve.md R114): P prime, N prime and the order of G. -/
structure PrimeCurve (c : CurveVal) : Prop where
  ok : curveOK c = true
  primeP : c.p.Prime
  primeN : c.n.Prime
  order : multiple c (basePoint c) c.n = .ok .inf

/-- The invariant of the core's states. -/
abbrev State.Inv (s : State) : Prop := s.CurveInv ∧ s.BusyInv ∧ s.ErrInv

/-- A launch state (70_reset_and_hazards.md R264): nothing in flight, and a validated curve where CV = 1. -/
abbrev State.Launch (s : State) : Prop := s.busy = false ∧ s.CurveInv

/-- An event no platform and no host is refused for: an aligned 32-bit access of the window, the reset input, the core's turn
(R274). -/
def Event.admitted : Event → Bool
  | .read off width => (accessRefusal off width).isNone
  | .write off width _ => (accessRefusal off width).isNone
  | .reset => true
  | .complete => true
  | .nonCoherentAccess => false

/-- An access of the host that leaves a command in flight alone: any admitted access but a soft reset (R261, R271, R272). -/
def Event.spectator : Event → Bool
  | .read off width => (accessRefusal off width).isNone
  | .write off width v => (accessRefusal off width).isNone && !(off == 0x004 && v.getLsbD 1)
  | .reset => false
  | .complete => false
  | .nonCoherentAccess => false

/-- The observation at the end of a run (R279): operand registers, PINF, curve registers, CV, CLEN, CTRL, STATUS and LASTCMD. -/
structure Observation where
  x : Vector Reg 16
  pinf : Byte
  cr : CurveRegs
  cv : Bool
  clen : Byte
  ctrl : Word
  status : Word
  lastcmd : Word
  deriving DecidableEq, Repr

/-- What is observed of a state (R279). -/
def State.observe (s : State) : Observation where
  x := s.x
  pinf := s.pinf
  cr := s.cr
  cv := s.cv
  clen := s.clen
  ctrl := s.ctrlWord
  status := s.statusWord
  lastcmd := s.lastcmd

/-- The core's turn completes a command: one is in flight, and the core moves next, by the schedule or because nothing is left in it
(R99; log entries 1, 2). -/
abbrev State.Completing (s : State) : Prop := s.busy = true ∧ (s.schedule = [] ∨ ∃ rest, s.schedule = .complete :: rest)

/-- The run is over: no event is left and no command is in flight (R279). -/
abbrev State.Over (s : State) : Prop := s.schedule = [] ∧ s.busy = false

end Sys2Proof.Machine

namespace Sys2Proof

open Machine

/-- The `raised by` column of 60_exceptions.md R230: the errors a command may end in, decode errors apart. -/
def Instr.raises : Instr → List ErrCode
  | .nop => []
  | .madd _ _ _ _ => [.noCurve, .range]
  | .msub _ _ _ _ => [.noCurve, .range]
  | .mmul _ _ _ _ => [.noCurve, .range]
  | .mmont _ _ _ _ => [.noCurve, .range, .notInvertible]
  | .minv _ _ _ => [.noCurve, .range, .notInvertible]
  | .mred _ _ _ => [.noCurve]
  | .mrr _ _ => [.noCurve, .notInvertible]
  | .padd _ _ _ => [.noCurve, .range, .notInvertible]
  | .pdbl _ _ => [.noCurve, .range, .notInvertible]
  | .pmul _ _ _ => [.noCurve, .range, .notInvertible]
  | .pchk _ => [.noCurve]
  | .pldg _ => [.noCurve]
  | .pubk _ _ => [.noCurve, .invalidKey, .notInvertible]
  | .rand _ => [.noCurve, .retryExhausted]
  | .nonce _ _ _ => [.noCurve, .invalidKey, .retryExhausted]
  | .sign _ _ _ => [.noCurve, .invalidKey, .notInvertible, .retryExhausted]
  | .signk _ _ _ _ => [.noCurve, .invalidKey, .invalidNonce, .notInvertible]
  | .verify _ _ _ => [.noCurve, .invalidKey, .notInvertible]
  | .cset => [.invalidCurve]
  | .cload _ => [.invalidCurve]

/-- The operand registers a command may write (10_state.md R37; the destination of each command's rule). -/
def Instr.writesX : Instr → List XReg
  | .nop => []
  | .madd d _ _ _ => [d]
  | .msub d _ _ _ => [d]
  | .mmul d _ _ _ => [d]
  | .mmont d _ _ _ => [d]
  | .minv d _ _ => [d]
  | .mred d _ _ => [d]
  | .mrr d _ => [d]
  | .padd d _ _ => [loReg d, hiReg d]
  | .pdbl d _ => [loReg d, hiReg d]
  | .pmul d _ _ => [loReg d, hiReg d]
  | .pchk _ => []
  | .pldg d => [loReg d, hiReg d]
  | .pubk d _ => [loReg d, hiReg d]
  | .rand d => [d]
  | .nonce d _ _ => [d]
  | .sign d _ _ => [loReg d, hiReg d]
  | .signk d _ _ _ => [loReg d, hiReg d]
  | .verify _ _ _ => []
  | .cset => []
  | .cload _ => []

/-- The infinity flags a command may write: only PADD, PDBL, PMUL, PLDG and PUBK write one (R276). -/
def Instr.writesPinf : Instr → List PReg
  | .nop => []
  | .madd _ _ _ _ => []
  | .msub _ _ _ _ => []
  | .mmul _ _ _ _ => []
  | .mmont _ _ _ _ => []
  | .minv _ _ _ => []
  | .mred _ _ _ => []
  | .mrr _ _ => []
  | .padd d _ _ => [d]
  | .pdbl d _ => [d]
  | .pmul d _ _ => [d]
  | .pchk _ => []
  | .pldg d => [d]
  | .pubk d _ => [d]
  | .rand _ => []
  | .nonce _ _ _ => []
  | .sign _ _ _ => []
  | .signk _ _ _ _ => []
  | .verify _ _ _ => []
  | .cset => []
  | .cload _ => []

/-- The commands that validate a curve and so write CV and CLEN: CSET and CLOAD (10_state.md R26, R37). -/
def Instr.validates (i : Instr) : Bool := i.opcode == .cset || i.opcode == .cload

/-- The command that writes the curve registers: CLOAD (R25, R37). -/
def Instr.loadsCurve (i : Instr) : Bool := i.opcode == .cload

/-- The commands whose result is TRUE: PCHK and VERIFY (R30). -/
def Instr.tests (i : Instr) : Bool := i.opcode == .pchk || i.opcode == .verify

/-- The one command that draws entropy: RAND (43_random_nonce.md R195). -/
def Instr.drawsEntropy (i : Instr) : Bool := i.opcode == .rand

end Sys2Proof
end

