-- ==== Sys2Proof/Certificates/Slice0/Obligations.lean ====
section
/-! DEFINITION. The statements for the provers. Rules are those of spec/; "log entry n" is notes/assumptions/n.md. -/

set_option exponentiation.threshold 400

section

open Sys2Proof Sys2Proof.Machine

/-! ## Encoding (30_encoding.md) -/

/-- R81, R82, R85, R86: every command is well-formed and its word decodes to it, operands at every value. -/
def Obligations.DecodeEncodeRoundTrip : Prop :=
  ∀ i : Instr, i.wellFormed = true ∧ decode (encode i) = .command i

/-- R81 to R90: a word that decodes to a command is that command's word: no bit of it is dropped. -/
def Obligations.EncodeDecodeRoundTrip : Prop :=
  ∀ (w : Word) (i : Instr), decode w = .command i → encode i = w

/-- R88's table: mnemonic, match, mask. -/
def Sys2Proof.tableR88 : List (Opcode × Word × Word) :=
  [(.nop, 0x00000000#32, 0xFFFFFFFF#32), (.madd, 0x00000001#32, 0xFEF000FF#32), (.msub, 0x00000002#32, 0xFEF000FF#32),
   (.mmul, 0x00000003#32, 0xFEF000FF#32), (.mmont, 0x00000004#32, 0xFEF000FF#32), (.minv, 0x00000005#32, 0xFEFF00FF#32),
   (.mred, 0x00000006#32, 0xFEFF00FF#32), (.mrr, 0x00000007#32, 0xFEFFF0FF#32)] ++
  [(.padd, 0x00000010#32, 0xFFF888FF#32), (.pdbl, 0x00000011#32, 0xFFFF88FF#32), (.pmul, 0x00000012#32, 0xFFF088FF#32),
   (.pchk, 0x00000013#32, 0xFFFF8FFF#32), (.pldg, 0x00000014#32, 0xFFFFF8FF#32), (.pubk, 0x00000015#32, 0xFFFF08FF#32)] ++
  [(.rand, 0x00000020#32, 0xFFFFF0FF#32), (.nonce, 0x00000021#32, 0xFFF000FF#32), (.sign, 0x00000028#32, 0xFFF008FF#32),
   (.signk, 0x00000029#32, 0xFF0008FF#32), (.verify, 0x0000002A#32, 0xFF880FFF#32), (.cset, 0x00000030#32, 0xFFFFFFFF#32),
   (.cload, 0x00000031#32, 0xFFFFF0FF#32)]

/-- R88: the match and mask of every opcode, the bits the mask is 1 in, and that a word with an assigned opcode is a command of that
opcode iff (w AND mask) = match and, for CLOAD, w.D ≤ 2. -/
def Obligations.MaskMatchDecides : Prop :=
  ∀ o : Opcode, ∃ value mask : Word,
    (o, value, mask) ∈ tableR88 ∧ (∀ v m, (o, v, m) ∈ tableR88 → v = value ∧ m = mask) ∧
    value = o.code.setWidth 32 ∧
    mask =
      Fields.toWord
        { op := 0xFF#8, d := o.form.d.fixedBits, a := o.form.a.fixedBits, b := o.form.b.fixedBits, c := o.form.c.fixedBits
          m := if o.form.mFree then 0#1 else 1#1, rsv := 0x7F#7 } ∧
    ∀ w : Word, w.extractLsb' 0 8 = o.code →
      ((∃ i, decode w = .command i ∧ i.opcode = o) ↔
        (w &&& mask = value ∧ (o = .cload → (w.extractLsb' 8 4).toNat ≤ 2)))

/-- R90: every word is a well-formed command of one opcode, an illegal opcode, or an illegal operand, and the well-formed sets of
distinct opcodes are disjoint. -/
def Obligations.DecoderTotalAndDisjoint : Prop :=
  (∀ w : Word,
    (∃ i, decode w = .command i ∧ i.opcode.matches w = true) ∨
    (decode w = .illegalOpcode ∧ ∀ o : Opcode, o.matches w = false) ∨
    (decode w = .illegalOperand ∧ ∀ o : Opcode, o.matches w = false)) ∧
  ∀ (w : Word) (o o' : Opcode), o.matches w = true → o'.matches w = true → o = o'

/-- R87's list of the reserved OP values. -/
def Sys2Proof.reservedOp (v : Nat) : Prop :=
  (0x08 ≤ v ∧ v ≤ 0x0F) ∨ (0x16 ≤ v ∧ v ≤ 0x1F) ∨ (0x22 ≤ v ∧ v ≤ 0x27) ∨ (0x2B ≤ v ∧ v ≤ 0x2F) ∨ (0x32 ≤ v ∧ v ≤ 0xFF)

/-- R89 with R87: an accepted word with a reserved OP fails with ILLEGAL_OPCODE, one with an assigned OP that is not well-formed with
ILLEGAL_OPERAND, whatever else holds of the state, and nothing but STATUS is written. -/
def Obligations.IllegalWordsFail : Prop :=
  ∀ (s : State) (w : Word), s.busy = true → s.lastcmd = w →
    (reservedOp (w.extractLsb' 0 8).toNat →
      stepOn .complete s = .next { s with busy := false, done := true, err := true, errcode := 1#8, truth := false }) ∧
    (¬ reservedOp (w.extractLsb' 0 8).toNat → (∀ o : Opcode, o.matches w = false) →
      stepOn .complete s = .next { s with busy := false, done := true, err := true, errcode := 2#8, truth := false })

/-- R81 to R88, 95_test_vectors.md: command words written out by hand, one for each family at least. -/
def Obligations.SpecWordsDecode : Prop :=
  decode 0x00000000#32 = .command .nop ∧
  decode 0x01020303#32 = .command (.mmul 3 0 2 .n) ∧
  decode 0x01043504#32 = .command (.mmont 5 3 4 .n) ∧
  decode 0x01000407#32 = .command (.mrr 4 .n) ∧
  decode 0x00001110#32 = .command (.padd 1 1 0) ∧
  decode 0x00001315#32 = .command (.pubk 3 1) ∧
  decode 0x00000120#32 = .command (.rand 1) ∧
  decode 0x00010228#32 = .command (.sign 2 0 1) ∧
  decode 0x0032002A#32 = .command (.verify 0 2 3) ∧
  decode 0x00000131#32 = .command (.cload .secp256r1) ∧
  decode 0x00000331#32 = .illegalOperand ∧
  decode 0x00000008#32 = .illegalOpcode

/-! ## The life of a command (30_encoding.md, 60_exceptions.md) -/

/-- R95: an idle core accepts every word; a busy one does not. -/
def Obligations.CmdWriteIsAccepted : Prop :=
  ∀ (s : State) (w : Word),
    (s.busy = false → stepOn (.write 0x00C 4 w) s =
      .next { s with lastcmd := w, busy := true, done := false, err := false, errcode := 0#8, truth := false }) ∧
    (s.busy = true → stepOn (.write 0x00C 4 w) s = .next { s with busywr := true })

/-- R96, R99: the core's turn runs exec of the command that LASTCMD decodes to, also when nothing else is scheduled (log entry 2); and
withFetchWord (log entry 14) is an accepted word with that turn due. -/
def Obligations.StepRunsDecodedCommand : Prop :=
  ∀ (s : State) (i : Instr),
    (s.busy = true → decode s.lastcmd = .command i →
      stepOn .complete s = exec i s ∧ (s.schedule = [] → step s = exec i s)) ∧
    (∀ w : Word, decode w = .command i →
      step (s.withFetchWord 32 w.toNat) =
        exec i { s with lastcmd := w, busy := true, done := false, err := false, errcode := 0#8, truth := false })

/-- R99, R232, R279: a command in flight always completes, once; where nothing else is scheduled the run is then over. That an idle
core's turn does nothing is the model's choice (log entry 2). -/
def Obligations.EveryCommandCompletes : Prop :=
  ∀ s : State, s.busy = true →
    ∃ t, stepOn .complete s = .next t ∧ t.busy = false ∧ t.done = true ∧
      ((t.err = false ∧ t.errcode = 0#8) ∨ (t.err = true ∧ t.errcode ≠ 0#8 ∧ t.truth = false)) ∧
      stepOn .complete t = .next t ∧
      (s.schedule = [] → step s = .next t ∧ t.Over ∧ step t = .next t)

/-- R233: errors are precise. A failing command changes nothing but STATUS (and, for RAND, which bytes of the entropy source are used
up, which is not state of the core: R262, log entry 4). -/
def Obligations.ErrorsArePrecise : Prop :=
  ∀ s t : State, s.complete = .next t → t.err = true →
    t = { s with busy := false, done := true, err := true, errcode := t.errcode, truth := false
                 entropy := t.entropy, entropyDrawn := t.entropyDrawn } ∧
    ((∀ d, decode s.lastcmd ≠ .command (.rand d)) → t.entropy = s.entropy ∧ t.entropyDrawn = s.entropyDrawn)

/-- R230: the numbers of the codes, which command may end in which, and that no other code is ever produced. -/
def Obligations.ErrorCodesByCommand : Prop :=
  (ErrCode.code .illegalOpcode = 1#8 ∧ ErrCode.code .illegalOperand = 2#8 ∧ ErrCode.code .noCurve = 3#8 ∧
    ErrCode.code .range = 4#8 ∧ ErrCode.code .notInvertible = 5#8 ∧ ErrCode.code .invalidKey = 6#8 ∧
    ErrCode.code .invalidCurve = 7#8 ∧ ErrCode.code .retryExhausted = 8#8 ∧ ErrCode.code .invalidNonce = 9#8) ∧
  ∀ s t : State, s.complete = .next t →
    (decode s.lastcmd = .illegalOpcode → t.err = true ∧ t.errcode = 1#8) ∧
    (decode s.lastcmd = .illegalOperand → t.err = true ∧ t.errcode = 2#8) ∧
    (∀ i, decode s.lastcmd = .command i →
      (t.err = false ∧ t.errcode = 0#8) ∨ (t.err = true ∧ ∃ e ∈ i.raises, t.errcode = e.code))

/-- R118, R231: with CV = 0 every command but NOP, CSET and CLOAD fails with NO_CURVE, whatever its operands hold; those three never
do. -/
def Obligations.NoCurveComesFirst : Prop :=
  ∀ (i : Instr) (s : State),
    (i.needsCurve = true ↔ (i ≠ .nop ∧ i ≠ .cset ∧ ∀ k, i ≠ .cload k)) ∧
    (i.needsCurve = true → s.cv = false →
      exec i s = .next { s with busy := false, done := true, err := true, errcode := 3#8, truth := false }) ∧
    (∀ t, i.needsCurve = false → exec i s = .next t → t.errcode ≠ 3#8)

/-- R97, R99, R271, R272: between acceptance and completion the host may make any accesses but a soft reset, and the command's outcome
is what it was at acceptance. -/
def Obligations.OutcomeIsThatOfAcceptance : Prop :=
  ∀ (s : State) (accesses : List Event), s.busy = true → (∀ e ∈ accesses, e.spectator = true) →
    ∃ t u : State,
      Host.Core.run Sys2Proof.core (accesses.length + 1) { s with schedule := accesses ++ .complete :: s.schedule } = .next t ∧
      stepOn .complete s = .next u ∧
      t = { u with ie := t.ie, busywr := t.busywr, rdata := t.rdata, busyReads := t.busyReads }

/-! ## The register window (10_state.md, 20_memory.md, 70_reset_and_hazards.md) -/

/-- R271: writes while busy; and BUSYWR stays 1 until the host clears it, or a reset. -/
def Obligations.BusyWritesAreLost : Prop :=
  (∀ (s : State) (off : Nat) (v : Word), s.busy = true → off % 4 = 0 → off < 0x1000 →
    (off = 0x00C ∨ off = 0x010 ∨ (0x100 ≤ off ∧ off < 0x680) → stepOn (.write off 4 v) s = .next { s with busywr := true }) ∧
    (off = 0x000 ∨ off = 0x014 ∨ (0x018 ≤ off ∧ off < 0x100) ∨ 0x680 ≤ off → stepOn (.write off 4 v) s = .next s) ∧
    (off = 0x004 → v.getLsbD 1 = false → stepOn (.write off 4 v) s = .next { s with ie := v.getLsbD 0 }) ∧
    (off = 0x004 → v.getLsbD 1 = true → stepOn (.write off 4 v) s = stepOn .reset s) ∧
    (off = 0x008 → stepOn (.write off 4 v) s =
      .next { s with done := s.done && !v.getLsbD 1, busywr := s.busywr && !v.getLsbD 5 })) ∧
  ∀ s t : State, step s = .next t → s.busywr = true →
    t.busywr = true ∨ (∃ v rest, s.schedule = .write 0x008 4 v :: rest ∧ v.getLsbD 5 = true) ∨
      (∃ v rest, s.schedule = .write 0x004 4 v :: rest ∧ v.getLsbD 1 = true) ∨ (∃ rest, s.schedule = .reset :: rest)

/-- R60, R272: a read changes nothing of the core, and returns the word at the offset wherever the spec defines it. That an unspecified
read, of a data word, PINF or CLEN while busy, returns the next value of a free sequence and moves a counter on is the model's choice
(log entry 3), as is the field that holds what was read (log entry 9). -/
def Obligations.ReadsHaveNoSideEffects : Prop :=
  ∀ (s : State) (off : Nat), off % 4 = 0 → off < 0x1000 →
    ((s.busy = true ∧ (off = 0x010 ∨ off = 0x014 ∨ (0x100 ≤ off ∧ off < 0x680 ∧ off % 0x40 < 0x30))) →
      stepOn (.read off 4) s = .next { s with rdata := Config.busyRead s.busyReads, busyReads := s.busyReads + 1 }) ∧
    (¬ (s.busy = true ∧ (off = 0x010 ∨ off = 0x014 ∨ (0x100 ≤ off ∧ off < 0x680 ∧ off % 0x40 < 0x30))) →
      stepOn (.read off 4) s = .next { s with rdata := s.windowWord off })

/-- R55: the operand registers in the window while idle, word 0 least significant, words 12..15 reserved. -/
def Obligations.OperandRegisterWindow : Prop :=
  ∀ (s : State) (i : XReg) (j : Nat) (v : Word), s.busy = false → j < 16 →
    (j < 12 →
      (∃ r : Word, stepOn (.read (0x100 + 0x40 * i.val + 4 * j) 4) s = .next { s with rdata := r } ∧
        ∀ k < 32, r.getLsbD k = (s.getX i).getLsbD (32 * j + k)) ∧
      ∃ y : Reg, stepOn (.write (0x100 + 0x40 * i.val + 4 * j) 4 v) s = .next { s with x := s.x.set i.val y } ∧
        ∀ k < 384, y.getLsbD k = if 32 * j ≤ k ∧ k < 32 * j + 32 then v.getLsbD (k - 32 * j) else (s.getX i).getLsbD k) ∧
    (12 ≤ j →
      stepOn (.read (0x100 + 0x40 * i.val + 4 * j) 4) s = .next { s with rdata := 0#32 } ∧
      stepOn (.write (0x100 + 0x40 * i.val + 4 * j) 4 v) s = .next s)

/-- R57: the curve registers in the window while idle; a write of words 0..11 also clears CV and CLEN. -/
def Obligations.CurveRegisterWindow : Prop :=
  ∀ (s : State) (c : CurveReg) (j : Nat) (v : Word), s.busy = false → j < 16 →
    (j < 12 →
      (∃ r : Word, stepOn (.read (0x500 + 0x40 * c.slot + 4 * j) 4) s = .next { s with rdata := r } ∧
        ∀ k < 32, r.getLsbD k = (s.cr.get c).getLsbD (32 * j + k)) ∧
      ∃ y : Reg,
        stepOn (.write (0x500 + 0x40 * c.slot + 4 * j) 4 v) s = .next { s with cr := s.cr.set y c, cv := false, clen := 0#8 } ∧
        ∀ k < 384, y.getLsbD k = if 32 * j ≤ k ∧ k < 32 * j + 32 then v.getLsbD (k - 32 * j) else (s.cr.get c).getLsbD k) ∧
    (12 ≤ j →
      stepOn (.read (0x500 + 0x40 * c.slot + 4 * j) 4) s = .next { s with rdata := 0#32 } ∧
      stepOn (.write (0x500 + 0x40 * c.slot + 4 * j) 4 v) s = .next s)

/-- A read at an offset returns r and changes nothing else. -/
abbrev Sys2Proof.Machine.State.readsAs (s : State) (off r : Nat) : Prop :=
  stepOn (.read off 4) s = .next { s with rdata := BitVec.ofNat 32 r } ∧ r < 2 ^ 32

/-- R31 to R36, R59: what the control registers read as, bit by bit, and that reserved offsets read 0. -/
def Obligations.ControlRegisterReads : Prop :=
  ∀ s : State,
    s.readsAs 0x000 0x45434331 ∧
    s.readsAs 0x004 s.ie.toNat ∧
    s.readsAs 0x008 (s.busy.toNat + 2 * s.done.toNat + 4 * s.err.toNat + 8 * s.truth.toNat + 16 * s.cv.toNat +
      32 * s.busywr.toNat + 256 * s.errcode.toNat) ∧
    s.readsAs 0x00C s.lastcmd.toNat ∧
    (s.busy = false → s.readsAs 0x010 s.pinf.toNat ∧ s.readsAs 0x014 s.clen.toNat) ∧
    ∀ off, off % 4 = 0 → (0x018 ≤ off ∧ off < 0x100) ∨ (0x680 ≤ off ∧ off < 0x1000) → s.readsAs off 0

/-- R31 to R36, R59, R61: what writes to the control registers do; ID, CLEN and reserved offsets ignore them. -/
def Obligations.ControlRegisterWrites : Prop :=
  ∀ (s : State) (v : Word),
    (v.getLsbD 1 = false → stepOn (.write 0x004 4 v) s = .next { s with ie := v.getLsbD 0 }) ∧
    stepOn (.write 0x008 4 v) s = .next { s with done := s.done && !v.getLsbD 1, busywr := s.busywr && !v.getLsbD 5 } ∧
    (s.busy = false → stepOn (.write 0x010 4 v) s = .next { s with pinf := v.setWidth 8 }) ∧
    ∀ off, off % 4 = 0 →
      off = 0x000 ∨ off = 0x014 ∨ (0x018 ≤ off ∧ off < 0x100) ∨ (0x680 ≤ off ∧ off < 0x1000) →
      stepOn (.write off 4 v) s = .next s

/-- R261 with R260 and R98: a CTRL write with bit 1 set is the hardware reset, at any time and whatever the other bits; a command in
flight is gone. The inputs still to come and what the host last read are not state of the core (log entry 13). -/
def Obligations.SoftResetIsReset : Prop :=
  ∀ (s : State) (v : Word),
    (v.getLsbD 1 = true →
      ∃ u : State,
        stepOn (.write 0x004 4 v) s = .next u ∧ stepOn .reset s = .next u ∧
        u = { State.reset with schedule := s.schedule, rdata := s.rdata, entropy := s.entropy, entropyDrawn := s.entropyDrawn
                               busyReads := s.busyReads } ∧
        stepOn .complete u = .next u) ∧
    (v.getLsbD 1 = false → stepOn (.write 0x004 4 v) s = .next { s with ie := v.getLsbD 0 }) ∧
    (s.windowWord 0x004).getLsbD 1 = false

/-- R41: the reset values. -/
def Obligations.ResetValues : Prop :=
  (∀ i : XReg, State.reset.getX i = 0#384) ∧ State.reset.pinf = 0#8 ∧ (∀ i : PReg, State.reset.point i = .aff 0 0) ∧
  (∀ c : CurveReg, State.reset.cr.get c = 0#384) ∧ State.reset.cv = false ∧ State.reset.clen = 0#8 ∧
  State.reset.windowWord 0x000 = 0x45434331#32 ∧ State.reset.ie = false ∧
  State.reset.busy = false ∧ State.reset.done = false ∧ State.reset.err = false ∧ State.reset.truth = false ∧
  State.reset.busywr = false ∧ State.reset.errcode = 0#8 ∧ State.reset.lastcmd = 0#32 ∧ State.reset.irq = false

/-- R240: the interrupt line is IE and DONE; what raises it and what lowers it. -/
def Obligations.InterruptLine : Prop :=
  ∀ s : State,
    s.irq = (s.ie && s.done) ∧
    (s.busy = true → ∃ t, stepOn .complete s = .next t ∧ t.done = true ∧ t.irq = s.ie) ∧
    (∀ v : Word, v.getLsbD 1 = true → ∃ t, stepOn (.write 0x008 4 v) s = .next t ∧ t.irq = false ∧ t.ie = s.ie) ∧
    (s.busy = false → ∀ w : Word, ∃ t, stepOn (.write 0x00C 4 w) s = .next t ∧ t.irq = false) ∧
    (∃ t, stepOn .reset s = .next t ∧ t.irq = false) ∧
    (∀ v : Word, v.getLsbD 0 = false → v.getLsbD 1 = false →
      ∃ t, stepOn (.write 0x004 4 v) s = .next t ∧ t.irq = false ∧ t.done = s.done)

/-- R51: every access that is not one 32-bit word at a multiple of 4 in the window is refused, and every other is not. -/
def Obligations.AccessesRefused : Prop :=
  ∀ (s : State) (off width : Nat) (v : Word),
    (width ≠ 4 ∨ off % 4 ≠ 0 ∨ 0xFFC < off →
      (∃ r, stepOn (.read off width) s = .refused r) ∧ ∃ r, stepOn (.write off width v) s = .refused r) ∧
    (width = 4 → off % 4 = 0 → off ≤ 0xFFC →
      (∃ t, stepOn (.read off width) s = .next t) ∧ ∃ t, stepOn (.write off width v) s = .next t)

/-! ## Whole-machine rules -/

/-- R26, R27, R30, R33, R116: the invariant of the core's states holds at reset. -/
def Obligations.InvariantAtReset : Prop := State.reset.Inv

/-- R26, R27, R33, R95, R99, R115, R230: every step keeps it: CV = 1 only with a curve that passes CurveOK and its curve length in CLEN,
CLEN = 0 without; cleared flags while a command is in flight; ERR, ERRCODE and TRUE in agreement. -/
def Obligations.StepKeepsInvariant : Prop :=
  ∀ s t : State, s.Inv → step s = .next t → t.Inv

/-- R26, R115: CV = 1 after a step means that CV was 1 and the curve registers are untouched, or that the step is the completion of a
CSET or CLOAD and the curve passes CurveOK. -/
def Obligations.CurveValidOnlyByValidation : Prop :=
  ∀ s t : State, step s = .next t → t.cv = true →
    (s.cv = true ∧ t.cr = s.cr) ∨
    (s.Completing ∧ t.busy = false ∧ (decode s.lastcmd = .command .cset ∨ ∃ k, decode s.lastcmd = .command (.cload k)) ∧
      curveOK t.curve = true)

/-- R24, R30, R276: PINF[i] changes only by the completion of PADD, PDBL, PMUL, PLDG or PUBK of p[i], by a host write of PINF, or by a
reset; TRUE rises only by the completion of PCHK or VERIFY. -/
def Obligations.PinfAndTrueWriters : Prop :=
  ∀ s t : State, step s = .next t →
    (∀ i : PReg, t.getPinf i ≠ s.getPinf i →
      (s.Completing ∧ t.busy = false ∧
        ((∃ a b, decode s.lastcmd = .command (.padd i a b)) ∨ (∃ a, decode s.lastcmd = .command (.pdbl i a)) ∨
          (∃ a b, decode s.lastcmd = .command (.pmul i a b)) ∨ decode s.lastcmd = .command (.pldg i) ∨
          (∃ a, decode s.lastcmd = .command (.pubk i a)))) ∨
      (s.busy = false ∧ ∃ v rest, s.schedule = .write 0x010 4 v :: rest) ∨
      (∃ v rest, s.schedule = .write 0x004 4 v :: rest ∧ v.getLsbD 1 = true) ∨ (∃ rest, s.schedule = .reset :: rest)) ∧
    (s.truth = false → t.truth = true →
      s.Completing ∧ t.busy = false ∧
        ((∃ a, decode s.lastcmd = .command (.pchk a)) ∨ ∃ a b c, decode s.lastcmd = .command (.verify a b c)))

/-- R7, R195: only RAND draws entropy: any other command gives the same outcome whatever the entropy source holds, and leaves it. -/
def Obligations.OnlyRandReadsEntropy : Prop :=
  ∀ (i : Instr) (s t : State) (bytes : List Byte) (n : Nat), (∀ d, i ≠ .rand d) → exec i s = .next t →
    t.entropy = s.entropy ∧ t.entropyDrawn = s.entropyDrawn ∧
    exec i { s with entropy := bytes, entropyDrawn := n } = .next { t with entropy := bytes, entropyDrawn := n }

/-! ## Curve configuration (40_curve.md) -/

/-- R110: NOP; the only well-formed word with its opcode is 0. -/
def Obligations.NopEffect : Prop :=
  decode 0x00000000#32 = .command .nop ∧
  (∀ w : Word, w.extractLsb' 0 8 = 0x00#8 → w ≠ 0#32 → decode w = .illegalOperand) ∧
  ∀ s : State,
    exec .nop s = .next { s with busy := false, done := true, err := false, errcode := 0#8, truth := false } ∧
    (s.busy = false → ∃ t : State,
      Host.Core.run Sys2Proof.core 2 { s with schedule := [.write 0x00C 4 0#32, .complete] } = .next t ∧
      (t.windowWord 0x008).toNat = 2 + 16 * s.cv.toNat + 32 * s.busywr.toNat ∧
      t = { s with schedule := [], lastcmd := 0#32, busy := false, done := true, err := false, errcode := 0#8, truth := false })

/-- R112, in the integers. -/
def Sys2Proof.CurveVal.PassesR112 (c : CurveVal) : Prop :=
  3 ≤ c.p ∧ c.p % 2 = 1 ∧ c.a < c.p ∧ c.b < c.p ∧ c.gx < c.p ∧ c.gy < c.p ∧ 2 ≤ c.n ∧
    ((c.gy : Int) ^ 2 - ((c.gx : Int) ^ 3 + c.a * c.gx + c.b)) % c.p = 0

/-- L = ceil(bitlen(N)/8), for N ≥ 1: the least number of bytes that holds N (R27). -/
abbrev Sys2Proof.lengthOf (n L : Nat) : Prop := n < 256 ^ L ∧ 256 ^ (L - 1) ≤ n

/-- R111 with R112: CSET sets CV and CLEN if the curve registers pass CurveOK, else fails with INVALID_CURVE. -/
def Obligations.CsetValidates : Prop :=
  encode .cset = 0x00000030#32 ∧
  ∀ s : State,
    (s.curve.PassesR112 → ∃ L : Nat, lengthOf s.curve.n L ∧ L ≤ 48 ∧
      exec .cset s = .next ({ s with cv := true, clen := BitVec.ofNat 8 L }.succeed false)) ∧
    (¬ s.curve.PassesR112 → exec .cset s = .next (s.takeError .invalidCurve))

/-- R113 with R117 and R27: CLOAD loads the preset curve, which passes CurveOK, with CV = 1 and CLEN 32, 32 or 48; a selector above 2
is illegal. That the ROM is the default table of R117, which the spec lets a model take as a parameter (U7), and so that CLOAD never
fails, is the model's choice (log entry 7). -/
def Obligations.CloadLoadsPreset : Prop :=
  (∀ w : Word, w.extractLsb' 0 8 = 0x31#8 → 2 < (w.extractLsb' 8 4).toNat → decode w = .illegalOperand) ∧
  (encode (.cload .secp256k1) = 0x00000031#32 ∧ encode (.cload .secp256r1) = 0x00000131#32 ∧
    encode (.cload .secp384r1) = 0x00000231#32) ∧
  (∀ k, (rom k).PassesR112) ∧
  ∀ (s : State) (k : CurveId),
    ∃ cr : CurveRegs, cr.val = rom k ∧
      exec (.cload k) s =
        .next ({ s with cr := cr, cv := true
                        clen := match k with
                          | .secp256k1 => 32#8
                          | .secp256r1 => 32#8
                          | .secp384r1 => 48#8 }.succeed false)

/-! ## Modular arithmetic (41_field.md) -/

/-- R130, R133, R134, R135: sum, difference and product modulo M of canonical sources, RANGE for any other; any registers may be the
same. -/
def Obligations.AddSubMulResults : Prop :=
  ∀ (d a b : XReg) (m : ModSel) (s : State),
    (encode (.madd d a b m) &&& 0xFEF000FF#32 = 0x00000001#32 ∧ encode (.msub d a b m) &&& 0xFEF000FF#32 = 0x00000002#32 ∧
      encode (.mmul d a b m) &&& 0xFEF000FF#32 = 0x00000003#32) ∧
    (s.cv = true → s.xVal a < s.modulus m → s.xVal b < s.modulus m →
      exec (.madd d a b m) s = .next ((s.putX d ((s.xVal a + s.xVal b) % s.modulus m)).succeed false) ∧
      (∃ r, r < s.modulus m ∧ (r + s.xVal b) % s.modulus m = s.xVal a ∧
        exec (.msub d a b m) s = .next ((s.putX d r).succeed false)) ∧
      exec (.mmul d a b m) s = .next ((s.putX d (s.xVal a * s.xVal b % s.modulus m)).succeed false)) ∧
    (s.cv = true → s.modulus m ≤ s.xVal a ∨ s.modulus m ≤ s.xVal b →
      exec (.madd d a b m) s = .next (s.takeError .range) ∧ exec (.msub d a b m) s = .next (s.takeError .range) ∧
      exec (.mmul d a b m) s = .next (s.takeError .range))

/-- R131: R = 2^(64·L) is the Montgomery radix of M ≥ 1, L the least number of 64-bit limbs that holds M. -/
abbrev Sys2Proof.limbsOf (M L : Nat) : Prop := M < 2 ^ (64 * L) ∧ 2 ^ (64 * (L - 1)) ≤ M

/-- R136 with R131: the Montgomery product r, with r·R ≡ a·b (mod M); RANGE first, then NOT_INVERTIBLE for an even M. -/
def Obligations.MmontResult : Prop :=
  ∀ (d a b : XReg) (m : ModSel) (s : State), s.CurveInv → s.cv = true →
    encode (.mmont d a b m) &&& 0xFEF000FF#32 = 0x00000004#32 ∧
    (s.xVal a < s.modulus m → s.xVal b < s.modulus m → s.modulus m % 2 = 1 →
      ∃ r, r < s.modulus m ∧
        (∀ L, limbsOf (s.modulus m) L → r * 2 ^ (64 * L) % s.modulus m = s.xVal a * s.xVal b % s.modulus m) ∧
        exec (.mmont d a b m) s = .next ((s.putX d r).succeed false)) ∧
    (s.modulus m ≤ s.xVal a ∨ s.modulus m ≤ s.xVal b → exec (.mmont d a b m) s = .next (s.takeError .range)) ∧
    (s.xVal a < s.modulus m → s.xVal b < s.modulus m → s.modulus m % 2 = 0 →
      exec (.mmont d a b m) s = .next (s.takeError .notInvertible))

/-- R137 with R132: the inverse, unique in [0, M − 1]; RANGE first, then NOT_INVERTIBLE when gcd(a, M) ≠ 1, as for a = 0. -/
def Obligations.MinvResult : Prop :=
  ∀ (d a : XReg) (m : ModSel) (s : State), s.CurveInv → s.cv = true →
    encode (.minv d a m) &&& 0xFEFF00FF#32 = 0x00000005#32 ∧
    (s.xVal a < s.modulus m → Nat.gcd (s.xVal a) (s.modulus m) = 1 →
      ∃ t, t < s.modulus m ∧ s.xVal a * t % s.modulus m = 1 ∧
        (∀ u, u < s.modulus m → s.xVal a * u % s.modulus m = 1 → u = t) ∧
        exec (.minv d a m) s = .next ((s.putX d t).succeed false)) ∧
    (s.xVal a < s.modulus m → Nat.gcd (s.xVal a) (s.modulus m) ≠ 1 →
      exec (.minv d a m) s = .next (s.takeError .notInvertible)) ∧
    (s.xVal a = 0 → exec (.minv d a m) s = .next (s.takeError .notInvertible)) ∧
    (s.modulus m ≤ s.xVal a → exec (.minv d a m) s = .next (s.takeError .range))

/-- R138 and R139 with R131: MRED reduces any value; MRR gives R² mod M, NOT_INVERTIBLE for an even M. -/
def Obligations.MredMrrResults : Prop :=
  ∀ (d a : XReg) (m : ModSel) (s : State), s.CurveInv → s.cv = true →
    (encode (.mred d a m) &&& 0xFEFF00FF#32 = 0x00000006#32 ∧ encode (.mrr d m) &&& 0xFEFFF0FF#32 = 0x00000007#32) ∧
    exec (.mred d a m) s = .next ((s.putX d (s.xVal a % s.modulus m)).succeed false) ∧
    (s.modulus m % 2 = 1 →
      ∃ r, r < s.modulus m ∧
        (∀ L, limbsOf (s.modulus m) L → r = 2 ^ (64 * L) * 2 ^ (64 * L) % s.modulus m) ∧
        exec (.mrr d m) s = .next ((s.putX d r).succeed false)) ∧
    (s.modulus m % 2 = 0 → exec (.mrr d m) s = .next (s.takeError .notInvertible))

/-- R141 with R92: on the machine, in and out of Montgomery form is the identity; a sum less one summand is the other; a residue times
its inverse is 1. No command of these sequences fails. -/
def Obligations.ArithmeticIdentities : Prop :=
  ∀ (a b d e one t : XReg) (m : ModSel) (s : State), s.CurveInv → s.cv = true → s.xVal a < s.modulus m →
    (s.modulus m % 2 = 1 → s.xVal one = 1 → t ≠ a → one ≠ t → one ≠ d →
      ∃ s1 s2 s3, exec (.mrr t m) s = .next s1 ∧ exec (.mmont d a t m) s1 = .next s2 ∧
        exec (.mmont e d one m) s2 = .next s3 ∧
        s1.err = false ∧ s2.err = false ∧ s3.err = false ∧ s3.xVal e = s.xVal a) ∧
    (s.xVal b < s.modulus m → d ≠ b →
      ∃ s1 s2, exec (.madd d a b m) s = .next s1 ∧ exec (.msub e d b m) s1 = .next s2 ∧ s1.err = false ∧ s2.err = false ∧
        s2.xVal e = s.xVal a) ∧
    (Nat.gcd (s.xVal a) (s.modulus m) = 1 → d ≠ a →
      ∃ s1 s2, exec (.minv d a m) s = .next s1 ∧ exec (.mmul e a d m) s1 = .next s2 ∧ s1.err = false ∧ s2.err = false ∧
        s2.xVal e = 1)

/-! ## Points (10_state.md R23, 42_point.md) -/

/-- R23, R24: point and pair registers are views of operand registers and PINF, and share their storage. -/
def Obligations.PointRegisterViews : Prop :=
  ∀ (s : State) (i : PReg),
    (s.getPinf i = true → s.point i = .inf) ∧
    (s.getPinf i = false → s.point i = .aff (s.xVal (loReg i)) (s.xVal (hiReg i))) ∧
    (s.pairLo i = s.xVal (loReg i) ∧ s.pairHi i = s.xVal (hiReg i) ∧ (loReg i).val = 2 * i.val ∧ (hiReg i).val = 2 * i.val + 1) ∧
    ((s.putPoint i .inf).xVal (loReg i) = 0 ∧ (s.putPoint i .inf).xVal (hiReg i) = 0 ∧ (s.putPoint i .inf).getPinf i = true) ∧
    ∀ px py : Nat, px < 2 ^ 384 → py < 2 ^ 384 →
      ((s.putPoint i (.aff px py)).xVal (loReg i) = px ∧ (s.putPoint i (.aff px py)).xVal (hiReg i) = py ∧
        (s.putPoint i (.aff px py)).getPinf i = false) ∧
      ((s.putPair i px py).xVal (loReg i) = px ∧ (s.putPair i px py).xVal (hiReg i) = py ∧
        (s.putPair i px py).pinf = s.pinf) ∧
      ∀ p ∈ [Point.inf, .aff px py],
        (∀ j : XReg, j ≠ loReg i → j ≠ hiReg i →
          (s.putPoint i p).xVal j = s.xVal j ∧ (s.putPair i px py).xVal j = s.xVal j) ∧
        (∀ j : PReg, j ≠ i → (s.putPoint i p).getPinf j = s.getPinf j)

/-- R160: the five cases of pointAdd on canonical points, the slopes and the coordinates as congruences modulo P; NOT_INVERTIBLE
happens only for a composite P. -/
def Obligations.PointAddCases : Prop :=
  ∀ (c : CurveVal) (p q : Point), 3 ≤ c.p → p.canonical c → q.canonical c →
    pointAdd c .inf q = .ok q ∧ pointAdd c p .inf = .ok p ∧ (c.p.Prime → ∃ r, r.canonical c ∧ pointAdd c p q = .ok r) ∧
    ∀ px py qx qy : Nat, p = .aff px py → q = .aff qx qy →
      (px = qx → (py ≠ qy ∨ py = 0) → pointAdd c p q = .ok .inf) ∧
      (px = qx → py = qy → py ≠ 0 →
        (Nat.gcd (2 * py % c.p) c.p ≠ 1 → pointAdd c p q = .error .notInvertible) ∧
        (Nat.gcd (2 * py % c.p) c.p = 1 → ∃ l x3 y3 : Nat, l < c.p ∧ x3 < c.p ∧ y3 < c.p ∧
          ((l : Int) * (2 * py)) % c.p = (3 * (px : Int) ^ 2 + c.a) % c.p ∧
          (x3 : Int) = ((l : Int) ^ 2 - px - qx) % c.p ∧ (y3 : Int) = (l * ((px : Int) - x3) - py) % c.p ∧
          pointAdd c p q = .ok (.aff x3 y3))) ∧
      (px ≠ qx →
        (Int.gcd ((qx : Int) - px) c.p ≠ 1 → pointAdd c p q = .error .notInvertible) ∧
        (Int.gcd ((qx : Int) - px) c.p = 1 → ∃ l x3 y3 : Nat, l < c.p ∧ x3 < c.p ∧ y3 < c.p ∧
          ((l : Int) * ((qx : Int) - px)) % c.p = ((qy : Int) - py) % c.p ∧
          (x3 : Int) = ((l : Int) ^ 2 - px - qx) % c.p ∧ (y3 : Int) = (l * ((px : Int) - x3) - py) % c.p ∧
          pointAdd c p q = .ok (.aff x3 y3)))

/-- R165, R166: PADD and PDBL write pointAdd's result or fail with its error, RANGE first; PDBL is PADD of a register with itself; over
a prime P both always complete on canonical sources. -/
def Obligations.PaddPdblResults : Prop :=
  ∀ (d a b : PReg) (s : State), s.CurveInv → s.cv = true →
    (encode (.padd d a b) &&& 0xFFF888FF#32 = 0x00000010#32 ∧ encode (.pdbl d a) &&& 0xFFFF88FF#32 = 0x00000011#32) ∧
    (¬ (s.point a).canonical s.curve ∨ ¬ (s.point b).canonical s.curve → exec (.padd d a b) s = .next (s.takeError .range)) ∧
    ((s.point a).canonical s.curve → (s.point b).canonical s.curve →
      (∀ r, pointAdd s.curve (s.point a) (s.point b) = .ok r → exec (.padd d a b) s = .next ((s.putPoint d r).succeed false)) ∧
      (∀ e, pointAdd s.curve (s.point a) (s.point b) = .error e → exec (.padd d a b) s = .next (s.takeError e)) ∧
      (s.curve.p.Prime → ∃ r, r.canonical s.curve ∧ pointAdd s.curve (s.point a) (s.point b) = .ok r ∧
        exec (.padd d a b) s = .next ((s.putPoint d r).succeed false))) ∧
    exec (.pdbl d a) s = exec (.padd d a a) s ∧
    (s.curve.p.Prime → (s.point a).canonical s.curve →
      ∃ r, r.canonical s.curve ∧ pointAdd s.curve (s.point a) (s.point a) = .ok r ∧
        exec (.pdbl d a) s = .next ((s.putPoint d r).succeed false))

/-- R162: scalarMultiply is double-and-add over the bits of k mod N, most significant first. -/
def Obligations.ScalarMultiplySteps : Prop :=
  ∀ (c : CurveVal) (pt : Point) (k : Nat), 0 < c.n →
    (k % c.n = 0 → scalarMultiply c pt k = .ok .inf) ∧
    scalarMultiply c pt (k % c.n) = scalarMultiply c pt k ∧
    (0 < k → k < c.n →
      scalarMultiply c pt k =
        (scalarMultiply c pt (k / 2)).bind fun acc =>
          (pointAdd c acc acc).bind fun dbl => if k % 2 = 1 then pointAdd c dbl pt else .ok dbl)

/-- R167: PMUL writes scalarMultiply's result or fails with its error, RANGE first; a multiple of N gives INF; over a prime P it always
completes on a canonical point, for any scalar. -/
def Obligations.PmulResult : Prop :=
  ∀ (d a : PReg) (b : XReg) (s : State), s.CurveInv → s.cv = true →
    encode (.pmul d a b) &&& 0xFFF088FF#32 = 0x00000012#32 ∧
    (¬ (s.point a).canonical s.curve → exec (.pmul d a b) s = .next (s.takeError .range)) ∧
    ((s.point a).canonical s.curve →
      (s.xVal b % s.curve.n = 0 → exec (.pmul d a b) s = .next ((s.putPoint d .inf).succeed false)) ∧
      (∀ r, scalarMultiply s.curve (s.point a) (s.xVal b) = .ok r →
        exec (.pmul d a b) s = .next ((s.putPoint d r).succeed false)) ∧
      (∀ e, scalarMultiply s.curve (s.point a) (s.xVal b) = .error e → exec (.pmul d a b) s = .next (s.takeError e)) ∧
      (s.curve.p.Prime → ∃ r, r.canonical s.curve ∧ scalarMultiply s.curve (s.point a) (s.xVal b) = .ok r ∧
        exec (.pmul d a b) s = .next ((s.putPoint d r).succeed false)))

/-- R163, in the integers. -/
def Sys2Proof.Machine.Point.OnR163 (c : CurveVal) : Point → Prop
  | .inf => False
  | .aff px py => px < c.p ∧ py < c.p ∧ ((py : Int) ^ 2 - ((px : Int) ^ 3 + c.a * px + c.b)) % c.p = 0

/-- R168 with R163, and R169: PCHK's predicate, with no RANGE; PLDG writes the base point. PLDG p, then PCHK p, is true on a validated
curve. -/
def Obligations.PchkPldgResults : Prop :=
  ∀ (d a : PReg) (s : State), s.CurveInv → s.cv = true →
    (encode (.pchk a) &&& 0xFFFF8FFF#32 = 0x00000013#32 ∧ encode (.pldg d) &&& 0xFFFFF8FF#32 = 0x00000014#32) ∧
    ((s.point a).OnR163 s.curve → exec (.pchk a) s = .next (s.succeed true)) ∧
    (¬ (s.point a).OnR163 s.curve → exec (.pchk a) s = .next (s.succeed false)) ∧
    ∃ t : State, t = (s.putPoint d (.aff s.curve.gx s.curve.gy)).succeed false ∧ exec (.pldg d) s = .next t ∧
      exec (.pchk d) t = .next (t.succeed true)

/-! ## Random scalar and nonce (43_random_nonce.md) -/

/-- R191: nb is the least number of bytes, at least 1, that covers 0 .. range − 1. -/
abbrev Sys2Proof.bytesCovering (range nb : Nat) : Prop := 1 ≤ nb ∧ range ≤ 256 ^ nb ∧ (nb = 1 ∨ 256 ^ (nb - 1) < range)

/-- R191: draw t of nb bytes of the entropy source, big-endian. -/
def Sys2Proof.Machine.State.drawValue (s : State) (nb t : Nat) : Nat :=
  ((List.range nb).map fun k => (s.entropyAt (t * nb + k)).toNat * 256 ^ (nb - 1 - k)).sum

/-- R197 with R191: RAND writes 1 plus the first draw below N − 1, of at most 256 draws, else fails with RETRY_EXHAUSTED; how many bytes
are drawn is said too. -/
def Obligations.RandResult : Prop :=
  ∀ (d : XReg) (s : State), s.CurveInv → s.cv = true →
    encode (.rand d) &&& 0xFFFFF0FF#32 = 0x00000020#32 ∧
    ∃ nb, bytesCovering (s.curve.n - 1) nb ∧
      (∀ t < 256, s.drawValue nb t < s.curve.n - 1 → (∀ u < t, s.curve.n - 1 ≤ s.drawValue nb u) →
        exec (.rand d) s =
          .next (({ s with entropy := s.entropy.drop ((t + 1) * nb), entropyDrawn := s.entropyDrawn + (t + 1) * nb }.putX d
            (1 + s.drawValue nb t)).succeed false)) ∧
      ((∀ t < 256, s.curve.n - 1 ≤ s.drawValue nb t) →
        exec (.rand d) s =
          .next ({ s with entropy := s.entropy.drop (256 * nb), entropyDrawn := s.entropyDrawn + 256 * nb }.takeError
            .retryExhausted))

/-- R196: the outcome set of RAND over all draw sequences: every v in [1, N − 1], and no other value; and RETRY_EXHAUSTED, unless
N − 1 is a whole power of 256, where every draw is accepted. -/
def Obligations.RandOutcomeSet : Prop :=
  ∀ (d : XReg) (s : State), s.CurveInv → s.cv = true →
    (∀ v, 1 ≤ v → v ≤ s.curve.n - 1 →
      ∃ (bytes : List Byte) (t : State), exec (.rand d) { s with entropy := bytes } = .next t ∧ t.err = false ∧ t.xVal d = v) ∧
    (∀ t, exec (.rand d) s = .next t →
      (t.err = false ∧ 1 ≤ t.xVal d ∧ t.xVal d ≤ s.curve.n - 1) ∨ (t.err = true ∧ t.errcode = 8#8)) ∧
    ((∀ n, 1 ≤ n → s.curve.n - 1 ≠ 256 ^ n) →
      ∃ (bytes : List Byte) (t : State), exec (.rand d) { s with entropy := bytes } = .next t ∧ t.err = true ∧ t.errcode = 8#8)

/-- R192: candidate i of the nonce function for the secret x[b] and the digest x[a] (log entry 5). -/
def Sys2Proof.Machine.State.candidate (s : State) (a b : XReg) (i : Nat) : Nat :=
  Config.nonceFn (s.xVal b) (s.xVal a) s.curve Config.hlen i

/-- R198 with R193: NONCE writes the first of 256 candidates in [1, N − 1], else fails with RETRY_EXHAUSTED; INVALID_KEY first. Which of
the two it is depends on NONCE_FN, which is open (log entry 5). -/
def Obligations.NonceResult : Prop :=
  ∀ (d a b : XReg) (s : State), s.cv = true →
    encode (.nonce d a b) &&& 0xFFF000FF#32 = 0x00000021#32 ∧
    (¬ inScalarRange s.curve (s.xVal b) → exec (.nonce d a b) s = .next (s.takeError .invalidKey)) ∧
    (inScalarRange s.curve (s.xVal b) → ∃ t, exec (.nonce d a b) s = .next t ∧
      ((∃ i < 256, inScalarRange s.curve (s.candidate a b i) ∧ (∀ j < i, ¬ inScalarRange s.curve (s.candidate a b j)) ∧
          t = (s.putX d (s.candidate a b i)).succeed false) ∨
        ((∀ i < 256, ¬ inScalarRange s.curve (s.candidate a b i)) ∧ t = s.takeError .retryExhausted)))

/-! ## ECDSA (44_ecdsa.md) -/

/-- R210: PUBK writes x[a]·G or fails with its error, INVALID_KEY first; over a prime P it always completes on a valid key, and where
N is the prime order of G the result is a finite point of the curve. -/
def Obligations.PubkResult : Prop :=
  ∀ (d : PReg) (a : XReg) (s : State), s.CurveInv → s.cv = true →
    encode (.pubk d a) &&& 0xFFFF08FF#32 = 0x00000015#32 ∧
    (¬ inScalarRange s.curve (s.xVal a) → exec (.pubk d a) s = .next (s.takeError .invalidKey)) ∧
    (inScalarRange s.curve (s.xVal a) →
      (∀ r, scalarMultiply s.curve (.aff s.curve.gx s.curve.gy) (s.xVal a) = .ok r →
        exec (.pubk d a) s = .next ((s.putPoint d r).succeed false)) ∧
      (∀ e, scalarMultiply s.curve (.aff s.curve.gx s.curve.gy) (s.xVal a) = .error e →
        exec (.pubk d a) s = .next (s.takeError e)) ∧
      (s.curve.p.Prime → ∃ r, scalarMultiply s.curve (.aff s.curve.gx s.curve.gy) (s.xVal a) = .ok r ∧
        exec (.pubk d a) s = .next ((s.putPoint d r).succeed false)) ∧
      (PrimeCurve s.curve → ∃ r, scalarMultiply s.curve (.aff s.curve.gx s.curve.gy) (s.xVal a) = .ok r ∧ r.OnR163 s.curve))

/-- R212: one signing attempt: FAIL for R = INF, r = 0 or s = 0, else (r, s) with s·k ≡ e + r·d (mod N); any NOT_INVERTIBLE is an
error. -/
def Obligations.SignAttempt : Prop :=
  ∀ (c : CurveVal) (e d k : Nat), 2 ≤ c.n → inScalarRange c d → inScalarRange c k →
    (∀ err, scalarMultiply c (.aff c.gx c.gy) k = .error err → signCore c e d k = .error err) ∧
    (scalarMultiply c (.aff c.gx c.gy) k = .ok .inf → signCore c e d k = .ok none) ∧
    ∀ px py, scalarMultiply c (.aff c.gx c.gy) k = .ok (.aff px py) →
      (px % c.n = 0 → signCore c e d k = .ok none) ∧
      (px % c.n ≠ 0 → Nat.gcd k c.n ≠ 1 → signCore c e d k = .error .notInvertible) ∧
      (px % c.n ≠ 0 → Nat.gcd k c.n = 1 →
        ∃ t, t < c.n ∧ t * k % c.n = (e + px % c.n * d) % c.n ∧
          (t = 0 → signCore c e d k = .ok none) ∧ (t ≠ 0 → signCore c e d k = .ok (some (px % c.n, t))))

/-- R213: SIGN uses the first candidate in [1, N − 1] whose attempt does not fail; an attempt's NOT_INVERTIBLE ends it, and so does the
end of the 256 candidates; INVALID_KEY first. Over primes P and N no attempt is NOT_INVERTIBLE. PINF is not written. Which case it is
depends on NONCE_FN, which is open (log entry 5). -/
def Obligations.SignResult : Prop :=
  ∀ (d : SReg) (a b : XReg) (s : State), s.CurveInv → s.cv = true →
    encode (.sign d a b) &&& 0xFFF008FF#32 = 0x00000028#32 ∧
    (¬ inScalarRange s.curve (s.xVal b) → exec (.sign d a b) s = .next (s.takeError .invalidKey)) ∧
    (inScalarRange s.curve (s.xVal b) → ∃ t, exec (.sign d a b) s = .next t ∧
      ((∃ i < 256, ∃ r u, inScalarRange s.curve (s.candidate a b i) ∧
          signCore s.curve (s.xVal a) (s.xVal b) (s.candidate a b i) = .ok (some (r, u)) ∧
          (∀ j < i, inScalarRange s.curve (s.candidate a b j) →
            signCore s.curve (s.xVal a) (s.xVal b) (s.candidate a b j) = .ok none) ∧
          inScalarRange s.curve r ∧ inScalarRange s.curve u ∧ t = (s.putPair d r u).succeed false) ∨
        ((∃ i < 256, inScalarRange s.curve (s.candidate a b i) ∧
          signCore s.curve (s.xVal a) (s.xVal b) (s.candidate a b i) = .error .notInvertible ∧
          (∀ j < i, inScalarRange s.curve (s.candidate a b j) →
            signCore s.curve (s.xVal a) (s.xVal b) (s.candidate a b j) = .ok none)) ∧
          t = s.takeError .notInvertible ∧ ¬ (s.curve.p.Prime ∧ s.curve.n.Prime)) ∨
        ((∀ i < 256, inScalarRange s.curve (s.candidate a b i) →
            signCore s.curve (s.xVal a) (s.xVal b) (s.candidate a b i) = .ok none) ∧
          t = s.takeError .retryExhausted)))

/-- R214: SIGNK with the nonce x[c]: INVALID_KEY, then INVALID_NONCE for a nonce out of range or a failed attempt; else the attempt's
signature. Over primes P and N it ends in a signature or in INVALID_NONCE. -/
def Obligations.SignkResult : Prop :=
  ∀ (d : SReg) (a b c : XReg) (s : State), s.CurveInv → s.cv = true →
    encode (.signk d a b c) &&& 0xFF0008FF#32 = 0x00000029#32 ∧
    (¬ inScalarRange s.curve (s.xVal b) → exec (.signk d a b c) s = .next (s.takeError .invalidKey)) ∧
    (inScalarRange s.curve (s.xVal b) → ¬ inScalarRange s.curve (s.xVal c) →
      exec (.signk d a b c) s = .next (s.takeError .invalidNonce)) ∧
    (inScalarRange s.curve (s.xVal b) → inScalarRange s.curve (s.xVal c) →
      (∀ r u, signCore s.curve (s.xVal a) (s.xVal b) (s.xVal c) = .ok (some (r, u)) →
        inScalarRange s.curve r ∧ inScalarRange s.curve u ∧
          exec (.signk d a b c) s = .next ((s.putPair d r u).succeed false)) ∧
      (signCore s.curve (s.xVal a) (s.xVal b) (s.xVal c) = .ok none →
        exec (.signk d a b c) s = .next (s.takeError .invalidNonce)) ∧
      (∀ e, signCore s.curve (s.xVal a) (s.xVal b) (s.xVal c) = .error e → exec (.signk d a b c) s = .next (s.takeError e)) ∧
      (s.curve.p.Prime → s.curve.n.Prime → ∃ o, signCore s.curve (s.xVal a) (s.xVal b) (s.xVal c) = .ok o))

/-- R216: u1·G + u2·Q, for the inverse w of s. -/
def Sys2Proof.Machine.State.verifyPoint (s : State) (a : XReg) (b : SReg) (c : PReg) (w : Nat) : Except ErrCode Point :=
  (scalarMultiply s.curve (.aff s.curve.gx s.curve.gy) (s.xVal a * w % s.curve.n)).bind fun p1 =>
    (scalarMultiply s.curve (s.point c) (s.pairLo b * w % s.curve.n)).bind fun p2 => pointAdd s.curve p1 p2

/-- R217 with R215 and R216: VERIFY: INVALID_KEY for a key that is not on the curve; a signature out of range is false; a signature
whose s has no inverse is NOT_INVERTIBLE; else TRUE says whether u1·G + u2·Q is finite with x mod N = r. Over a prime P that point
always exists. -/
def Obligations.VerifyResult : Prop :=
  ∀ (a : XReg) (b : SReg) (c : PReg) (s : State), s.CurveInv → s.cv = true →
    encode (.verify a b c) &&& 0xFF880FFF#32 = 0x0000002A#32 ∧
    (¬ (s.point c).OnR163 s.curve → exec (.verify a b c) s = .next (s.takeError .invalidKey)) ∧
    ((s.point c).OnR163 s.curve →
      (¬ (inScalarRange s.curve (s.pairLo b) ∧ inScalarRange s.curve (s.pairHi b)) →
        exec (.verify a b c) s = .next (s.succeed false)) ∧
      (inScalarRange s.curve (s.pairLo b) → inScalarRange s.curve (s.pairHi b) →
        (Nat.gcd (s.pairHi b) s.curve.n ≠ 1 → exec (.verify a b c) s = .next (s.takeError .notInvertible)) ∧
        (Nat.gcd (s.pairHi b) s.curve.n = 1 → ∃ w, w < s.curve.n ∧ s.pairHi b * w % s.curve.n = 1 ∧
          (∀ e, s.verifyPoint a b c w = .error e → exec (.verify a b c) s = .next (s.takeError e)) ∧
          (s.verifyPoint a b c w = .ok .inf → exec (.verify a b c) s = .next (s.succeed false)) ∧
          (∀ px py, s.verifyPoint a b c w = .ok (.aff px py) →
            (px % s.curve.n = s.pairLo b → exec (.verify a b c) s = .next (s.succeed true)) ∧
            (px % s.curve.n ≠ s.pairLo b → exec (.verify a b c) s = .next (s.succeed false))) ∧
          (s.curve.p.Prime → ∃ x, s.verifyPoint a b c w = .ok x))))

/-- R211: a digest acts as its residue modulo N: replacing it by another value of the same residue changes neither VERIFY's outcome nor
SIGNK's. -/
def Obligations.DigestActsModN : Prop :=
  ∀ (a b c : XReg) (d sg : SReg) (q : PReg) (y : Reg) (s : State), y.toNat % s.curve.n = s.xVal a % s.curve.n →
    (a ≠ loReg sg → a ≠ hiReg sg → a ≠ loReg q → a ≠ hiReg q →
      ∃ t u, exec (.verify a sg q) s = .next t ∧ exec (.verify a sg q) (s.setX a y) = .next u ∧ u = t.setX a y) ∧
    (a ≠ b → a ≠ c → a ≠ loReg d → a ≠ hiReg d →
      ∃ t u, exec (.signk d a b c) s = .next t ∧ exec (.signk d a b c) (s.setX a y) = .next u ∧ u = t.setX a y)

/-- R194, R220: SIGN is a function of the digest, the key and the loaded curve: in any two states that agree on these it ends in the same
error or the same signature. -/
def Obligations.SigningIsDeterministic : Prop :=
  ∀ (d d' : SReg) (a b a' b' : XReg) (s s' : State), s.cr = s'.cr → s.cv = s'.cv → s.xVal a = s'.xVal a' → s.xVal b = s'.xVal b' →
    ∃ t t', exec (.sign d a b) s = .next t ∧ exec (.sign d' a' b') s' = .next t' ∧
      t.err = t'.err ∧ t.errcode = t'.errcode ∧ t.truth = false ∧ t'.truth = false ∧
      (t.err = false → t.pairLo d = t'.pairLo d' ∧ t.pairHi d = t'.pairHi d')

/-- R198: NONCE gives the nonce SIGN uses: where SIGNK with NONCE's result gives a signature, SIGN gives the same one. -/
def Obligations.NonceIsTheSigningNonce : Prop :=
  ∀ (x a b : XReg) (d : SReg) (s : State), s.CurveInv → s.cv = true → inScalarRange s.curve (s.xVal b) → x ≠ a → x ≠ b →
    ∃ s1 s2 s3, exec (.nonce x a b) s = .next s1 ∧ exec (.signk d a b x) s1 = .next s2 ∧ exec (.sign d a b) s = .next s3 ∧
      (s1.err = false → s2.err = false → s3.err = false ∧ s3.pairLo d = s2.pairLo d ∧ s3.pairHi d = s2.pairHi d)

/-! ## Headline results -/

/-- R161, R170: over a prime P and a curve without singular points, pointAdd is a group law on INF and the points of the curve, with
INF its zero and (x, −y) the inverse of (x, y); and scalarMultiply is adding again and again. -/
def Obligations.PointAdditionIsAGroup : Prop :=
  ∀ c : CurveVal, curveOK c = true → c.p.Prime → nonsingular c →
    ∀ p q r : Point, (p = .inf ∨ onCurve c p = true) → (q = .inf ∨ onCurve c q = true) → (r = .inf ∨ onCurve c r = true) →
      (∃ pq qr t, (pq = .inf ∨ onCurve c pq = true) ∧ pointAdd c p q = .ok pq ∧ pointAdd c q p = .ok pq ∧
        pointAdd c q r = .ok qr ∧ pointAdd c pq r = .ok t ∧ pointAdd c p qr = .ok t) ∧
      (pointAdd c .inf p = .ok p ∧ pointAdd c p .inf = .ok p) ∧
      (∀ px py, p = .aff px py → pointAdd c p (.aff px ((c.p - py) % c.p)) = .ok .inf) ∧
      (∀ k, scalarMultiply c p k = multiple c p (k % c.n))

/-- R218: on a curve with prime P and N and G of order N, a signature by SIGN or by SIGNK verifies under the key that PUBK derived.
SIGN may end in RETRY_EXHAUSTED and SIGNK in INVALID_NONCE instead. -/
def Obligations.SignatureVerifies : Prop :=
  ∀ (q : PReg) (sd : SReg) (xe xd xk : XReg) (s : State), s.cv = true → PrimeCurve s.curve → inScalarRange s.curve (s.xVal xd) →
    inScalarRange s.curve (s.xVal xk) →
    (∀ x ∈ [xe, xd, xk], x ≠ loReg q ∧ x ≠ hiReg q) → xe ≠ loReg sd → xe ≠ hiReg sd → q ≠ sd →
    ∃ s1, exec (.pubk q xd) s = .next s1 ∧ s1.err = false ∧
      (∃ s2, exec (.sign sd xe xd) s1 = .next s2 ∧
        ((s2.err = true ∧ s2.errcode = 8#8) ∨ (s2.err = false ∧ exec (.verify xe sd q) s2 = .next (s2.succeed true)))) ∧
      (∃ s2, exec (.signk sd xe xd xk) s1 = .next s2 ∧
        ((s2.err = true ∧ s2.errcode = 9#8) ∨ (s2.err = false ∧ exec (.verify xe sd q) s2 = .next (s2.succeed true))))

/-! ## Frames -/

/-- What no command but CSET and CLOAD changes, whatever it writes: the curve, CTRL, LASTCMD, BUSYWR, and what is outside the core. -/
abbrev Sys2Proof.Machine.State.keepsRest (s t : State) : Prop :=
  t.cr = s.cr ∧ t.cv = s.cv ∧ t.clen = s.clen ∧ t.ie = s.ie ∧ t.lastcmd = s.lastcmd ∧ t.busywr = s.busywr ∧
    t.schedule = s.schedule ∧ t.rdata = s.rdata ∧ t.busyReads = s.busyReads

/-- The offsets of the words of x[i] (R55). -/
abbrev Sys2Proof.Machine.inXReg (i : XReg) (off : Nat) : Prop := 0x100 + 0x40 * i.val ≤ off ∧ off < 0x100 + 0x40 * i.val + 0x30

/-- MADD, MSUB, MMUL, MMONT, MINV, MRED, MRR, NONCE and RAND write x[D] and STATUS and nothing else; only RAND draws entropy. -/
def Obligations.FieldNonceRandFrame : Prop :=
  ∀ (d a b : XReg) (m : ModSel) (s t : State),
    ∀ i ∈ [Instr.madd d a b m, .msub d a b m, .mmul d a b m, .mmont d a b m, .minv d a m, .mred d a m, .mrr d m, .nonce d a b, .rand d],
      exec i s = .next t →
        (∀ j, j ≠ d → t.getX j = s.getX j) ∧ t.pinf = s.pinf ∧ s.keepsRest t ∧ t.truth = false ∧
        (i ≠ .rand d → t.entropy = s.entropy ∧ t.entropyDrawn = s.entropyDrawn) ∧
        ∀ off, off % 4 = 0 → off < 0x1000 → off ≠ 0x008 → ¬ inXReg d off → t.windowWord off = s.windowWord off

/-- PADD, PDBL, PMUL, PLDG and PUBK write x[2D], x[2D+1], PINF[D] and STATUS and nothing else. -/
def Obligations.PointFrame : Prop :=
  ∀ (d a b : PReg) (k : XReg) (s t : State),
    ∀ i ∈ [Instr.padd d a b, .pdbl d a, .pmul d a k, .pldg d, .pubk d k],
      exec i s = .next t →
        (∀ j, j ≠ loReg d → j ≠ hiReg d → t.getX j = s.getX j) ∧ (∀ j, j ≠ d → t.getPinf j = s.getPinf j) ∧ s.keepsRest t ∧
        t.truth = false ∧ t.entropy = s.entropy ∧ t.entropyDrawn = s.entropyDrawn ∧
        ∀ off, off % 4 = 0 → off < 0x1000 → off ≠ 0x008 → off ≠ 0x010 → ¬ inXReg (loReg d) off → ¬ inXReg (hiReg d) off →
          t.windowWord off = s.windowWord off

/-- SIGN and SIGNK write x[2D], x[2D+1] and STATUS and nothing else: PINF[D] is not theirs. -/
def Obligations.SignatureFrame : Prop :=
  ∀ (d : SReg) (a b c : XReg) (s t : State),
    ∀ i ∈ [Instr.sign d a b, .signk d a b c],
      exec i s = .next t →
        (∀ j, j ≠ loReg d → j ≠ hiReg d → t.getX j = s.getX j) ∧ t.pinf = s.pinf ∧ s.keepsRest t ∧ t.truth = false ∧
        t.entropy = s.entropy ∧ t.entropyDrawn = s.entropyDrawn ∧
        ∀ off, off % 4 = 0 → off < 0x1000 → off ≠ 0x008 → ¬ inXReg (loReg d) off → ¬ inXReg (hiReg d) off →
          t.windowWord off = s.windowWord off

/-- NOP, PCHK and VERIFY write nothing but STATUS; CSET also CV and CLEN; CLOAD also the curve registers, CV and CLEN. -/
def Obligations.ControlFrame : Prop :=
  (∀ (p c : PReg) (b : SReg) (a : XReg) (s t : State), ∀ i ∈ [Instr.nop, .pchk p, .verify a b c],
    exec i s = .next t →
      t = { s with busy := t.busy, done := t.done, err := t.err, errcode := t.errcode, truth := t.truth } ∧
      ∀ off, off % 4 = 0 → off < 0x1000 → off ≠ 0x008 → t.windowWord off = s.windowWord off) ∧
  (∀ (k : CurveId) (s t : State), ∀ i ∈ [Instr.cset, .cload k],
    exec i s = .next t →
      t = { s with busy := t.busy, done := t.done, err := t.err, errcode := t.errcode, truth := t.truth, cv := t.cv, clen := t.clen
                   cr := t.cr } ∧
      (i = .cset → t.cr = s.cr) ∧ t.truth = false ∧
      ∀ off, off % 4 = 0 → off < 0x1000 → off ≠ 0x008 → off ≠ 0x014 → (0x500 ≤ off ∧ off < 0x680 → i = .cset) →
        t.windowWord off = s.windowWord off)

end
end

