-- ==== Sys2Proof/Laws/Arith.lean ====
section
/-! SUPPORT. What the integer functions compute: bit length, signed reduction, and the inverse by Euclid's algorithm. -/

namespace Sys2Proof.Machine

/-! ### bitlen and ceilDiv -/

@[simp] theorem bitlen_zero : bitlen 0 = 0 := rfl

theorem lt_two_pow_bitlen (v : Nat) : v < 2 ^ bitlen v := by
  unfold bitlen
  split
  · next h => simp [h]
  · exact Nat.lt_log2_self

theorem two_pow_le_of_pos {v : Nat} (h : 0 < v) : 2 ^ (bitlen v - 1) ≤ v := by
  unfold bitlen
  rw [if_neg (by omega)]
  simpa using Nat.log2_self_le (by omega : v ≠ 0)

theorem bitlen_pos {v : Nat} (h : 0 < v) : 0 < bitlen v := by
  unfold bitlen
  rw [if_neg (by omega)]
  omega

/-- bitlen is the least width that holds v. -/
theorem bitlen_le_iff (v n : Nat) : bitlen v ≤ n ↔ v < 2 ^ n := by
  constructor
  · intro h
    exact lt_of_lt_of_le (lt_two_pow_bitlen v) (Nat.pow_le_pow_right (by omega) h)
  · intro h
    by_contra hc
    rcases Nat.eq_zero_or_pos v with rfl | hv
    · simp at hc
    · have h1 := two_pow_le_of_pos hv
      have h2 : (2 : Nat) ^ n ≤ 2 ^ (bitlen v - 1) := Nat.pow_le_pow_right (by omega) (by omega)
      omega

theorem ceilDiv_mul_ge (a : Nat) {b : Nat} (hb : 0 < b) : a ≤ ceilDiv a b * b := by
  unfold ceilDiv
  have h := Nat.div_add_mod (a + (b - 1)) b
  have h2 := Nat.mod_lt (a + (b - 1)) hb
  rw [Nat.mul_comm] at h
  omega

/-! ### imod -/

theorem imod_cast (a : Int) {m : Nat} (hm : 0 < m) : (imod a m : Int) = a % (m : Int) := by
  unfold imod
  have h : (0 : Int) ≤ a % (m : Int) := Int.emod_nonneg _ (by omega)
  exact Int.toNat_of_nonneg h

theorem imod_lt (a : Int) {m : Nat} (hm : 0 < m) : imod a m < m := by
  have h1 := imod_cast a hm
  have h2 : a % (m : Int) < (m : Int) := Int.emod_lt_of_pos a (by omega)
  omega

/-- imod is the residue: what it represents modulo m. -/
theorem imod_zmod (a : Int) {m : Nat} (hm : 0 < m) : ((imod a m : Nat) : ZMod m) = (a : ZMod m) := by
  have h := imod_cast a hm
  have h2 : ((imod a m : Nat) : ZMod m) = (((imod a m : Nat) : Int) : ZMod m) := by simp
  rw [h2, h]
  simp

theorem imod_natCast (a m : Nat) : imod (Int.ofNat a) m = a % m := by
  unfold imod
  rfl

/-! ### Euclid and the inverse -/

theorem euclid_spec (m a : Nat) : ∀ fuel r0 r1 t0 t1 : Nat, r1 < r0 → r0 * r1 < 2 ^ fuel → t0 < m → (r1 ≠ 0 → t1 < m) →
    r0 ≡ t0 * a [MOD m] → r1 ≡ t1 * a [MOD m] →
    euclid m fuel r0 r1 t0 t1 < m ∧ euclid m fuel r0 r1 t0 t1 * a ≡ Nat.gcd r0 r1 [MOD m] := by
  intro fuel
  induction fuel with
  | zero =>
    intro r0 r1 t0 t1 h01 hf ht0 _ h0 _
    have hr : r1 = 0 := by
      rcases Nat.eq_zero_or_pos r1 with h | h
      · exact h
      · have := Nat.mul_pos (by omega : 0 < r0) h
        simp at hf
        omega
    subst hr
    simpa [euclid, ht0] using h0.symm
  | succ n ih =>
    intro r0 r1 t0 t1 h01 hf ht0 ht1 h0 h1
    unfold euclid
    split
    · next hr =>
      subst hr
      simpa [ht0] using h0.symm
    · next hr =>
      have hpos : 0 < r1 := by omega
      have hmod := Nat.mod_lt r0 hpos
      have hdiv := Nat.div_add_mod r0 r1
      have hq : 1 ≤ r0 / r1 := (Nat.one_le_div_iff hpos).2 (by omega)
      have hr1q : r1 ≤ r1 * (r0 / r1) := Nat.le_mul_of_pos_right _ hq
      have hm : 0 < m := by omega
      have hsmall : r1 * (r0 % r1) < 2 ^ n := by
        have h2 : 2 * (r0 % r1) < r0 := by omega
        have h3 : r1 * (2 * (r0 % r1)) < r1 * r0 := Nat.mul_lt_mul_of_pos_left h2 hpos
        rw [pow_succ] at hf
        nlinarith
      have hstep : r0 % r1 ≡ (t0 + (m - r0 / r1 * t1 % m)) % m * a [MOD m] := by
        have hle : r0 / r1 * t1 % m ≤ m := (Nat.mod_lt _ hm).le
        have e1 : (((r0 % r1 : Nat) : ZMod m)) = (r0 : ZMod m) - r1 * ((r0 / r1 : Nat) : ZMod m) := by
          have := congrArg (Nat.cast : Nat → ZMod m) hdiv
          push_cast at this
          rw [← this]; ring
        have c0 : (r0 : ZMod m) = t0 * a := by
          simpa using (ZMod.natCast_eq_natCast_iff _ _ m).2 h0
        have c1 : (r1 : ZMod m) = t1 * a := by
          simpa using (ZMod.natCast_eq_natCast_iff _ _ m).2 h1
        have c2 : ((m - r0 / r1 * t1 % m : Nat) : ZMod m) = -(((r0 / r1 : Nat) : ZMod m) * t1) := by
          rw [Nat.cast_sub hle]
          simp
        apply (ZMod.natCast_eq_natCast_iff _ _ m).1
        rw [e1, c0, c1]
        simp only [Nat.cast_mul, ZMod.natCast_mod, Nat.cast_add, c2]
        ring
      have := ih r1 (r0 % r1) t1 _ hmod hsmall (ht1 hr) (fun _ => Nat.mod_lt _ hm) h1 hstep
      refine ⟨this.1, this.2.trans ?_⟩
      have hg : Nat.gcd r1 (r0 % r1) = Nat.gcd r0 r1 := by
        rw [Nat.gcd_comm r1, ← Nat.gcd_rec, Nat.gcd_comm]
      rw [hg]

/-- inv succeeds exactly as R132 says: the inverse of a residue coprime to m. -/
theorem inv_ok {a m : Nat} (hm : 2 ≤ m) (ha : a < m) (hg : Nat.gcd a m = 1) :
    ∃ t, inv a m = .ok t ∧ t < m ∧ a * t % m = 1 := by
  refine ⟨euclid m (2 * bitlen m + 2) m a 0 1, by simp [inv, hg], ?_⟩
  have hlt := lt_two_pow_bitlen m
  have hfuel : m * a < 2 ^ (2 * bitlen m + 2) := by
    have h1 : m * a < 2 ^ bitlen m * 2 ^ bitlen m := by nlinarith
    calc m * a < 2 ^ bitlen m * 2 ^ bitlen m := h1
      _ = 2 ^ (2 * bitlen m) := by rw [two_mul, pow_add]
      _ ≤ 2 ^ (2 * bitlen m + 2) := Nat.pow_le_pow_right (by omega) (by omega)
  have h := euclid_spec m a (2 * bitlen m + 2) m a 0 1 ha hfuel (by omega) (fun _ => by omega)
    (by simp [Nat.ModEq]) (by simp [Nat.ModEq])
  refine ⟨h.1, ?_⟩
  have h2 := h.2
  rw [Nat.gcd_comm, hg] at h2
  rw [Nat.mul_comm]
  have h3 : euclid m (2 * bitlen m + 2) m a 0 1 * a % m = 1 % m := h2
  rwa [Nat.mod_eq_of_lt (by omega : 1 < m)] at h3

theorem inv_error {a m : Nat} (hg : Nat.gcd a m ≠ 1) : inv a m = .error .notInvertible := by simp [inv, hg]

/-- Everything inv can do: for any arguments it answers the error only when gcd(a, m) ≠ 1. -/
theorem inv_eq_error_iff {a m : Nat} {e : ErrCode} : inv a m = .error e ↔ e = .notInvertible ∧ Nat.gcd a m ≠ 1 := by
  unfold inv
  split <;> simp_all [eq_comm]

/-- What inv answers is the inverse. -/
theorem inv_spec {a m t : Nat} (hm : 2 ≤ m) (ha : a < m) (h : inv a m = .ok t) : t < m ∧ a * t % m = 1 := by
  by_cases hg : Nat.gcd a m = 1
  · obtain ⟨t', h', ht⟩ := inv_ok hm ha hg
    rw [h] at h'
    cases h'
    exact ht
  · rw [inv_error hg] at h
    cases h

/-- The inverse is unique (R132): a·(t' · (a·t)) read both ways. -/
theorem inverse_unique {a m t t' : Nat} (ht : t < m) (ht' : t' < m) (h : a * t % m = 1) (h' : a * t' % m = 1) : t = t' := by
  have e1 : t * (a * t') % m = t := by
    rw [Nat.mul_mod, h', Nat.mul_one, Nat.mod_mod, Nat.mod_eq_of_lt ht]
  have e2 : t' * (a * t) % m = t' := by
    rw [Nat.mul_mod, h, Nat.mul_one, Nat.mod_mod, Nat.mod_eq_of_lt ht']
  have e : t * (a * t') = t' * (a * t) := by ring
  rw [e] at e1
  exact e1.symm.trans e2

/-! ### The Montgomery radix -/

theorem lt_radix (m : Nat) : m < radix m := by
  have h1 : bitlen m ≤ radixBits m := by
    have := ceilDiv_mul_ge (bitlen m) (by omega : 0 < 64)
    unfold radixBits
    omega
  have h2 : m < 2 ^ radixBits m := lt_of_lt_of_le (lt_two_pow_bitlen m) (Nat.pow_le_pow_right (by omega) h1)
  exact h2

/-- R is invertible modulo an odd M (R131). -/
theorem radix_coprime {m : Nat} (h : m % 2 = 1) : Nat.Coprime (radix m % m) m := by
  have : Nat.Coprime (radix m) m := by
    show Nat.Coprime (2 ^ radixBits m) m
    exact Nat.Coprime.pow_left _ ((Nat.coprime_two_left (n := m)).2 (Nat.odd_iff.2 h))
  unfold Nat.Coprime at *
  rw [← Nat.gcd_rec, Nat.gcd_comm]
  exact this

/-- Everything the Montgomery product can do for an odd M: r with r·R ≡ a·b (R136). -/
theorem montgomery_ok {m : Nat} (hm : 2 ≤ m) (ho : m % 2 = 1) (a b : Nat) :
    ∃ r, montgomery a b m = .ok r ∧ r < m ∧ r * radix m % m = a * b % m := by
  obtain ⟨t, ht, hlt, hti⟩ := inv_ok hm (Nat.mod_lt (radix m) (by omega)) (radix_coprime ho)
  refine ⟨a * b * t % m, by simp [montgomery, ho, ht, bind, Except.bind, pure, Except.pure], Nat.mod_lt _ (by omega), ?_⟩
  have h1 : radix m * t ≡ 1 [MOD m] := by
    have : radix m % m * t ≡ radix m * t [MOD m] := Nat.ModEq.mul_right t (Nat.mod_modEq _ _)
    refine this.symm.trans ?_
    rw [Nat.ModEq, hti, Nat.mod_eq_of_lt (by omega)]
  have h2 : a * b * t % m * radix m ≡ a * b [MOD m] := by
    have : a * b * t % m * radix m ≡ a * b * t * radix m [MOD m] := Nat.ModEq.mul_right _ (Nat.mod_modEq _ _)
    refine this.trans ?_
    have h3 : a * b * (radix m * t) ≡ a * b * 1 [MOD m] := Nat.ModEq.mul_left _ h1
    have e : a * b * t * radix m = a * b * (radix m * t) := by ring
    rw [e]
    simpa using h3
  exact h2

theorem montgomery_even {m : Nat} (h : m % 2 = 0) (a b : Nat) : montgomery a b m = .error .notInvertible := by
  simp [montgomery, h]

/-! ### The same facts with the width named -/

/-- The bit length of v > 0 is the one width it fills. -/
theorem bitlen_eq {v n : Nat} (h0 : 0 < v) (h1 : v < 2 ^ n) (h2 : n = 0 ∨ 2 ^ (n - 1) ≤ v) : bitlen v = n := by
  have a := (bitlen_le_iff v n).2 h1
  rcases h2 with rfl | h2
  · simp at h1; omega
  · by_contra hc
    have := (bitlen_le_iff v (n - 1)).1 (by omega)
    omega

/-- The Montgomery radix is 2^(64·L) for the least number L of limbs that hold M (R131). -/
theorem radix_eq {M L : Nat} (h : 0 < M) (h1 : M < 2 ^ (64 * L)) (h2 : 2 ^ (64 * (L - 1)) ≤ M) : radix M = 2 ^ (64 * L) := by
  have a := (bitlen_le_iff M (64 * L)).2 h1
  have b := bitlen_pos h
  have c : 64 * (L - 1) < bitlen M := by
    by_contra hc
    have := (bitlen_le_iff M (64 * (L - 1))).1 (by omega)
    omega
  have e : radixBits M = 64 * L := by unfold radixBits ceilDiv; omega
  unfold radix
  rw [e]
  rfl

/-- A difference is what gives the minuend back (R134). -/
theorem imod_sub_spec {a b M : Nat} (hM : 0 < M) (ha : a < M) :
    imod (Int.ofNat a - Int.ofNat b) M < M ∧ (imod (Int.ofNat a - Int.ofNat b) M + b) % M = a := by
  refine ⟨imod_lt _ hM, ?_⟩
  have : ((imod (Int.ofNat a - Int.ofNat b) M + b : Nat) : Int) % M = a := by
    push_cast
    rw [imod_cast _ hM]
    simp only [Int.ofNat_eq_natCast, Int.emod_add_emod, sub_add_cancel]
    exact Int.emod_eq_of_lt (by omega) (by omega)
  exact_mod_cast this

/-- The residue has the gcd with m that the integer has. -/
theorem gcd_imod (a : Int) {m : Nat} (hm : 0 < m) : Nat.gcd (imod a m) m = Int.gcd a m := by
  have h : Nat.gcd (imod a m) m = Int.gcd ((imod a m : Nat) : Int) (m : Int) := by simp [Int.gcd]
  rw [h, imod_cast a hm]
  exact Int.gcd_emod _ _

end Sys2Proof.Machine
end

