-- ==== Sys2Proof/Laws/Decode.lean ====
section
/-! SUPPORT. Fields and words say the same, and the opcode table read both ways. -/

namespace Sys2Proof

@[simp] theorem Fields.ofWord_toWord (f : Fields) : Fields.ofWord f.toWord = f := by
  obtain ⟨op, d, a, b, c, m, rsv⟩ := f
  simp only [Fields.ofWord, Fields.toWord, Fields.mk.injEq]
  refine ⟨?_, ?_, ?_, ?_, ?_, ?_, ?_⟩ <;> apply BitVec.eq_of_getLsbD_eq <;> intro i hi <;>
    simp only [BitVec.getLsbD_extractLsb', BitVec.getLsbD_append]
  all_goals repeat' split
  all_goals first | omega | (simp only [hi, decide_true, Bool.true_and]; congr 1; omega)

@[simp] theorem Fields.toWord_ofWord (w : Word) : (Fields.ofWord w).toWord = w := by
  apply BitVec.eq_of_getLsbD_eq
  intro i hi
  simp only [Fields.ofWord, Fields.toWord, BitVec.getLsbD_append, BitVec.getLsbD_extractLsb']
  repeat' split
  all_goals
    rw [show ∀ (x y : Bool), x = true → (x && y) = y from fun x y h => by simp [h]]
    · congr 1; omega
    · simp only [decide_eq_true_eq]; omega

theorem Opcode.mem_all (o : Opcode) : o ∈ Opcode.all := by cases o <;> decide

@[simp] theorem Opcode.ofCode_code (o : Opcode) : Opcode.ofCode o.code = some o := by cases o <;> rfl

theorem Opcode.code_of_ofCode {v : BitVec 8} {o : Opcode} (h : Opcode.ofCode v = some o) : o.code = v := by
  simpa using List.find?_some h

theorem Opcode.ofCode_none {v : BitVec 8} (h : Opcode.ofCode v = none) (o : Opcode) : o.code ≠ v := by
  intro e
  rw [← e, Opcode.ofCode_code] at h
  cases h

theorem Opcode.code_injective {o o' : Opcode} (h : o.code = o'.code) : o = o' := by
  have := congrArg Opcode.ofCode h
  simpa using this

@[simp] theorem Instr.fields_op (i : Instr) : i.fields.op = i.opcode.code := by cases i <;> rfl

@[simp] theorem fieldOfX_xOfField (v : BitVec 4) : fieldOfX (xOfField v) = v := rfl

@[simp] theorem xOfField_fieldOfX (i : XReg) : xOfField (fieldOfX i) = i := rfl

@[simp] theorem pOfField_fieldOfP (i : PReg) : pOfField (fieldOfP i) = i := by
  revert i; decide

theorem fieldOfP_pOfField {v : BitVec 4} (h : v.getLsbD 3 = false) : fieldOfP (pOfField v) = v := by
  revert v; decide

@[simp] theorem fieldOfP_bit (i : PReg) : (fieldOfP i).getLsbD 3 = false := by
  revert i; decide

@[simp] theorem fieldOfP_getElem (i : PReg) : (fieldOfP i)[3] = false := by
  revert i; decide

@[simp] theorem modOfField_fieldOfMod (m : ModSel) : modOfField (fieldOfMod m) = m := by cases m <;> rfl

@[simp] theorem fieldOfMod_modOfField (v : BitVec 1) : fieldOfMod (modOfField v) = v := by
  revert v; decide

@[simp] theorem curveOfField_fieldOfCurve (k : CurveId) : curveOfField (fieldOfCurve k) = k := by cases k <;> rfl

theorem fieldOfCurve_curveOfField {v : BitVec 4} (h : v.toNat ≤ 2) : fieldOfCurve (curveOfField v) = v := by
  revert v; decide

/-- Everything the decoder can answer. -/
theorem decode_cases (w : Word) :
    (∃ o, Opcode.ofCode (Fields.ofWord w).op = some o ∧ (Fields.ofWord w).wellFormed o = true ∧
      decode w = .command ((Fields.ofWord w).toInstr o)) ∨
    (Opcode.ofCode (Fields.ofWord w).op = none ∧ decode w = .illegalOpcode) ∨
    (∃ o, Opcode.ofCode (Fields.ofWord w).op = some o ∧ (Fields.ofWord w).wellFormed o = false ∧ decode w = .illegalOperand) := by
  cases h : Opcode.ofCode (Fields.ofWord w).op with
  | none => exact .inr (.inl ⟨rfl, by simp only [decode, h]⟩)
  | some o =>
    cases hf : (Fields.ofWord w).wellFormed o
    · exact .inr (.inr ⟨o, rfl, hf, by simp [decode, h, hf]⟩)
    · exact .inl ⟨o, rfl, hf, by simp [decode, h, hf]⟩

/-! ### Fields, words and commands -/

theorem Fields.toWord_inj {f g : Fields} (h : f.toWord = g.toWord) : f = g := by
  rw [← Fields.ofWord_toWord f, h, Fields.ofWord_toWord]

/-- A mask acts field by field. -/
theorem Fields.ofWord_and (v w : Word) :
    Fields.ofWord (v &&& w) =
      { op := (Fields.ofWord v).op &&& (Fields.ofWord w).op, d := (Fields.ofWord v).d &&& (Fields.ofWord w).d
        a := (Fields.ofWord v).a &&& (Fields.ofWord w).a, b := (Fields.ofWord v).b &&& (Fields.ofWord w).b
        c := (Fields.ofWord v).c &&& (Fields.ofWord w).c, m := (Fields.ofWord v).m &&& (Fields.ofWord w).m
        rsv := (Fields.ofWord v).rsv &&& (Fields.ofWord w).rsv } := by
  simp only [Fields.ofWord, BitVec.extractLsb'_and]

@[simp] theorem Instr.toInstr_fields (i : Instr) : i.fields.toInstr i.opcode = i := by
  cases i <;> simp [Instr.fields, Instr.opcode, Fields.toInstr]

@[simp] theorem Fields.opcode_toInstr (f : Fields) (o : Opcode) : (f.toInstr o).opcode = o := by cases o <;> rfl

/-- Well-formed fields are those of the command they name. -/
theorem Fields.fields_toInstr {f : Fields} {o : Opcode} (ho : o.code = f.op) (h : f.wellFormed o = true) :
    (f.toInstr o).fields = f := by
  obtain ⟨op, d, a, b, c, m, rsv⟩ := f
  subst ho
  cases o <;>
    simp_all [Fields.wellFormed, Fields.rsvZero, Fields.modLegal, Fields.operandsLegal, Opcode.form, OperandClass.legal,
      Fields.toInstr, Instr.fields, Instr.opcode, fieldOfP_pOfField, fieldOfCurve_curveOfField]

theorem fieldOfP_and (i : PReg) : fieldOfP i &&& 8#4 = 0#4 := by revert i; decide

/-- The fields of a row's mask: all of OP and RSV, M where it is not free, and the bits each operand class fixes (R88). -/
def Opcode.maskFields (o : Opcode) : Fields where
  op := 0xFF#8
  d := o.form.d.fixedBits
  a := o.form.a.fixedBits
  b := o.form.b.fixedBits
  c := o.form.c.fixedBits
  m := if o.form.mFree then 0#1 else 1#1
  rsv := 0x7F#7

theorem Opcode.code_and (o : Opcode) : o.code &&& 0xFF#8 = o.code := by cases o <;> rfl

theorem Opcode.mask_eq (o : Opcode) : o.maskMatch.mask = o.maskFields.toWord := by cases o <;> rfl

theorem Opcode.value_eq (o : Opcode) : o.maskMatch.value = Fields.toWord ⟨o.code, 0, 0, 0, 0, 0, 0⟩ := by cases o <;> rfl

/-- A command's word agrees with its row of the mask and match table (R88). -/
theorem encode_and_mask (i : Instr) : encode i &&& i.opcode.maskMatch.mask = i.opcode.maskMatch.value := by
  rw [Opcode.mask_eq, Opcode.value_eq, ← Fields.toWord_ofWord (encode i &&& _), Fields.ofWord_and, encode, Fields.ofWord_toWord, Fields.ofWord_toWord]
  congr 1
  cases i <;>
    simp only [Instr.fields, Instr.opcode, Opcode.maskFields, Opcode.form, OperandClass.fixedBits, fieldOfP_and, BitVec.and_zero,
      Opcode.code_and, if_true, if_false, Bool.false_eq_true] <;> rfl

/-- A class other than K is legal exactly where the mask's fixed bits are 0 (R82, R88). -/
theorem OperandClass.legal_iff (cl : OperandClass) (v : BitVec 4) (h : cl ≠ .k) : cl.legal v = true ↔ v &&& cl.fixedBits = 0#4 := by
  cases cl <;> revert v <;> first
    | exact absurd rfl h
    | (simp only [OperandClass.legal, OperandClass.fixedBits]; decide)

/-- R88's mask and match say what the fields' well-formedness says, for a word with the opcode's OP. -/
theorem Opcode.match_iff_wellFormed (o : Opcode) (w : Word) (hop : w.extractLsb' 0 8 = o.code) :
    (w &&& o.maskMatch.mask = o.maskMatch.value ∧ (o = .cload → (w.extractLsb' 8 4).toNat ≤ 2)) ↔
      (Fields.ofWord w).wellFormed o = true := by
  have hD : w.extractLsb' 8 4 = (Fields.ofWord w).d := rfl
  have hO : (Fields.ofWord w).op = o.code := hop
  have e (v u : Word) : v = u ↔ Fields.ofWord v = Fields.ofWord u :=
    ⟨fun h => h ▸ rfl, fun h => by rw [← Fields.toWord_ofWord v, h, Fields.toWord_ofWord]⟩
  rw [hD, Opcode.mask_eq, Opcode.value_eq, e, Fields.ofWord_and, Fields.ofWord_toWord, Fields.ofWord_toWord]
  generalize Fields.ofWord w = f at hO ⊢
  obtain ⟨op, d, a, b, c, m, rsv⟩ := f
  simp only at hO
  subst hO
  simp only [Opcode.maskFields, Fields.mk.injEq, Fields.wellFormed, Fields.rsvZero, Fields.modLegal, Fields.operandsLegal,
    Bool.and_eq_true, Bool.or_eq_true, beq_iff_eq]
  have h2 : rsv &&& 0x7F#7 = 0 ↔ rsv = 0 := (by decide : ∀ r : BitVec 7, r &&& 0x7F#7 = 0 ↔ r = 0) rsv
  have h3 : (m &&& if o.form.mFree then 0#1 else 1#1) = 0 ↔ (o.form.mFree = true ∨ m = 0) := by
    have h4 : ∀ r : BitVec 1, (r &&& if true = true then 0#1 else 1#1) = 0 ↔ (true = true ∨ r = 0) := by decide
    have h5 : ∀ r : BitVec 1, (r &&& if false = true then 0#1 else 1#1) = 0 ↔ (false = true ∨ r = 0) := by decide
    cases o.form.mFree
    · exact h5 m
    · exact h4 m
  rw [Opcode.code_and, h2, h3]
  by_cases hc : o = .cload
  · subst hc
    have h6 : ∀ v : BitVec 4, v &&& 15#4 = 0 ↔ v = 0 := by decide
    have h7 : ∀ v : BitVec 4, v &&& 0#4 = 0 := by decide
    simp only [Opcode.form, OperandClass.fixedBits, OperandClass.legal, decide_eq_true_eq, beq_iff_eq, h6, h7]
    clear e h2 h3 h6 h7 hop hD
    tauto
  · have hk : ∀ cl ∈ [o.form.d, o.form.a, o.form.b, o.form.c], cl ≠ OperandClass.k := by
      cases o <;> simp_all [Opcode.form]
    rw [OperandClass.legal_iff _ _ (hk _ (by simp)), OperandClass.legal_iff _ _ (hk _ (by simp)),
      OperandClass.legal_iff _ _ (hk _ (by simp)), OperandClass.legal_iff _ _ (hk _ (by simp))]
    simp only [hc, false_implies, and_true, true_and]
    change _ ∧ _ ∧ _ ∧ _ ∧ _ ∧ _ ↔ _
    clear e h2 h3 hk hop hD hc
    tauto

end Sys2Proof
end

