-- ==== Sys2Proof/Laws/State.lean ====
section
/-! SUPPORT. One lemma per field per update of State, so that no later proof unfolds a record update. -/

namespace Sys2Proof.Machine

/-! ### setX -/

@[simp] theorem State.setX_pinf (s : State) (i : XReg) (v : Reg) : (s.setX i v).pinf = s.pinf := rfl
@[simp] theorem State.setX_cr (s : State) (i : XReg) (v : Reg) : (s.setX i v).cr = s.cr := rfl
@[simp] theorem State.setX_cv (s : State) (i : XReg) (v : Reg) : (s.setX i v).cv = s.cv := rfl
@[simp] theorem State.setX_clen (s : State) (i : XReg) (v : Reg) : (s.setX i v).clen = s.clen := rfl
@[simp] theorem State.setX_ie (s : State) (i : XReg) (v : Reg) : (s.setX i v).ie = s.ie := rfl
@[simp] theorem State.setX_busy (s : State) (i : XReg) (v : Reg) : (s.setX i v).busy = s.busy := rfl
@[simp] theorem State.setX_done (s : State) (i : XReg) (v : Reg) : (s.setX i v).done = s.done := rfl
@[simp] theorem State.setX_err (s : State) (i : XReg) (v : Reg) : (s.setX i v).err = s.err := rfl
@[simp] theorem State.setX_truth (s : State) (i : XReg) (v : Reg) : (s.setX i v).truth = s.truth := rfl
@[simp] theorem State.setX_busywr (s : State) (i : XReg) (v : Reg) : (s.setX i v).busywr = s.busywr := rfl
@[simp] theorem State.setX_errcode (s : State) (i : XReg) (v : Reg) : (s.setX i v).errcode = s.errcode := rfl
@[simp] theorem State.setX_lastcmd (s : State) (i : XReg) (v : Reg) : (s.setX i v).lastcmd = s.lastcmd := rfl
@[simp] theorem State.setX_schedule (s : State) (i : XReg) (v : Reg) : (s.setX i v).schedule = s.schedule := rfl
@[simp] theorem State.setX_rdata (s : State) (i : XReg) (v : Reg) : (s.setX i v).rdata = s.rdata := rfl
@[simp] theorem State.setX_entropy (s : State) (i : XReg) (v : Reg) : (s.setX i v).entropy = s.entropy := rfl
@[simp] theorem State.setX_entropyDrawn (s : State) (i : XReg) (v : Reg) : (s.setX i v).entropyDrawn = s.entropyDrawn := rfl
@[simp] theorem State.setX_busyReads (s : State) (i : XReg) (v : Reg) : (s.setX i v).busyReads = s.busyReads := rfl

/-! ### putX -/

@[simp] theorem State.putX_pinf (s : State) (i : XReg) (v : Nat) : (s.putX i v).pinf = s.pinf := rfl
@[simp] theorem State.putX_cr (s : State) (i : XReg) (v : Nat) : (s.putX i v).cr = s.cr := rfl
@[simp] theorem State.putX_cv (s : State) (i : XReg) (v : Nat) : (s.putX i v).cv = s.cv := rfl
@[simp] theorem State.putX_clen (s : State) (i : XReg) (v : Nat) : (s.putX i v).clen = s.clen := rfl
@[simp] theorem State.putX_ie (s : State) (i : XReg) (v : Nat) : (s.putX i v).ie = s.ie := rfl
@[simp] theorem State.putX_busy (s : State) (i : XReg) (v : Nat) : (s.putX i v).busy = s.busy := rfl
@[simp] theorem State.putX_done (s : State) (i : XReg) (v : Nat) : (s.putX i v).done = s.done := rfl
@[simp] theorem State.putX_err (s : State) (i : XReg) (v : Nat) : (s.putX i v).err = s.err := rfl
@[simp] theorem State.putX_truth (s : State) (i : XReg) (v : Nat) : (s.putX i v).truth = s.truth := rfl
@[simp] theorem State.putX_busywr (s : State) (i : XReg) (v : Nat) : (s.putX i v).busywr = s.busywr := rfl
@[simp] theorem State.putX_errcode (s : State) (i : XReg) (v : Nat) : (s.putX i v).errcode = s.errcode := rfl
@[simp] theorem State.putX_lastcmd (s : State) (i : XReg) (v : Nat) : (s.putX i v).lastcmd = s.lastcmd := rfl
@[simp] theorem State.putX_schedule (s : State) (i : XReg) (v : Nat) : (s.putX i v).schedule = s.schedule := rfl
@[simp] theorem State.putX_rdata (s : State) (i : XReg) (v : Nat) : (s.putX i v).rdata = s.rdata := rfl
@[simp] theorem State.putX_entropy (s : State) (i : XReg) (v : Nat) : (s.putX i v).entropy = s.entropy := rfl
@[simp] theorem State.putX_entropyDrawn (s : State) (i : XReg) (v : Nat) : (s.putX i v).entropyDrawn = s.entropyDrawn := rfl
@[simp] theorem State.putX_busyReads (s : State) (i : XReg) (v : Nat) : (s.putX i v).busyReads = s.busyReads := rfl

/-! ### setPinf -/

@[simp] theorem State.setPinf_x (s : State) (i : PReg) (b : Bool) : (s.setPinf i b).x = s.x := rfl
@[simp] theorem State.setPinf_cr (s : State) (i : PReg) (b : Bool) : (s.setPinf i b).cr = s.cr := rfl
@[simp] theorem State.setPinf_cv (s : State) (i : PReg) (b : Bool) : (s.setPinf i b).cv = s.cv := rfl
@[simp] theorem State.setPinf_clen (s : State) (i : PReg) (b : Bool) : (s.setPinf i b).clen = s.clen := rfl
@[simp] theorem State.setPinf_ie (s : State) (i : PReg) (b : Bool) : (s.setPinf i b).ie = s.ie := rfl
@[simp] theorem State.setPinf_busy (s : State) (i : PReg) (b : Bool) : (s.setPinf i b).busy = s.busy := rfl
@[simp] theorem State.setPinf_done (s : State) (i : PReg) (b : Bool) : (s.setPinf i b).done = s.done := rfl
@[simp] theorem State.setPinf_err (s : State) (i : PReg) (b : Bool) : (s.setPinf i b).err = s.err := rfl
@[simp] theorem State.setPinf_truth (s : State) (i : PReg) (b : Bool) : (s.setPinf i b).truth = s.truth := rfl
@[simp] theorem State.setPinf_busywr (s : State) (i : PReg) (b : Bool) : (s.setPinf i b).busywr = s.busywr := rfl
@[simp] theorem State.setPinf_errcode (s : State) (i : PReg) (b : Bool) : (s.setPinf i b).errcode = s.errcode := rfl
@[simp] theorem State.setPinf_lastcmd (s : State) (i : PReg) (b : Bool) : (s.setPinf i b).lastcmd = s.lastcmd := rfl
@[simp] theorem State.setPinf_schedule (s : State) (i : PReg) (b : Bool) : (s.setPinf i b).schedule = s.schedule := rfl
@[simp] theorem State.setPinf_rdata (s : State) (i : PReg) (b : Bool) : (s.setPinf i b).rdata = s.rdata := rfl
@[simp] theorem State.setPinf_entropy (s : State) (i : PReg) (b : Bool) : (s.setPinf i b).entropy = s.entropy := rfl
@[simp] theorem State.setPinf_entropyDrawn (s : State) (i : PReg) (b : Bool) : (s.setPinf i b).entropyDrawn = s.entropyDrawn := rfl
@[simp] theorem State.setPinf_busyReads (s : State) (i : PReg) (b : Bool) : (s.setPinf i b).busyReads = s.busyReads := rfl

/-! ### putPair -/

@[simp] theorem State.putPair_pinf (s : State) (i : SReg) (r t : Nat) : (s.putPair i r t).pinf = s.pinf := rfl
@[simp] theorem State.putPair_cr (s : State) (i : SReg) (r t : Nat) : (s.putPair i r t).cr = s.cr := rfl
@[simp] theorem State.putPair_cv (s : State) (i : SReg) (r t : Nat) : (s.putPair i r t).cv = s.cv := rfl
@[simp] theorem State.putPair_clen (s : State) (i : SReg) (r t : Nat) : (s.putPair i r t).clen = s.clen := rfl
@[simp] theorem State.putPair_ie (s : State) (i : SReg) (r t : Nat) : (s.putPair i r t).ie = s.ie := rfl
@[simp] theorem State.putPair_busy (s : State) (i : SReg) (r t : Nat) : (s.putPair i r t).busy = s.busy := rfl
@[simp] theorem State.putPair_done (s : State) (i : SReg) (r t : Nat) : (s.putPair i r t).done = s.done := rfl
@[simp] theorem State.putPair_err (s : State) (i : SReg) (r t : Nat) : (s.putPair i r t).err = s.err := rfl
@[simp] theorem State.putPair_truth (s : State) (i : SReg) (r t : Nat) : (s.putPair i r t).truth = s.truth := rfl
@[simp] theorem State.putPair_busywr (s : State) (i : SReg) (r t : Nat) : (s.putPair i r t).busywr = s.busywr := rfl
@[simp] theorem State.putPair_errcode (s : State) (i : SReg) (r t : Nat) : (s.putPair i r t).errcode = s.errcode := rfl
@[simp] theorem State.putPair_lastcmd (s : State) (i : SReg) (r t : Nat) : (s.putPair i r t).lastcmd = s.lastcmd := rfl
@[simp] theorem State.putPair_schedule (s : State) (i : SReg) (r t : Nat) : (s.putPair i r t).schedule = s.schedule := rfl
@[simp] theorem State.putPair_rdata (s : State) (i : SReg) (r t : Nat) : (s.putPair i r t).rdata = s.rdata := rfl
@[simp] theorem State.putPair_entropy (s : State) (i : SReg) (r t : Nat) : (s.putPair i r t).entropy = s.entropy := rfl
@[simp] theorem State.putPair_entropyDrawn (s : State) (i : SReg) (r t : Nat) : (s.putPair i r t).entropyDrawn = s.entropyDrawn := rfl
@[simp] theorem State.putPair_busyReads (s : State) (i : SReg) (r t : Nat) : (s.putPair i r t).busyReads = s.busyReads := rfl

/-! ### putPoint -/

@[simp] theorem State.putPoint_cr (s : State) (i : PReg) (p : Point) : (s.putPoint i p).cr = s.cr := by cases p <;> rfl
@[simp] theorem State.putPoint_cv (s : State) (i : PReg) (p : Point) : (s.putPoint i p).cv = s.cv := by cases p <;> rfl
@[simp] theorem State.putPoint_clen (s : State) (i : PReg) (p : Point) : (s.putPoint i p).clen = s.clen := by cases p <;> rfl
@[simp] theorem State.putPoint_ie (s : State) (i : PReg) (p : Point) : (s.putPoint i p).ie = s.ie := by cases p <;> rfl
@[simp] theorem State.putPoint_busy (s : State) (i : PReg) (p : Point) : (s.putPoint i p).busy = s.busy := by cases p <;> rfl
@[simp] theorem State.putPoint_done (s : State) (i : PReg) (p : Point) : (s.putPoint i p).done = s.done := by cases p <;> rfl
@[simp] theorem State.putPoint_err (s : State) (i : PReg) (p : Point) : (s.putPoint i p).err = s.err := by cases p <;> rfl
@[simp] theorem State.putPoint_truth (s : State) (i : PReg) (p : Point) : (s.putPoint i p).truth = s.truth := by cases p <;> rfl
@[simp] theorem State.putPoint_busywr (s : State) (i : PReg) (p : Point) : (s.putPoint i p).busywr = s.busywr := by cases p <;> rfl
@[simp] theorem State.putPoint_errcode (s : State) (i : PReg) (p : Point) : (s.putPoint i p).errcode = s.errcode := by cases p <;> rfl
@[simp] theorem State.putPoint_lastcmd (s : State) (i : PReg) (p : Point) : (s.putPoint i p).lastcmd = s.lastcmd := by cases p <;> rfl
@[simp] theorem State.putPoint_schedule (s : State) (i : PReg) (p : Point) : (s.putPoint i p).schedule = s.schedule := by cases p <;> rfl
@[simp] theorem State.putPoint_rdata (s : State) (i : PReg) (p : Point) : (s.putPoint i p).rdata = s.rdata := by cases p <;> rfl
@[simp] theorem State.putPoint_entropy (s : State) (i : PReg) (p : Point) : (s.putPoint i p).entropy = s.entropy := by cases p <;> rfl
@[simp] theorem State.putPoint_entropyDrawn (s : State) (i : PReg) (p : Point) : (s.putPoint i p).entropyDrawn = s.entropyDrawn := by cases p <;> rfl
@[simp] theorem State.putPoint_busyReads (s : State) (i : PReg) (p : Point) : (s.putPoint i p).busyReads = s.busyReads := by cases p <;> rfl

/-! ### succeed -/

@[simp] theorem State.succeed_x (s : State) (t : Bool) : (s.succeed t).x = s.x := rfl
@[simp] theorem State.succeed_pinf (s : State) (t : Bool) : (s.succeed t).pinf = s.pinf := rfl
@[simp] theorem State.succeed_cr (s : State) (t : Bool) : (s.succeed t).cr = s.cr := rfl
@[simp] theorem State.succeed_cv (s : State) (t : Bool) : (s.succeed t).cv = s.cv := rfl
@[simp] theorem State.succeed_clen (s : State) (t : Bool) : (s.succeed t).clen = s.clen := rfl
@[simp] theorem State.succeed_ie (s : State) (t : Bool) : (s.succeed t).ie = s.ie := rfl
@[simp] theorem State.succeed_busy (s : State) (t : Bool) : (s.succeed t).busy = false := rfl
@[simp] theorem State.succeed_done (s : State) (t : Bool) : (s.succeed t).done = true := rfl
@[simp] theorem State.succeed_err (s : State) (t : Bool) : (s.succeed t).err = false := rfl
@[simp] theorem State.succeed_truth (s : State) (t : Bool) : (s.succeed t).truth = t := rfl
@[simp] theorem State.succeed_busywr (s : State) (t : Bool) : (s.succeed t).busywr = s.busywr := rfl
@[simp] theorem State.succeed_errcode (s : State) (t : Bool) : (s.succeed t).errcode = 0#8 := rfl
@[simp] theorem State.succeed_lastcmd (s : State) (t : Bool) : (s.succeed t).lastcmd = s.lastcmd := rfl
@[simp] theorem State.succeed_schedule (s : State) (t : Bool) : (s.succeed t).schedule = s.schedule := rfl
@[simp] theorem State.succeed_rdata (s : State) (t : Bool) : (s.succeed t).rdata = s.rdata := rfl
@[simp] theorem State.succeed_entropy (s : State) (t : Bool) : (s.succeed t).entropy = s.entropy := rfl
@[simp] theorem State.succeed_entropyDrawn (s : State) (t : Bool) : (s.succeed t).entropyDrawn = s.entropyDrawn := rfl
@[simp] theorem State.succeed_busyReads (s : State) (t : Bool) : (s.succeed t).busyReads = s.busyReads := rfl

/-! ### takeError -/

@[simp] theorem State.takeError_x (s : State) (e : ErrCode) : (s.takeError e).x = s.x := rfl
@[simp] theorem State.takeError_pinf (s : State) (e : ErrCode) : (s.takeError e).pinf = s.pinf := rfl
@[simp] theorem State.takeError_cr (s : State) (e : ErrCode) : (s.takeError e).cr = s.cr := rfl
@[simp] theorem State.takeError_cv (s : State) (e : ErrCode) : (s.takeError e).cv = s.cv := rfl
@[simp] theorem State.takeError_clen (s : State) (e : ErrCode) : (s.takeError e).clen = s.clen := rfl
@[simp] theorem State.takeError_ie (s : State) (e : ErrCode) : (s.takeError e).ie = s.ie := rfl
@[simp] theorem State.takeError_busy (s : State) (e : ErrCode) : (s.takeError e).busy = false := rfl
@[simp] theorem State.takeError_done (s : State) (e : ErrCode) : (s.takeError e).done = true := rfl
@[simp] theorem State.takeError_err (s : State) (e : ErrCode) : (s.takeError e).err = true := rfl
@[simp] theorem State.takeError_truth (s : State) (e : ErrCode) : (s.takeError e).truth = false := rfl
@[simp] theorem State.takeError_busywr (s : State) (e : ErrCode) : (s.takeError e).busywr = s.busywr := rfl
@[simp] theorem State.takeError_errcode (s : State) (e : ErrCode) : (s.takeError e).errcode = e.code := rfl
@[simp] theorem State.takeError_lastcmd (s : State) (e : ErrCode) : (s.takeError e).lastcmd = s.lastcmd := rfl
@[simp] theorem State.takeError_schedule (s : State) (e : ErrCode) : (s.takeError e).schedule = s.schedule := rfl
@[simp] theorem State.takeError_rdata (s : State) (e : ErrCode) : (s.takeError e).rdata = s.rdata := rfl
@[simp] theorem State.takeError_entropy (s : State) (e : ErrCode) : (s.takeError e).entropy = s.entropy := rfl
@[simp] theorem State.takeError_entropyDrawn (s : State) (e : ErrCode) : (s.takeError e).entropyDrawn = s.entropyDrawn := rfl
@[simp] theorem State.takeError_busyReads (s : State) (e : ErrCode) : (s.takeError e).busyReads = s.busyReads := rfl

/-! ### accept -/

@[simp] theorem State.accept_x (s : State) (w : Word) : (s.accept w).x = s.x := rfl
@[simp] theorem State.accept_pinf (s : State) (w : Word) : (s.accept w).pinf = s.pinf := rfl
@[simp] theorem State.accept_cr (s : State) (w : Word) : (s.accept w).cr = s.cr := rfl
@[simp] theorem State.accept_cv (s : State) (w : Word) : (s.accept w).cv = s.cv := rfl
@[simp] theorem State.accept_clen (s : State) (w : Word) : (s.accept w).clen = s.clen := rfl
@[simp] theorem State.accept_ie (s : State) (w : Word) : (s.accept w).ie = s.ie := rfl
@[simp] theorem State.accept_busy (s : State) (w : Word) : (s.accept w).busy = true := rfl
@[simp] theorem State.accept_done (s : State) (w : Word) : (s.accept w).done = false := rfl
@[simp] theorem State.accept_err (s : State) (w : Word) : (s.accept w).err = false := rfl
@[simp] theorem State.accept_truth (s : State) (w : Word) : (s.accept w).truth = false := rfl
@[simp] theorem State.accept_busywr (s : State) (w : Word) : (s.accept w).busywr = s.busywr := rfl
@[simp] theorem State.accept_errcode (s : State) (w : Word) : (s.accept w).errcode = 0#8 := rfl
@[simp] theorem State.accept_lastcmd (s : State) (w : Word) : (s.accept w).lastcmd = w := rfl
@[simp] theorem State.accept_schedule (s : State) (w : Word) : (s.accept w).schedule = s.schedule := rfl
@[simp] theorem State.accept_rdata (s : State) (w : Word) : (s.accept w).rdata = s.rdata := rfl
@[simp] theorem State.accept_entropy (s : State) (w : Word) : (s.accept w).entropy = s.entropy := rfl
@[simp] theorem State.accept_entropyDrawn (s : State) (w : Word) : (s.accept w).entropyDrawn = s.entropyDrawn := rfl
@[simp] theorem State.accept_busyReads (s : State) (w : Word) : (s.accept w).busyReads = s.busyReads := rfl

/-! ### lostWrite -/

@[simp] theorem State.lostWrite_x (s : State) : (s.lostWrite).x = s.x := rfl
@[simp] theorem State.lostWrite_pinf (s : State) : (s.lostWrite).pinf = s.pinf := rfl
@[simp] theorem State.lostWrite_cr (s : State) : (s.lostWrite).cr = s.cr := rfl
@[simp] theorem State.lostWrite_cv (s : State) : (s.lostWrite).cv = s.cv := rfl
@[simp] theorem State.lostWrite_clen (s : State) : (s.lostWrite).clen = s.clen := rfl
@[simp] theorem State.lostWrite_ie (s : State) : (s.lostWrite).ie = s.ie := rfl
@[simp] theorem State.lostWrite_busy (s : State) : (s.lostWrite).busy = s.busy := rfl
@[simp] theorem State.lostWrite_done (s : State) : (s.lostWrite).done = s.done := rfl
@[simp] theorem State.lostWrite_err (s : State) : (s.lostWrite).err = s.err := rfl
@[simp] theorem State.lostWrite_truth (s : State) : (s.lostWrite).truth = s.truth := rfl
@[simp] theorem State.lostWrite_busywr (s : State) : (s.lostWrite).busywr = true := rfl
@[simp] theorem State.lostWrite_errcode (s : State) : (s.lostWrite).errcode = s.errcode := rfl
@[simp] theorem State.lostWrite_lastcmd (s : State) : (s.lostWrite).lastcmd = s.lastcmd := rfl
@[simp] theorem State.lostWrite_schedule (s : State) : (s.lostWrite).schedule = s.schedule := rfl
@[simp] theorem State.lostWrite_rdata (s : State) : (s.lostWrite).rdata = s.rdata := rfl
@[simp] theorem State.lostWrite_entropy (s : State) : (s.lostWrite).entropy = s.entropy := rfl
@[simp] theorem State.lostWrite_entropyDrawn (s : State) : (s.lostWrite).entropyDrawn = s.entropyDrawn := rfl
@[simp] theorem State.lostWrite_busyReads (s : State) : (s.lostWrite).busyReads = s.busyReads := rfl

/-! ### writeStatus -/

@[simp] theorem State.writeStatus_x (s : State) (v : Word) : (s.writeStatus v).x = s.x := rfl
@[simp] theorem State.writeStatus_pinf (s : State) (v : Word) : (s.writeStatus v).pinf = s.pinf := rfl
@[simp] theorem State.writeStatus_cr (s : State) (v : Word) : (s.writeStatus v).cr = s.cr := rfl
@[simp] theorem State.writeStatus_cv (s : State) (v : Word) : (s.writeStatus v).cv = s.cv := rfl
@[simp] theorem State.writeStatus_clen (s : State) (v : Word) : (s.writeStatus v).clen = s.clen := rfl
@[simp] theorem State.writeStatus_ie (s : State) (v : Word) : (s.writeStatus v).ie = s.ie := rfl
@[simp] theorem State.writeStatus_busy (s : State) (v : Word) : (s.writeStatus v).busy = s.busy := rfl
@[simp] theorem State.writeStatus_done (s : State) (v : Word) : (s.writeStatus v).done = (s.done && !v.getLsbD 1) := rfl
@[simp] theorem State.writeStatus_err (s : State) (v : Word) : (s.writeStatus v).err = s.err := rfl
@[simp] theorem State.writeStatus_truth (s : State) (v : Word) : (s.writeStatus v).truth = s.truth := rfl
@[simp] theorem State.writeStatus_busywr (s : State) (v : Word) : (s.writeStatus v).busywr = (s.busywr && !v.getLsbD 5) := rfl
@[simp] theorem State.writeStatus_errcode (s : State) (v : Word) : (s.writeStatus v).errcode = s.errcode := rfl
@[simp] theorem State.writeStatus_lastcmd (s : State) (v : Word) : (s.writeStatus v).lastcmd = s.lastcmd := rfl
@[simp] theorem State.writeStatus_schedule (s : State) (v : Word) : (s.writeStatus v).schedule = s.schedule := rfl
@[simp] theorem State.writeStatus_rdata (s : State) (v : Word) : (s.writeStatus v).rdata = s.rdata := rfl
@[simp] theorem State.writeStatus_entropy (s : State) (v : Word) : (s.writeStatus v).entropy = s.entropy := rfl
@[simp] theorem State.writeStatus_entropyDrawn (s : State) (v : Word) : (s.writeStatus v).entropyDrawn = s.entropyDrawn := rfl
@[simp] theorem State.writeStatus_busyReads (s : State) (v : Word) : (s.writeStatus v).busyReads = s.busyReads := rfl

/-! ### writePinf -/

@[simp] theorem State.writePinf_x (s : State) (v : Word) : (s.writePinf v).x = s.x := rfl
@[simp] theorem State.writePinf_pinf (s : State) (v : Word) : (s.writePinf v).pinf = v.extractLsb' 0 8 := rfl
@[simp] theorem State.writePinf_cr (s : State) (v : Word) : (s.writePinf v).cr = s.cr := rfl
@[simp] theorem State.writePinf_cv (s : State) (v : Word) : (s.writePinf v).cv = s.cv := rfl
@[simp] theorem State.writePinf_clen (s : State) (v : Word) : (s.writePinf v).clen = s.clen := rfl
@[simp] theorem State.writePinf_ie (s : State) (v : Word) : (s.writePinf v).ie = s.ie := rfl
@[simp] theorem State.writePinf_busy (s : State) (v : Word) : (s.writePinf v).busy = s.busy := rfl
@[simp] theorem State.writePinf_done (s : State) (v : Word) : (s.writePinf v).done = s.done := rfl
@[simp] theorem State.writePinf_err (s : State) (v : Word) : (s.writePinf v).err = s.err := rfl
@[simp] theorem State.writePinf_truth (s : State) (v : Word) : (s.writePinf v).truth = s.truth := rfl
@[simp] theorem State.writePinf_busywr (s : State) (v : Word) : (s.writePinf v).busywr = s.busywr := rfl
@[simp] theorem State.writePinf_errcode (s : State) (v : Word) : (s.writePinf v).errcode = s.errcode := rfl
@[simp] theorem State.writePinf_lastcmd (s : State) (v : Word) : (s.writePinf v).lastcmd = s.lastcmd := rfl
@[simp] theorem State.writePinf_schedule (s : State) (v : Word) : (s.writePinf v).schedule = s.schedule := rfl
@[simp] theorem State.writePinf_rdata (s : State) (v : Word) : (s.writePinf v).rdata = s.rdata := rfl
@[simp] theorem State.writePinf_entropy (s : State) (v : Word) : (s.writePinf v).entropy = s.entropy := rfl
@[simp] theorem State.writePinf_entropyDrawn (s : State) (v : Word) : (s.writePinf v).entropyDrawn = s.entropyDrawn := rfl
@[simp] theorem State.writePinf_busyReads (s : State) (v : Word) : (s.writePinf v).busyReads = s.busyReads := rfl

/-! ### writeX -/

@[simp] theorem State.writeX_pinf (s : State) (i : XReg) (j : Fin 12) (v : Word) : (s.writeX i j v).pinf = s.pinf := rfl
@[simp] theorem State.writeX_cr (s : State) (i : XReg) (j : Fin 12) (v : Word) : (s.writeX i j v).cr = s.cr := rfl
@[simp] theorem State.writeX_cv (s : State) (i : XReg) (j : Fin 12) (v : Word) : (s.writeX i j v).cv = s.cv := rfl
@[simp] theorem State.writeX_clen (s : State) (i : XReg) (j : Fin 12) (v : Word) : (s.writeX i j v).clen = s.clen := rfl
@[simp] theorem State.writeX_ie (s : State) (i : XReg) (j : Fin 12) (v : Word) : (s.writeX i j v).ie = s.ie := rfl
@[simp] theorem State.writeX_busy (s : State) (i : XReg) (j : Fin 12) (v : Word) : (s.writeX i j v).busy = s.busy := rfl
@[simp] theorem State.writeX_done (s : State) (i : XReg) (j : Fin 12) (v : Word) : (s.writeX i j v).done = s.done := rfl
@[simp] theorem State.writeX_err (s : State) (i : XReg) (j : Fin 12) (v : Word) : (s.writeX i j v).err = s.err := rfl
@[simp] theorem State.writeX_truth (s : State) (i : XReg) (j : Fin 12) (v : Word) : (s.writeX i j v).truth = s.truth := rfl
@[simp] theorem State.writeX_busywr (s : State) (i : XReg) (j : Fin 12) (v : Word) : (s.writeX i j v).busywr = s.busywr := rfl
@[simp] theorem State.writeX_errcode (s : State) (i : XReg) (j : Fin 12) (v : Word) : (s.writeX i j v).errcode = s.errcode := rfl
@[simp] theorem State.writeX_lastcmd (s : State) (i : XReg) (j : Fin 12) (v : Word) : (s.writeX i j v).lastcmd = s.lastcmd := rfl
@[simp] theorem State.writeX_schedule (s : State) (i : XReg) (j : Fin 12) (v : Word) : (s.writeX i j v).schedule = s.schedule := rfl
@[simp] theorem State.writeX_rdata (s : State) (i : XReg) (j : Fin 12) (v : Word) : (s.writeX i j v).rdata = s.rdata := rfl
@[simp] theorem State.writeX_entropy (s : State) (i : XReg) (j : Fin 12) (v : Word) : (s.writeX i j v).entropy = s.entropy := rfl
@[simp] theorem State.writeX_entropyDrawn (s : State) (i : XReg) (j : Fin 12) (v : Word) : (s.writeX i j v).entropyDrawn = s.entropyDrawn := rfl
@[simp] theorem State.writeX_busyReads (s : State) (i : XReg) (j : Fin 12) (v : Word) : (s.writeX i j v).busyReads = s.busyReads := rfl

/-! ### writeCurve -/

@[simp] theorem State.writeCurve_x (s : State) (c : CurveReg) (j : Fin 12) (v : Word) : (s.writeCurve c j v).x = s.x := rfl
@[simp] theorem State.writeCurve_pinf (s : State) (c : CurveReg) (j : Fin 12) (v : Word) : (s.writeCurve c j v).pinf = s.pinf := rfl
@[simp] theorem State.writeCurve_cr (s : State) (c : CurveReg) (j : Fin 12) (v : Word) : (s.writeCurve c j v).cr = s.cr.set (setWord (s.cr.get c) j v) c := rfl
@[simp] theorem State.writeCurve_cv (s : State) (c : CurveReg) (j : Fin 12) (v : Word) : (s.writeCurve c j v).cv = false := rfl
@[simp] theorem State.writeCurve_clen (s : State) (c : CurveReg) (j : Fin 12) (v : Word) : (s.writeCurve c j v).clen = 0#8 := rfl
@[simp] theorem State.writeCurve_ie (s : State) (c : CurveReg) (j : Fin 12) (v : Word) : (s.writeCurve c j v).ie = s.ie := rfl
@[simp] theorem State.writeCurve_busy (s : State) (c : CurveReg) (j : Fin 12) (v : Word) : (s.writeCurve c j v).busy = s.busy := rfl
@[simp] theorem State.writeCurve_done (s : State) (c : CurveReg) (j : Fin 12) (v : Word) : (s.writeCurve c j v).done = s.done := rfl
@[simp] theorem State.writeCurve_err (s : State) (c : CurveReg) (j : Fin 12) (v : Word) : (s.writeCurve c j v).err = s.err := rfl
@[simp] theorem State.writeCurve_truth (s : State) (c : CurveReg) (j : Fin 12) (v : Word) : (s.writeCurve c j v).truth = s.truth := rfl
@[simp] theorem State.writeCurve_busywr (s : State) (c : CurveReg) (j : Fin 12) (v : Word) : (s.writeCurve c j v).busywr = s.busywr := rfl
@[simp] theorem State.writeCurve_errcode (s : State) (c : CurveReg) (j : Fin 12) (v : Word) : (s.writeCurve c j v).errcode = s.errcode := rfl
@[simp] theorem State.writeCurve_lastcmd (s : State) (c : CurveReg) (j : Fin 12) (v : Word) : (s.writeCurve c j v).lastcmd = s.lastcmd := rfl
@[simp] theorem State.writeCurve_schedule (s : State) (c : CurveReg) (j : Fin 12) (v : Word) : (s.writeCurve c j v).schedule = s.schedule := rfl
@[simp] theorem State.writeCurve_rdata (s : State) (c : CurveReg) (j : Fin 12) (v : Word) : (s.writeCurve c j v).rdata = s.rdata := rfl
@[simp] theorem State.writeCurve_entropy (s : State) (c : CurveReg) (j : Fin 12) (v : Word) : (s.writeCurve c j v).entropy = s.entropy := rfl
@[simp] theorem State.writeCurve_entropyDrawn (s : State) (c : CurveReg) (j : Fin 12) (v : Word) : (s.writeCurve c j v).entropyDrawn = s.entropyDrawn := rfl
@[simp] theorem State.writeCurve_busyReads (s : State) (c : CurveReg) (j : Fin 12) (v : Word) : (s.writeCurve c j v).busyReads = s.busyReads := rfl

/-! ### validate -/

@[simp] theorem State.validate_x (s : State) (c : CurveVal) : (s.validate c).x = s.x := rfl
@[simp] theorem State.validate_pinf (s : State) (c : CurveVal) : (s.validate c).pinf = s.pinf := rfl
@[simp] theorem State.validate_cr (s : State) (c : CurveVal) : (s.validate c).cr = s.cr := rfl
@[simp] theorem State.validate_cv (s : State) (c : CurveVal) : (s.validate c).cv = true := rfl
@[simp] theorem State.validate_clen (s : State) (c : CurveVal) : (s.validate c).clen = BitVec.ofNat 8 (curveLen c) := rfl
@[simp] theorem State.validate_ie (s : State) (c : CurveVal) : (s.validate c).ie = s.ie := rfl
@[simp] theorem State.validate_busy (s : State) (c : CurveVal) : (s.validate c).busy = s.busy := rfl
@[simp] theorem State.validate_done (s : State) (c : CurveVal) : (s.validate c).done = s.done := rfl
@[simp] theorem State.validate_err (s : State) (c : CurveVal) : (s.validate c).err = s.err := rfl
@[simp] theorem State.validate_truth (s : State) (c : CurveVal) : (s.validate c).truth = s.truth := rfl
@[simp] theorem State.validate_busywr (s : State) (c : CurveVal) : (s.validate c).busywr = s.busywr := rfl
@[simp] theorem State.validate_errcode (s : State) (c : CurveVal) : (s.validate c).errcode = s.errcode := rfl
@[simp] theorem State.validate_lastcmd (s : State) (c : CurveVal) : (s.validate c).lastcmd = s.lastcmd := rfl
@[simp] theorem State.validate_schedule (s : State) (c : CurveVal) : (s.validate c).schedule = s.schedule := rfl
@[simp] theorem State.validate_rdata (s : State) (c : CurveVal) : (s.validate c).rdata = s.rdata := rfl
@[simp] theorem State.validate_entropy (s : State) (c : CurveVal) : (s.validate c).entropy = s.entropy := rfl
@[simp] theorem State.validate_entropyDrawn (s : State) (c : CurveVal) : (s.validate c).entropyDrawn = s.entropyDrawn := rfl
@[simp] theorem State.validate_busyReads (s : State) (c : CurveVal) : (s.validate c).busyReads = s.busyReads := rfl

/-! ### loadCurve -/

@[simp] theorem State.loadCurve_x (s : State) (c : CurveVal) : (s.loadCurve c).x = s.x := rfl
@[simp] theorem State.loadCurve_pinf (s : State) (c : CurveVal) : (s.loadCurve c).pinf = s.pinf := rfl
@[simp] theorem State.loadCurve_cr (s : State) (c : CurveVal) : (s.loadCurve c).cr = CurveRegs.ofVal c := rfl
@[simp] theorem State.loadCurve_cv (s : State) (c : CurveVal) : (s.loadCurve c).cv = s.cv := rfl
@[simp] theorem State.loadCurve_clen (s : State) (c : CurveVal) : (s.loadCurve c).clen = s.clen := rfl
@[simp] theorem State.loadCurve_ie (s : State) (c : CurveVal) : (s.loadCurve c).ie = s.ie := rfl
@[simp] theorem State.loadCurve_busy (s : State) (c : CurveVal) : (s.loadCurve c).busy = s.busy := rfl
@[simp] theorem State.loadCurve_done (s : State) (c : CurveVal) : (s.loadCurve c).done = s.done := rfl
@[simp] theorem State.loadCurve_err (s : State) (c : CurveVal) : (s.loadCurve c).err = s.err := rfl
@[simp] theorem State.loadCurve_truth (s : State) (c : CurveVal) : (s.loadCurve c).truth = s.truth := rfl
@[simp] theorem State.loadCurve_busywr (s : State) (c : CurveVal) : (s.loadCurve c).busywr = s.busywr := rfl
@[simp] theorem State.loadCurve_errcode (s : State) (c : CurveVal) : (s.loadCurve c).errcode = s.errcode := rfl
@[simp] theorem State.loadCurve_lastcmd (s : State) (c : CurveVal) : (s.loadCurve c).lastcmd = s.lastcmd := rfl
@[simp] theorem State.loadCurve_schedule (s : State) (c : CurveVal) : (s.loadCurve c).schedule = s.schedule := rfl
@[simp] theorem State.loadCurve_rdata (s : State) (c : CurveVal) : (s.loadCurve c).rdata = s.rdata := rfl
@[simp] theorem State.loadCurve_entropy (s : State) (c : CurveVal) : (s.loadCurve c).entropy = s.entropy := rfl
@[simp] theorem State.loadCurve_entropyDrawn (s : State) (c : CurveVal) : (s.loadCurve c).entropyDrawn = s.entropyDrawn := rfl
@[simp] theorem State.loadCurve_busyReads (s : State) (c : CurveVal) : (s.loadCurve c).busyReads = s.busyReads := rfl

/-! ### drawn -/

@[simp] theorem State.drawn_x (s : State) (k : Nat) : (s.drawn k).x = s.x := rfl
@[simp] theorem State.drawn_pinf (s : State) (k : Nat) : (s.drawn k).pinf = s.pinf := rfl
@[simp] theorem State.drawn_cr (s : State) (k : Nat) : (s.drawn k).cr = s.cr := rfl
@[simp] theorem State.drawn_cv (s : State) (k : Nat) : (s.drawn k).cv = s.cv := rfl
@[simp] theorem State.drawn_clen (s : State) (k : Nat) : (s.drawn k).clen = s.clen := rfl
@[simp] theorem State.drawn_ie (s : State) (k : Nat) : (s.drawn k).ie = s.ie := rfl
@[simp] theorem State.drawn_busy (s : State) (k : Nat) : (s.drawn k).busy = s.busy := rfl
@[simp] theorem State.drawn_done (s : State) (k : Nat) : (s.drawn k).done = s.done := rfl
@[simp] theorem State.drawn_err (s : State) (k : Nat) : (s.drawn k).err = s.err := rfl
@[simp] theorem State.drawn_truth (s : State) (k : Nat) : (s.drawn k).truth = s.truth := rfl
@[simp] theorem State.drawn_busywr (s : State) (k : Nat) : (s.drawn k).busywr = s.busywr := rfl
@[simp] theorem State.drawn_errcode (s : State) (k : Nat) : (s.drawn k).errcode = s.errcode := rfl
@[simp] theorem State.drawn_lastcmd (s : State) (k : Nat) : (s.drawn k).lastcmd = s.lastcmd := rfl
@[simp] theorem State.drawn_schedule (s : State) (k : Nat) : (s.drawn k).schedule = s.schedule := rfl
@[simp] theorem State.drawn_rdata (s : State) (k : Nat) : (s.drawn k).rdata = s.rdata := rfl
@[simp] theorem State.drawn_entropy (s : State) (k : Nat) : (s.drawn k).entropy = s.entropy.drop k := rfl
@[simp] theorem State.drawn_entropyDrawn (s : State) (k : Nat) : (s.drawn k).entropyDrawn = s.entropyDrawn + k := rfl
@[simp] theorem State.drawn_busyReads (s : State) (k : Nat) : (s.drawn k).busyReads = s.busyReads := rfl

/-! ### coreReset -/

@[simp] theorem State.coreReset_x (s : State) : (s.coreReset).x = State.reset.x := rfl
@[simp] theorem State.coreReset_pinf (s : State) : (s.coreReset).pinf = State.reset.pinf := rfl
@[simp] theorem State.coreReset_cr (s : State) : (s.coreReset).cr = State.reset.cr := rfl
@[simp] theorem State.coreReset_cv (s : State) : (s.coreReset).cv = State.reset.cv := rfl
@[simp] theorem State.coreReset_clen (s : State) : (s.coreReset).clen = State.reset.clen := rfl
@[simp] theorem State.coreReset_ie (s : State) : (s.coreReset).ie = State.reset.ie := rfl
@[simp] theorem State.coreReset_busy (s : State) : (s.coreReset).busy = State.reset.busy := rfl
@[simp] theorem State.coreReset_done (s : State) : (s.coreReset).done = State.reset.done := rfl
@[simp] theorem State.coreReset_err (s : State) : (s.coreReset).err = State.reset.err := rfl
@[simp] theorem State.coreReset_truth (s : State) : (s.coreReset).truth = State.reset.truth := rfl
@[simp] theorem State.coreReset_busywr (s : State) : (s.coreReset).busywr = State.reset.busywr := rfl
@[simp] theorem State.coreReset_errcode (s : State) : (s.coreReset).errcode = State.reset.errcode := rfl
@[simp] theorem State.coreReset_lastcmd (s : State) : (s.coreReset).lastcmd = State.reset.lastcmd := rfl
@[simp] theorem State.coreReset_schedule (s : State) : (s.coreReset).schedule = s.schedule := rfl
@[simp] theorem State.coreReset_rdata (s : State) : (s.coreReset).rdata = s.rdata := rfl
@[simp] theorem State.coreReset_entropy (s : State) : (s.coreReset).entropy = s.entropy := rfl
@[simp] theorem State.coreReset_entropyDrawn (s : State) : (s.coreReset).entropyDrawn = s.entropyDrawn := rfl
@[simp] theorem State.coreReset_busyReads (s : State) : (s.coreReset).busyReads = s.busyReads := rfl

/-! ### What the operand accessors see of an update that leaves `x`, `pinf` and `cr` alone -/

@[simp] theorem State.getX_succeed (s : State) (t : Bool) (i : XReg) : (s.succeed t).getX i = s.getX i := rfl
@[simp] theorem State.getX_takeError (s : State) (e : ErrCode) (i : XReg) : (s.takeError e).getX i = s.getX i := rfl
@[simp] theorem State.getX_drawn (s : State) (k : Nat) (i : XReg) : (s.drawn k).getX i = s.getX i := rfl
@[simp] theorem State.getX_accept (s : State) (w : Word) (i : XReg) : (s.accept w).getX i = s.getX i := rfl
@[simp] theorem State.getX_setPinf (s : State) (i : PReg) (b : Bool) (j : XReg) : (s.setPinf i b).getX j = s.getX j := rfl
@[simp] theorem State.getX_validate (s : State) (c : CurveVal) (i : XReg) : (s.validate c).getX i = s.getX i := rfl
@[simp] theorem State.getX_loadCurve (s : State) (c : CurveVal) (i : XReg) : (s.loadCurve c).getX i = s.getX i := rfl
@[simp] theorem State.getPinf_succeed (s : State) (t : Bool) (i : PReg) : (s.succeed t).getPinf i = s.getPinf i := rfl
@[simp] theorem State.getPinf_takeError (s : State) (e : ErrCode) (i : PReg) : (s.takeError e).getPinf i = s.getPinf i := rfl
@[simp] theorem State.getPinf_drawn (s : State) (k : Nat) (i : PReg) : (s.drawn k).getPinf i = s.getPinf i := rfl
@[simp] theorem State.getPinf_setX (s : State) (j : XReg) (v : Reg) (i : PReg) : (s.setX j v).getPinf i = s.getPinf i := rfl
@[simp] theorem State.getPinf_putX (s : State) (j : XReg) (v : Nat) (i : PReg) : (s.putX j v).getPinf i = s.getPinf i := rfl
@[simp] theorem State.getPinf_putPair (s : State) (j : SReg) (r t : Nat) (i : PReg) :
    (s.putPair j r t).getPinf i = s.getPinf i := rfl

/-! ### How the reset state reads -/

@[simp] theorem State.reset_getX (i : XReg) : State.reset.getX i = 0#384 := by
  simp [State.getX, State.reset]

end Sys2Proof.Machine
end

