-- ==== Sys2Proof/Laws/Operands.lean ====
section
/-! SUPPORT. Read after write for operand registers, infinity flags, points and pairs; what the source checks answer. -/

set_option exponentiation.threshold 400

namespace Sys2Proof.Machine

/-! ### Operand registers -/

@[simp] theorem State.getX_setX_self (s : State) (i : XReg) (v : Reg) : (s.setX i v).getX i = v := by
  simp [State.getX, State.setX]

theorem State.getX_setX_ne (s : State) {i j : XReg} (v : Reg) (h : j ≠ i) : (s.setX i v).getX j = s.getX j := by
  simp only [State.getX, State.setX]
  exact Vector.getElem_set_ne i.isLt j.isLt (fun e => h (Fin.ext e.symm))

@[simp] theorem State.getX_putX_self (s : State) (i : XReg) (v : Nat) : (s.putX i v).getX i = BitVec.ofNat 384 v :=
  s.getX_setX_self i _

theorem State.getX_putX_ne (s : State) {i j : XReg} (v : Nat) (h : j ≠ i) : (s.putX i v).getX j = s.getX j :=
  s.getX_setX_ne _ h

theorem State.xVal_lt (s : State) (i : XReg) : s.xVal i < 2 ^ 384 := by
  unfold State.xVal
  exact BitVec.isLt _

theorem State.xVal_putX_self (s : State) (i : XReg) {v : Nat} (h : v < 2 ^ 384) : (s.putX i v).xVal i = v := by
  simp only [State.xVal, State.getX_putX_self, BitVec.toNat_ofNat]
  exact Nat.mod_eq_of_lt h

theorem State.xVal_putX_ne (s : State) {i j : XReg} (v : Nat) (h : j ≠ i) : (s.putX i v).xVal j = s.xVal j := by
  simp only [State.xVal, s.getX_putX_ne v h]

/-- Two register files that read alike are equal. -/
theorem State.x_ext {s t : State} (h : ∀ i, s.getX i = t.getX i) : s.x = t.x := by
  apply Vector.ext
  intro i hi
  exact h ⟨i, hi⟩

/-! ### The halves of a point or pair register -/

theorem loReg_ne_hiReg (i j : PReg) : loReg i ≠ hiReg j := by
  intro h
  have := congrArg Fin.val h
  simp only [loReg, hiReg] at this
  omega

theorem loReg_inj {i j : PReg} : loReg i = loReg j ↔ i = j := by
  constructor
  · intro h
    have := congrArg Fin.val h
    simp only [loReg] at this
    exact Fin.ext (by omega)
  · rintro rfl; rfl

theorem hiReg_inj {i j : PReg} : hiReg i = hiReg j ↔ i = j := by
  constructor
  · intro h
    have := congrArg Fin.val h
    simp only [hiReg] at this
    exact Fin.ext (by omega)
  · rintro rfl; rfl

/-! ### Infinity flags -/

@[simp] theorem State.getPinf_setPinf_self (s : State) (i : PReg) (b : Bool) : (s.setPinf i b).getPinf i = b := by
  have hi := i.isLt
  cases b <;> simp [State.getPinf, State.setPinf]

theorem State.getPinf_setPinf_ne (s : State) {i j : PReg} (b : Bool) (h : j ≠ i) :
    (s.setPinf i b).getPinf j = s.getPinf j := by
  have hj := j.isLt
  have h' : i.val ≠ j.val := fun e => h (Fin.ext e.symm)
  cases b
  · simp only [State.getPinf, State.setPinf, Bool.false_eq_true, if_false, BitVec.getLsbD_and, BitVec.getLsbD_not,
      BitVec.getLsbD_twoPow, hj, decide_true, h', decide_false, Bool.and_false, Bool.not_false, Bool.and_true]
  · simp only [State.getPinf, State.setPinf, if_true, BitVec.getLsbD_or, BitVec.getLsbD_twoPow, h', decide_false,
      Bool.and_false, Bool.or_false]

/-! ### Points -/

theorem State.getX_putPoint_ne (s : State) {i : PReg} (p : Point) {j : XReg} (hl : j ≠ loReg i) (hh : j ≠ hiReg i) :
    (s.putPoint i p).getX j = s.getX j := by
  cases p <;> simp [State.putPoint, State.getX_putX_ne, hl, hh]

theorem State.getPinf_putPoint_ne (s : State) {i j : PReg} (p : Point) (h : j ≠ i) :
    (s.putPoint i p).getPinf j = s.getPinf j := by
  cases p <;> simp [State.putPoint, State.getPinf_setPinf_ne, h]

/-- The coordinates of a finite point fit the registers. -/
def Point.fits : Point → Prop
  | .inf => True
  | .aff px py => px < 2 ^ 384 ∧ py < 2 ^ 384

/-- A point written is the point read (R23). -/
theorem State.point_putPoint_self (s : State) (i : PReg) {p : Point} (h : p.fits) : (s.putPoint i p).point i = p := by
  cases p with
  | inf => simp [State.putPoint, State.point]
  | aff px py =>
    obtain ⟨hx, hy⟩ := h
    have e1 : (((s.putX (loReg i) px).putX (hiReg i) py).setPinf i false).xVal (loReg i) = px := by
      show ((s.putX (loReg i) px).putX (hiReg i) py).xVal (loReg i) = px
      rw [State.xVal_putX_ne _ _ (loReg_ne_hiReg i i), State.xVal_putX_self _ _ hx]
    have e2 : (((s.putX (loReg i) px).putX (hiReg i) py).setPinf i false).xVal (hiReg i) = py := by
      show ((s.putX (loReg i) px).putX (hiReg i) py).xVal (hiReg i) = py
      rw [State.xVal_putX_self _ _ hy]
    simp [State.putPoint, State.point, e1, e2]

theorem State.point_putPoint_ne (s : State) {i j : PReg} (p : Point) (h : j ≠ i) : (s.putPoint i p).point j = s.point j := by
  have e1 : (s.putPoint i p).getX (loReg j) = s.getX (loReg j) :=
    s.getX_putPoint_ne p (fun e => h (loReg_inj.1 e)) (loReg_ne_hiReg j i)
  have e2 : (s.putPoint i p).getX (hiReg j) = s.getX (hiReg j) :=
    s.getX_putPoint_ne p (fun e => loReg_ne_hiReg i j e.symm) (fun e => h (hiReg_inj.1 e))
  simp [State.point, State.xVal, e1, e2, s.getPinf_putPoint_ne p h]

/-! ### Pairs -/

theorem State.getX_putPair_ne (s : State) {i : SReg} (r t : Nat) {j : XReg} (hl : j ≠ loReg i) (hh : j ≠ hiReg i) :
    (s.putPair i r t).getX j = s.getX j := by
  simp [State.putPair, State.getX_putX_ne, hl, hh]

theorem State.pairLo_putPair_self (s : State) (i : SReg) {r : Nat} (t : Nat) (h : r < 2 ^ 384) : (s.putPair i r t).pairLo i = r := by
  unfold State.pairLo State.putPair
  rw [State.xVal_putX_ne _ _ (loReg_ne_hiReg i i), State.xVal_putX_self _ _ h]

theorem State.pairHi_putPair_self (s : State) (i : SReg) (r : Nat) {t : Nat} (h : t < 2 ^ 384) : (s.putPair i r t).pairHi i = t := by
  unfold State.pairHi State.putPair
  rw [State.xVal_putX_self _ _ h]

/-! ### Curve registers -/

theorem CurveVal.ext_iff' {c d : CurveVal} :
    c = d ↔ c.a = d.a ∧ c.b = d.b ∧ c.p = d.p ∧ c.n = d.n ∧ c.gx = d.gx ∧ c.gy = d.gy := by
  cases c; cases d; simp

theorem State.curve_lt (s : State) :
    s.curve.a < 2 ^ 384 ∧ s.curve.b < 2 ^ 384 ∧ s.curve.p < 2 ^ 384 ∧ s.curve.n < 2 ^ 384 ∧
      s.curve.gx < 2 ^ 384 ∧ s.curve.gy < 2 ^ 384 :=
  ⟨s.cr.a.isLt, s.cr.b.isLt, s.cr.p.isLt, s.cr.n.isLt, s.cr.gx.isLt, s.cr.gy.isLt⟩

theorem State.modulus_lt (s : State) (m : ModSel) : s.modulus m < 2 ^ 384 := by
  cases m
  · exact s.curve_lt.2.2.1
  · exact s.curve_lt.2.2.2.1

/-- Curve registers hold what is loaded into them, if it fits. -/
theorem CurveRegs.val_ofVal {c : CurveVal} (h : c.a < 2 ^ 384 ∧ c.b < 2 ^ 384 ∧ c.p < 2 ^ 384 ∧ c.n < 2 ^ 384 ∧
    c.gx < 2 ^ 384 ∧ c.gy < 2 ^ 384) : (CurveRegs.ofVal c).val = c := by
  obtain ⟨h1, h2, h3, h4, h5, h6⟩ := h
  simp only [CurveVal.ext_iff', CurveRegs.val, CurveRegs.ofVal, BitVec.toNat_ofNat]
  exact ⟨Nat.mod_eq_of_lt h1, Nat.mod_eq_of_lt h2, Nat.mod_eq_of_lt h3, Nat.mod_eq_of_lt h4, Nat.mod_eq_of_lt h5,
    Nat.mod_eq_of_lt h6⟩

@[simp] theorem State.curve_drawn (s : State) (k : Nat) : (s.drawn k).curve = s.curve := rfl
@[simp] theorem State.curve_putX (s : State) (i : XReg) (v : Nat) : (s.putX i v).curve = s.curve := rfl
@[simp] theorem State.curve_validate (s : State) (c : CurveVal) : (s.validate c).curve = s.curve := rfl
@[simp] theorem State.curve_succeed (s : State) (t : Bool) : (s.succeed t).curve = s.curve := rfl
@[simp] theorem State.curve_takeError (s : State) (e : ErrCode) : (s.takeError e).curve = s.curve := rfl
@[simp] theorem State.curve_putPoint (s : State) (i : PReg) (p : Point) : (s.putPoint i p).curve = s.curve := by cases p <;> rfl
@[simp] theorem State.curve_putPair (s : State) (i : SReg) (r t : Nat) : (s.putPair i r t).curve = s.curve := rfl

/-! ### Source checks: everything each can answer -/

theorem State.canon_ok {s : State} {m : ModSel} {i : XReg} (h : s.xVal i < s.modulus m) : s.canon m i = .ok (s.xVal i) := by
  simp [State.canon, h]

theorem State.canon_range {s : State} {m : ModSel} {i : XReg} (h : s.modulus m ≤ s.xVal i) : s.canon m i = .error .range := by
  simp [State.canon, h]

theorem State.canon_spec (s : State) (m : ModSel) (i : XReg) :
    (s.xVal i < s.modulus m ∧ s.canon m i = .ok (s.xVal i)) ∨ (s.modulus m ≤ s.xVal i ∧ s.canon m i = .error .range) := by
  rcases Nat.lt_or_ge (s.xVal i) (s.modulus m) with h | h
  · exact .inl ⟨h, canon_ok h⟩
  · exact .inr ⟨h, canon_range h⟩

theorem State.pcanon_spec (s : State) (i : PReg) :
    ((s.point i).canonical s.curve ∧ s.pcanon i = .ok (s.point i)) ∨
      (¬ (s.point i).canonical s.curve ∧ s.pcanon i = .error .range) := by
  unfold State.point State.pcanon
  cases hp : s.getPinf i
  · by_cases h : s.xVal (loReg i) ≥ s.curve.p ∨ s.xVal (hiReg i) ≥ s.curve.p
    · right
      simp only [Bool.false_eq_true, if_false, if_pos h, Point.canonical, and_true]
      omega
    · left
      simp only [Bool.false_eq_true, if_false, if_neg h, Point.canonical, and_true]
      omega
  · left
    simp [Point.canonical]

theorem State.scalarIn_spec (s : State) (i : XReg) (e : ErrCode) :
    (1 ≤ s.xVal i ∧ s.xVal i ≤ s.curve.n - 1 ∧ s.scalarIn i e = .ok (s.xVal i)) ∨
      (¬ (1 ≤ s.xVal i ∧ s.xVal i ≤ s.curve.n - 1) ∧ s.scalarIn i e = .error e) := by
  unfold State.scalarIn
  split
  · next h => exact .inl ⟨h.1, h.2, rfl⟩
  · next h => exact .inr ⟨h, rfl⟩

theorem State.pcanon_ok {s : State} {i : PReg} (h : (s.point i).canonical s.curve) : s.pcanon i = .ok (s.point i) := by
  rcases s.pcanon_spec i with ⟨_, h2⟩ | ⟨h1, _⟩
  · exact h2
  · exact absurd h h1

theorem State.pcanon_range {s : State} {i : PReg} (h : ¬ (s.point i).canonical s.curve) : s.pcanon i = .error .range := by
  rcases s.pcanon_spec i with ⟨h1, _⟩ | ⟨_, h2⟩
  · exact absurd h1 h
  · exact h2

theorem State.scalarIn_ok {s : State} {i : XReg} (h : inScalarRange s.curve (s.xVal i)) (e : ErrCode) : s.scalarIn i e = .ok (s.xVal i) :=
  if_pos h

theorem State.scalarIn_out {s : State} {i : XReg} (h : ¬ inScalarRange s.curve (s.xVal i)) (e : ErrCode) : s.scalarIn i e = .error e :=
  if_neg h

/-! ### More on writes -/

theorem State.setX_comm (s : State) {i j : XReg} (h : i ≠ j) (y z : Reg) : (s.setX i y).setX j z = (s.setX j z).setX i y := by
  have hx : ((s.setX i y).setX j z).x = ((s.setX j z).setX i y).x := by
    apply State.x_ext
    intro k
    by_cases hj : k = j
    · subst hj
      rw [State.getX_setX_self, State.getX_setX_ne _ _ h.symm, State.getX_setX_self]
    · by_cases hi : k = i
      · subst hi
        rw [State.getX_setX_ne _ _ h, State.getX_setX_self, State.getX_setX_self]
      · rw [State.getX_setX_ne _ _ hj, State.getX_setX_ne _ _ hi, State.getX_setX_ne _ _ hi, State.getX_setX_ne _ _ hj]
  have e : (s.setX i y).setX j z = { (s.setX j z).setX i y with x := ((s.setX i y).setX j z).x } := rfl
  rw [e, hx]

theorem State.pinf_ext {s t : State} (h : ∀ j, t.getPinf j = s.getPinf j) : t.pinf = s.pinf := by
  apply BitVec.eq_of_getLsbD_eq
  intro k hk
  exact h ⟨k, hk⟩

/-- The state after a command that wrote a value to x[d] and succeeded. -/
theorem State.wrote (s : State) (d : XReg) {v : Nat} (hv : v < 2 ^ 384) (b : Bool) :
    ((s.putX d v).succeed b).xVal d = v ∧ (∀ j, j ≠ d → ((s.putX d v).succeed b).xVal j = s.xVal j) ∧
      (∀ m, ((s.putX d v).succeed b).modulus m = s.modulus m) ∧ ((s.putX d v).succeed b).curve = s.curve ∧
      ((s.putX d v).succeed b).cv = s.cv ∧ ((s.putX d v).succeed b).err = false :=
  ⟨State.xVal_putX_self s d hv, fun _ h => State.xVal_putX_ne s v h, fun m => by cases m <;> rfl, rfl, rfl, rfl⟩

end Sys2Proof.Machine
end

