-- ==== Sys2Proof/Laws/Ops.lean ====
section
/-! SUPPORT. What a completion answers, and how a chain of checks succeeds or fails. -/

namespace Sys2Proof.Machine

/-! ### Chains of checks -/

theorem bind_eq_ok {α β : Type} {r : Except ErrCode α} {f : α → Except ErrCode β} {b : β} :
    (r >>= f) = .ok b ↔ ∃ a, r = .ok a ∧ f a = .ok b := by
  cases r <;> simp [bind, Except.bind]

theorem bind_eq_error {α β : Type} {r : Except ErrCode α} {f : α → Except ErrCode β} {e : ErrCode} :
    (r >>= f) = .error e ↔ r = .error e ∨ ∃ a, r = .ok a ∧ f a = .error e := by
  cases r <;> simp [bind, Except.bind]

@[simp] theorem ok_bind {α β : Type} (a : α) (f : α → Except ErrCode β) : (Except.ok a >>= f) = f a := rfl
@[simp] theorem error_bind {α β : Type} (e : ErrCode) (f : α → Except ErrCode β) :
    ((Except.error e : Except ErrCode α) >>= f) = .error e := rfl
@[simp] theorem pure_eq_ok {α : Type} (a : α) : (pure a : Except ErrCode α) = .ok a := rfl

/-! ### Completion -/

@[simp] theorem State.finish_ok (s s' : State) (t : Bool) : s.finish (.ok (s', t)) = .next (s'.succeed t) := rfl
@[simp] theorem State.finish_error (s : State) (e : ErrCode) : s.finish (.error e) = .next (s.takeError e) := rfl

theorem State.curveCommand_loaded {s : State} (h : s.cv = true) (r : Result) : s.curveCommand r = s.finish r := by
  simp [State.curveCommand, h]

theorem State.curveCommand_unloaded {s : State} (h : s.cv = false) (r : Result) :
    s.curveCommand r = .next (s.takeError .noCurve) := by
  simp [State.curveCommand, h]

/-- Everything a completion can answer: it never stops, and either the command's writes are applied or nothing but STATUS changes. -/
theorem State.finish_cases (s : State) (r : Result) :
    (∃ s' t, r = .ok (s', t) ∧ s.finish r = .next (s'.succeed t)) ∨
      (∃ e, r = .error e ∧ s.finish r = .next (s.takeError e)) := by
  cases r with
  | ok p => exact .inl ⟨p.1, p.2, rfl, rfl⟩
  | error e => exact .inr ⟨e, rfl, rfl⟩

/-- Everything a command that needs the curve can answer. -/
theorem State.curveCommand_cases (s : State) (r : Result) :
    (s.cv = false ∧ s.curveCommand r = .next (s.takeError .noCurve)) ∨
      (∃ s' t, s.cv = true ∧ r = .ok (s', t) ∧ s.curveCommand r = .next (s'.succeed t)) ∨
      (∃ e, s.cv = true ∧ r = .error e ∧ s.curveCommand r = .next (s.takeError e)) := by
  cases h : s.cv
  · exact .inl ⟨rfl, curveCommand_unloaded h r⟩
  · right
    rw [curveCommand_loaded h]
    rcases s.finish_cases r with ⟨s', t, h1, h2⟩ | ⟨e, h1, h2⟩
    · exact .inl ⟨s', t, rfl, h1, h2⟩
    · exact .inr ⟨e, rfl, h1, h2⟩

/-! ### Reset -/

theorem State.coreReset_reset : State.reset.coreReset = State.reset := rfl

/-! ### The status word -/

/-- A flag below a word is its bit 0. -/
theorem toNat_append_flagBit {n : Nat} (x : BitVec n) (b : Bool) : (x ++ flagBit b).toNat = 2 * x.toNat + b.toNat := by
  have h : b.toNat < 2 ^ 1 := by cases b <;> decide
  rw [BitVec.toNat_append, flagBit, BitVec.toNat_ofBool, ← Nat.shiftLeft_add_eq_or_of_lt h, Nat.shiftLeft_eq]
  omega

/-! ### Error codes -/

theorem ErrCode.code_ne_zero (e : ErrCode) : e.code ≠ 0#8 := by cases e <;> decide

theorem ErrCode.code_le (e : ErrCode) : e.code.toNat ≤ 9 := by cases e <;> decide

theorem ErrCode.code_injective {e e' : ErrCode} (h : e.code = e'.code) : e = e' := by
  cases e <;> cases e' <;> first | rfl | (exact absurd h (by decide))

end Sys2Proof.Machine
end

