-- ==== Sys2Proof/Laws/PointUnit.lean ====
section
/-! SUPPORT. What point addition and scalar multiplication answer: the only error they have, and that over a prime P they always
succeed on canonical points. -/

namespace Sys2Proof.Machine

/-! ### The only error is NOT_INVERTIBLE -/

theorem tangentSlope_error {c : CurveVal} {px py : Nat} {e : ErrCode} (h : tangentSlope c px py = .error e) : e = .notInvertible := by
  rcases bind_eq_error.1 h with h1 | ⟨t, _, h2⟩
  · exact (inv_eq_error_iff.1 h1).1
  · cases h2

theorem chordSlope_error {c : CurveVal} {px py qx qy : Nat} {e : ErrCode} (h : chordSlope c px py qx qy = .error e) :
    e = .notInvertible := by
  rcases bind_eq_error.1 h with h1 | ⟨t, _, h2⟩
  · exact (inv_eq_error_iff.1 h1).1
  · cases h2

theorem sumSlope_error {c : CurveVal} {px py qx qy : Nat} {e : ErrCode} (h : sumSlope c px py qx qy = .error e) : e = .notInvertible := by
  unfold sumSlope at h
  split at h
  · exact tangentSlope_error h
  · exact chordSlope_error h

/-- pointAdd on finite points that are not one above the other: the slope, then the coordinates (R160). -/
theorem pointAdd_finite (c : CurveVal) {px py qx qy : Nat} (h : ¬ (px = qx ∧ (py ≠ qy ∨ py = 0))) :
    pointAdd c (.aff px py) (.aff qx qy) =
      (sumSlope c px py qx qy).bind fun l => .ok (.aff (thirdX c l px qx) (thirdY c l px py (thirdX c l px qx))) :=
  if_neg h

theorem pointAdd_vertical (c : CurveVal) {px py qx qy : Nat} (h : px = qx ∧ (py ≠ qy ∨ py = 0)) :
    pointAdd c (.aff px py) (.aff qx qy) = .ok .inf :=
  if_pos h

theorem pointAdd_error {c : CurveVal} {p q : Point} {e : ErrCode} (h : pointAdd c p q = .error e) : e = .notInvertible := by
  match p, q with
  | .inf, q => cases h
  | .aff px py, .inf => cases h
  | .aff px py, .aff qx qy =>
    by_cases hv : px = qx ∧ (py ≠ qy ∨ py = 0)
    · rw [pointAdd_vertical c hv] at h
      cases h
    · rw [pointAdd_finite c hv] at h
      rcases bind_eq_error.1 h with h1 | ⟨l, _, h2⟩
      · exact sumSlope_error h1
      · cases h2

theorem addIf_error {c : CurveVal} {pt acc : Point} {b : Bool} {e : ErrCode} (h : addIf c pt b acc = .error e) : e = .notInvertible := by
  cases b
  · cases h
  · exact pointAdd_error h

theorem doubleAndAdd_error {c : CurveVal} {pt : Point} {kk : Nat} {e : ErrCode} :
    ∀ n acc, doubleAndAdd c pt kk n acc = .error e → e = .notInvertible := by
  intro n
  induction n with
  | zero => intro acc h; cases h
  | succ n ih =>
    intro acc h
    rcases bind_eq_error.1 h with h1 | ⟨dbl, _, h2⟩
    · exact pointAdd_error h1
    · rcases bind_eq_error.1 h2 with h3 | ⟨acc', _, h4⟩
      · exact addIf_error h3
      · exact ih _ h4

theorem scalarMultiply_error {c : CurveVal} {pt : Point} {k : Nat} {e : ErrCode} (h : scalarMultiply c pt k = .error e) :
    e = .notInvertible :=
  doubleAndAdd_error _ _ h

/-! ### The special cases of pointAdd (R160) -/

@[simp] theorem pointAdd_inf_left (c : CurveVal) (q : Point) : pointAdd c .inf q = .ok q := rfl

@[simp] theorem pointAdd_inf_right (c : CurveVal) (p : Point) : pointAdd c p .inf = .ok p := by cases p <;> rfl

/-- A multiple of N, 0 among them, gives INF (R162). -/
theorem scalarMultiply_zero (c : CurveVal) (pt : Point) {k : Nat} (h : k % c.n = 0) : scalarMultiply c pt k = .ok .inf := by
  simp [scalarMultiply, h, doubleAndAdd]

theorem scalarMultiply_mod (c : CurveVal) (pt : Point) (k : Nat) : scalarMultiply c pt (k % c.n) = scalarMultiply c pt k := by
  simp [scalarMultiply]

theorem doubleAndAdd_inf (c : CurveVal) (kk : Nat) : ∀ n, doubleAndAdd c .inf kk n .inf = .ok .inf := by
  intro n
  induction n with
  | zero => rfl
  | succ n ih =>
    simp only [doubleAndAdd, pointAdd_inf_left, ok_bind]
    cases kk.testBit n <;> simpa [addIf] using ih

/-- INF times anything is INF (R167). -/
theorem scalarMultiply_inf (c : CurveVal) (k : Nat) : scalarMultiply c .inf k = .ok .inf := doubleAndAdd_inf c _ _

/-! ### Over a prime P the slopes exist -/

theorem gcd_prime {a p : Nat} (hp : p.Prime) (h0 : 0 < a) (hlt : a < p) : Nat.gcd a p = 1 := by
  rw [Nat.gcd_comm]
  exact (Nat.Prime.coprime_iff_not_dvd hp).2 (Nat.not_dvd_of_pos_of_lt h0 hlt)

theorem inv_prime {a p : Nat} (hp : p.Prime) (h0 : 0 < a) (hlt : a < p) :
    ∃ t, inv a p = .ok t ∧ t < p ∧ ((a : Nat) : ZMod p) * (t : ZMod p) = 1 := by
  obtain ⟨t, h1, h2, h3⟩ := inv_ok hp.two_le hlt (gcd_prime hp h0 hlt)
  refine ⟨t, h1, h2, ?_⟩
  have : a * t ≡ 1 [MOD p] := by
    rw [Nat.ModEq, h3, Nat.mod_eq_of_lt hp.one_lt]
  simpa using (ZMod.natCast_eq_natCast_iff _ _ p).2 this

theorem tangentSlope_ok {c : CurveVal} (hp : c.p.Prime) (ho : c.p % 2 = 1) {px py : Nat} (h0 : 0 < py) (hlt : py < c.p) :
    ∃ l, tangentSlope c px py = .ok l ∧ l < c.p ∧
      ((l : Nat) : ZMod c.p) * (2 * py) = 3 * (px : ZMod c.p) * px + c.a := by
  have h2 : 0 < 2 * py % c.p := by
    rcases Nat.lt_or_ge (2 * py) c.p with h | h
    · rw [Nat.mod_eq_of_lt h]; omega
    · rw [Nat.mod_eq_sub_mod h, Nat.mod_eq_of_lt (by omega)]; omega
  obtain ⟨t, ht, _, hi⟩ := inv_prime hp h2 (Nat.mod_lt _ hp.pos)
  refine ⟨_, by rw [tangentSlope, ht]; rfl, Nat.mod_lt _ hp.pos, ?_⟩
  simp only [ZMod.natCast_mod, Nat.cast_mul, Nat.cast_add, Nat.cast_ofNat] at hi ⊢
  calc _ = (3 * ((px : ZMod c.p) * px) + c.a) * (2 * py * t) := by ring
    _ = _ := by rw [hi]; ring

theorem chordSlope_ok {c : CurveVal} (hp : c.p.Prime) {px py qx qy : Nat} (hx : px < c.p) (hx' : qx < c.p) (hne : px ≠ qx) :
    ∃ l, chordSlope c px py qx qy = .ok l ∧ l < c.p ∧
      ((l : Nat) : ZMod c.p) * ((qx : ZMod c.p) - px) = (qy : ZMod c.p) - py := by
  have hlt := imod_lt (Int.ofNat qx - Int.ofNat px) hp.pos
  have h2 : 0 < imod (Int.ofNat qx - Int.ofNat px) c.p := by
    rcases Nat.eq_zero_or_pos (imod (Int.ofNat qx - Int.ofNat px) c.p) with h | h
    · exfalso
      have hc := imod_cast (Int.ofNat qx - Int.ofNat px) hp.pos
      rw [h] at hc
      have hd : (c.p : Int) ∣ (Int.ofNat qx - Int.ofNat px) := Int.dvd_of_emod_eq_zero hc.symm
      have := Int.eq_zero_of_abs_lt_dvd hd (by
        rw [abs_lt]
        simp only [Int.ofNat_eq_natCast]
        omega)
      simp only [Int.ofNat_eq_natCast] at this
      omega
    · exact h
  obtain ⟨t, ht, _, hi⟩ := inv_prime hp h2 hlt
  refine ⟨_, by rw [chordSlope, ht]; rfl, Nat.mod_lt _ hp.pos, ?_⟩
  rw [imod_zmod _ hp.pos] at hi
  simp only [ZMod.natCast_mod, Nat.cast_mul]
  rw [imod_zmod _ hp.pos]
  push_cast [Int.ofNat_eq_natCast] at hi ⊢
  calc _ = ((qy : ZMod c.p) - py) * (((qx : ZMod c.p) - px) * t) := by ring
    _ = _ := by rw [hi]; ring

/-- Over a prime P, pointAdd succeeds on canonical points with a canonical point. -/
theorem pointAdd_ok {c : CurveVal} (hp : c.p.Prime) (ho : c.p % 2 = 1) {p q : Point} (h1 : p.canonical c) (h2 : q.canonical c) :
    ∃ r, pointAdd c p q = .ok r ∧ r.canonical c := by
  match p, q with
  | .inf, q => exact ⟨q, rfl, h2⟩
  | .aff px py, .inf => exact ⟨_, rfl, h1⟩
  | .aff px py, .aff qx qy =>
    obtain ⟨hpx, hpy⟩ := h1
    obtain ⟨hqx, hqy⟩ := h2
    by_cases hv : px = qx ∧ (py ≠ qy ∨ py = 0)
    · exact ⟨.inf, pointAdd_vertical c hv, trivial⟩
    · rw [pointAdd_finite c hv]
      by_cases he : px = qx ∧ py = qy
      · obtain ⟨l, hl, _, _⟩ := tangentSlope_ok (px := px) hp ho (by omega : 0 < py) hpy
        rw [sumSlope, if_pos he, hl]
        exact ⟨_, rfl, imod_lt _ hp.pos, imod_lt _ hp.pos⟩
      · obtain ⟨l, hl, _, _⟩ := chordSlope_ok (py := py) (qy := qy) hp hpx hqx (by omega)
        rw [sumSlope, if_neg he, hl]
        exact ⟨_, rfl, imod_lt _ hp.pos, imod_lt _ hp.pos⟩

theorem addIf_ok {c : CurveVal} (hp : c.p.Prime) (ho : c.p % 2 = 1) {pt acc : Point} (h : pt.canonical c) (ha : acc.canonical c)
    (b : Bool) : ∃ r, addIf c pt b acc = .ok r ∧ r.canonical c := by
  cases b
  · exact ⟨acc, rfl, ha⟩
  · exact pointAdd_ok hp ho ha h

theorem doubleAndAdd_ok {c : CurveVal} (hp : c.p.Prime) (ho : c.p % 2 = 1) {pt : Point} (h : pt.canonical c) (kk : Nat) :
    ∀ n acc, acc.canonical c → ∃ r, doubleAndAdd c pt kk n acc = .ok r ∧ r.canonical c := by
  intro n
  induction n with
  | zero => intro acc ha; exact ⟨acc, rfl, ha⟩
  | succ n ih =>
    intro acc ha
    obtain ⟨dbl, hd, hdc⟩ := pointAdd_ok hp ho ha ha
    obtain ⟨r, hr, hrc⟩ := addIf_ok hp ho h hdc (kk.testBit n)
    simp only [doubleAndAdd, hd, ok_bind, hr]
    exact ih r hrc

/-- Over a prime P, scalarMultiply succeeds on a canonical point with a canonical point. -/
theorem scalarMultiply_ok {c : CurveVal} (hp : c.p.Prime) (ho : c.p % 2 = 1) {pt : Point} (h : pt.canonical c) (k : Nat) :
    ∃ r, scalarMultiply c pt k = .ok r ∧ r.canonical c :=
  doubleAndAdd_ok hp ho h _ _ _ trivial

/-! ### What CurveOK gives -/

theorem curveOK_spec {c : CurveVal} (h : curveOK c = true) :
    3 ≤ c.p ∧ c.p % 2 = 1 ∧ c.a < c.p ∧ c.b < c.p ∧ c.gx < c.p ∧ c.gy < c.p ∧ 2 ≤ c.n ∧ curveEq c c.gx c.gy = true := by
  simp only [curveOK, Bool.and_eq_true, decide_eq_true_eq] at h
  obtain ⟨⟨⟨⟨⟨⟨⟨h1, h2⟩, h3⟩, h4⟩, h5⟩, h6⟩, h7⟩, h8⟩ := h
  exact ⟨h1, h2, h3, h4, h5, h6, h7, h8⟩

/-- The curve equation in the field of residues. -/
theorem curveEq_iff {c : CurveVal} (hp : 0 < c.p) (px py : Nat) :
    curveEq c px py = true ↔ ((py : ZMod c.p) * py = (px : ZMod c.p) * px * px + c.a * px + c.b) := by
  unfold curveEq
  rw [beq_iff_eq]
  have hz := imod_zmod (Int.ofNat (py * py) - Int.ofNat (px * px * px + c.a * px + c.b)) hp
  have hlt := imod_lt (Int.ofNat (py * py) - Int.ofNat (px * px * px + c.a * px + c.b)) hp
  generalize imod (Int.ofNat (py * py) - Int.ofNat (px * px * px + c.a * px + c.b)) c.p = r at hz hlt ⊢
  push_cast [Int.ofNat_eq_natCast] at hz
  constructor
  · intro h
    subst h
    simp only [Nat.cast_zero] at hz
    exact sub_eq_zero.1 hz.symm
  · intro h
    rw [sub_eq_zero.2 h] at hz
    have := (ZMod.natCast_eq_zero_iff r c.p).1 hz
    exact Nat.eq_zero_of_dvd_of_lt this hlt

theorem onCurve_canonical {c : CurveVal} {pt : Point} (h : onCurve c pt = true) : pt.canonical c := by
  cases pt with
  | inf => trivial
  | aff px py =>
    simp only [onCurve, Bool.and_eq_true, decide_eq_true_eq] at h
    exact h.1

theorem onCurve_base {c : CurveVal} (h : curveOK c = true) : onCurve c (basePoint c) = true := by
  obtain ⟨_, _, _, _, h5, h6, _, h8⟩ := curveOK_spec h
  simp [onCurve, basePoint, h5, h6, h8]

theorem canonical_base {c : CurveVal} (h : curveOK c = true) : (basePoint c).canonical c := onCurve_canonical (onCurve_base h)

/-- The curve equation in the integers (R112, R163). -/
theorem curveEq_int {c : CurveVal} (hp : 0 < c.p) (px py : Nat) :
    curveEq c px py = true ↔ ((py : Int) ^ 2 - ((px : Int) ^ 3 + c.a * px + c.b)) % c.p = 0 := by
  unfold curveEq
  rw [beq_iff_eq, ← Int.natCast_inj, imod_cast _ hp]
  have e : Int.ofNat (py * py) - Int.ofNat (px * px * px + c.a * px + c.b) = (py : Int) ^ 2 - ((px : Int) ^ 3 + c.a * px + c.b) := by
    simp only [Int.ofNat_eq_natCast]
    push_cast
    ring
  rw [e]
  rfl

/-- A validated curve's moduli are at least 2. -/
theorem State.two_le_modulus {s : State} (hi : s.CurveInv) (hc : s.cv = true) (m : ModSel) : 2 ≤ s.modulus m := by
  obtain ⟨h1, _, _, _, _, _, h7, _⟩ := curveOK_spec (hi.1 hc).1
  cases m
  · exact le_trans (by omega) h1
  · exact h7

/-! ### The multiplier's last step -/

/-- The scan of k is the scan of k / 2, then one doubling and the add of bit 0 (R162). -/
theorem doubleAndAdd_half (c : CurveVal) (pt : Point) (k : Nat) : ∀ n acc,
    doubleAndAdd c pt k (n + 1) acc = (doubleAndAdd c pt (k / 2) n acc).bind fun acc =>
      (pointAdd c acc acc).bind fun dbl => if k % 2 = 1 then pointAdd c dbl pt else .ok dbl := by
  intro n
  induction n with
  | zero =>
    intro acc
    show (pointAdd c acc acc >>= fun dbl => addIf c pt (k.testBit 0) dbl >>= fun a => .ok a) = _
    simp only [doubleAndAdd, Except.bind, Nat.testBit_zero, addIf]
    cases pointAdd c acc acc with
    | error e => rfl
    | ok r =>
      by_cases hk : k % 2 = 1 <;> simp [hk]
      cases pointAdd c r pt <;> rfl
  | succ n ih =>
    intro acc
    show (pointAdd c acc acc >>= fun dbl => addIf c pt (k.testBit (n + 1)) dbl >>= fun a => doubleAndAdd c pt k (n + 1) a) = _
    show _ = (pointAdd c acc acc >>= fun dbl => addIf c pt ((k / 2).testBit n) dbl >>= fun a => doubleAndAdd c pt (k / 2) n a).bind _
    rw [Nat.testBit_succ]
    cases pointAdd c acc acc with
    | error e => rfl
    | ok r =>
      simp only [ok_bind]
      cases addIf c pt ((k / 2).testBit n) r with
      | error e => rfl
      | ok r' => simp only [ok_bind]; exact ih r'

theorem bitlen_half {k : Nat} (h : 0 < k) : bitlen k = bitlen (k / 2) + 1 := by
  apply bitlen_eq h
  · have := lt_two_pow_bitlen (k / 2)
    rw [pow_succ]
    omega
  · right
    rw [Nat.add_sub_cancel]
    rcases Nat.eq_zero_or_pos (k / 2) with h0 | h0
    · rw [h0]
      exact h
    · have h1 := two_pow_le_of_pos h0
      have h2 := bitlen_pos h0
      have e : 2 ^ bitlen (k / 2) = 2 * 2 ^ (bitlen (k / 2) - 1) := by
        rw [← pow_succ']
        congr 1
        omega
      omega

end Sys2Proof.Machine
end

