-- ==== Sys2Proof/Laws/Group.lean ====
section
/-! SUPPORT. Over a prime P and a nonsingular curve, pointAdd and scalarMultiply are the operations of the group of the curve's points
(42_point.md R161, R170): the bridge to Mathlib's Weierstrass curves. -/

namespace Sys2Proof.Machine

open WeierstrassCurve

/-- The curve y² = x³ + A·x + B over the residues modulo P. -/
def weierstrass (c : CurveVal) : WeierstrassCurve.Affine (ZMod c.p) := ⟨0, 0, 0, (c.a : ZMod c.p), (c.b : ZMod c.p)⟩

variable {c : CurveVal}

theorem weierstrass_disc_ne_zero [Fact c.p.Prime] (ho : c.p % 2 = 1) (h : nonsingular c) : (weierstrass c).Δ ≠ 0 := by
  intro hd
  apply h
  have h1 : (weierstrass c).Δ = -16 * ((4 * (c.a * c.a * c.a) + 27 * (c.b * c.b) : Nat) : ZMod c.p) := by
    simp only [weierstrass, WeierstrassCurve.Δ, WeierstrassCurve.b₂, WeierstrassCurve.b₄, WeierstrassCurve.b₆,
      WeierstrassCurve.b₈]
    push_cast
    ring
  have h16 : (-16 : ZMod c.p) ≠ 0 := by
    intro h0
    have h2 : ((16 : Nat) : ZMod c.p) = 0 := by
      have := neg_eq_zero.1 h0
      exact_mod_cast this
    have h3 := (ZMod.natCast_eq_zero_iff 16 c.p).1 h2
    have h4 : c.p ∣ 2 := (Fact.out : c.p.Prime).dvd_of_dvd_pow (show c.p ∣ 2 ^ 4 from h3)
    have h5 := (Nat.prime_dvd_prime_iff_eq (Fact.out : c.p.Prime) Nat.prime_two).1 h4
    omega
  rw [h1] at hd
  have h2 := (mul_eq_zero.1 hd).resolve_left h16
  exact Nat.mod_eq_zero_of_dvd ((ZMod.natCast_eq_zero_iff _ c.p).1 h2)

/-- A point value of the core stands for a point of the curve. -/
def Point.IsPoint (c : CurveVal) : Point → (weierstrass c).Point → Prop
  | .inf, .zero => True
  | .aff px py, .some X Y _ => px < c.p ∧ py < c.p ∧ (px : ZMod c.p) = X ∧ (py : ZMod c.p) = Y
  | _, _ => False

theorem Point.isPoint_inf : Point.IsPoint c .inf 0 := trivial

theorem Point.isPoint_zero {p : Point} (h : p.IsPoint c 0) : p = .inf := by
  cases p with
  | inf => rfl
  | aff px py => exact h.elim

theorem natCast_inj_of_lt {m a b : Nat} (ha : a < m) (hb : b < m) (h : (a : ZMod m) = (b : ZMod m)) : a = b := by
  have := (ZMod.natCast_eq_natCast_iff a b m).1 h
  rwa [Nat.ModEq, Nat.mod_eq_of_lt ha, Nat.mod_eq_of_lt hb] at this

/-- A point of the curve is one point value only. -/
theorem Point.isPoint_unique {p q : Point} {P : (weierstrass c).Point} (hp : p.IsPoint c P) (hq : q.IsPoint c P) : p = q := by
  match p, q, P with
  | .inf, .inf, _ => rfl
  | .aff px py, .aff qx qy, .some X Y _ =>
    obtain ⟨h1, h2, h3, h4⟩ := hp
    obtain ⟨h5, h6, h7, h8⟩ := hq
    rw [natCast_inj_of_lt h1 h5 (h3.trans h7.symm), natCast_inj_of_lt h2 h6 (h4.trans h8.symm)]
  | .inf, .aff _ _, .zero => exact hq.elim
  | .inf, .aff _ _, .some _ _ _ => exact hp.elim
  | .aff _ _, .inf, .zero => exact hp.elim
  | .aff _ _, .inf, .some _ _ _ => exact hq.elim
  | .aff _ _, .aff _ _, .zero => exact hp.elim

theorem Point.isPoint_canonical {p : Point} {P : (weierstrass c).Point} (h : p.IsPoint c P) : p.canonical c := by
  match p, P with
  | .inf, _ => trivial
  | .aff px py, .some X Y _ => exact ⟨h.1, h.2.1⟩
  | .aff _ _, .zero => exact h.elim

theorem equation_iff_cast (x y : ZMod c.p) :
    (weierstrass c).Equation x y ↔ y * y = x * x * x + (c.a : ZMod c.p) * x + c.b := by
  rw [Affine.equation_iff]
  simp only [weierstrass]
  constructor
  · intro h; linear_combination h
  · intro h; linear_combination h

/-- A point value on the curve stands for a point of the curve. -/
theorem Point.isPoint_of_onCurve [Fact c.p.Prime] (ho : c.p % 2 = 1) (hn : nonsingular c) {p : Point} (h : onCurve c p = true) :
    ∃ P, p.IsPoint c P := by
  cases p with
  | inf => cases h
  | aff px py =>
    simp only [onCurve, Bool.and_eq_true, decide_eq_true_eq] at h
    obtain ⟨⟨h1, h2⟩, h3⟩ := h
    have heq := (equation_iff_cast (c := c) (px : ZMod c.p) (py : ZMod c.p)).2 ((curveEq_iff (by omega) px py).1 h3)
    exact ⟨.some _ _ ((Affine.equation_iff_nonsingular_of_Δ_ne_zero (weierstrass_disc_ne_zero ho hn)).1 heq),
      h1, h2, rfl, rfl⟩

/-- A finite point of the curve is on the curve. -/
theorem Point.onCurve_of_isPoint {p : Point} {P : (weierstrass c).Point} (h : p.IsPoint c P) (hf : p ≠ .inf) :
    onCurve c p = true := by
  match p, P with
  | .inf, _ => exact absurd rfl hf
  | .aff px py, .zero => exact h.elim
  | .aff px py, .some X Y hns =>
    obtain ⟨h1, h2, rfl, rfl⟩ := h
    have := (curveEq_iff (by omega : 0 < c.p) px py).2 ((equation_iff_cast _ _).1 hns.1)
    simp [onCurve, h1, h2, this]

/-- pointAdd is the group law (R161, R170). -/
theorem pointAdd_group [Fact c.p.Prime] (ho : c.p % 2 = 1) {p q : Point} {P Q : (weierstrass c).Point}
    (hp : p.IsPoint c P) (hq : q.IsPoint c Q) : ∃ r, pointAdd c p q = .ok r ∧ r.IsPoint c (P + Q) := by
  have hprime : c.p.Prime := Fact.out
  match p, P with
  | .inf, .zero => exact ⟨q, rfl, by rw [← Affine.Point.zero_def, zero_add]; exact hq⟩
  | .inf, .some _ _ _ => exact hp.elim
  | .aff px py, .zero => exact hp.elim
  | .aff px py, .some X Y h1 =>
    match q, Q with
    | .inf, .zero => exact ⟨.aff px py, rfl, by rw [← Affine.Point.zero_def, add_zero]; exact hp⟩
    | .inf, .some _ _ _ => exact hq.elim
    | .aff qx qy, .zero => exact hq.elim
    | .aff qx qy, .some X' Y' h2 =>
      obtain ⟨hpx, hpy, rfl, rfl⟩ := hp
      obtain ⟨hqx, hqy, rfl, rfl⟩ := hq
      have hneg (x y : ZMod c.p) : (weierstrass c).negY x y = -y := by simp [Affine.negY, weierstrass]
      have third {l : Nat} {L : ZMod c.p} (hL : (l : ZMod c.p) = L) :
          ((thirdX c l px qx : Nat) : ZMod c.p) = (weierstrass c).addX px qx L ∧
            ((thirdY c l px py (thirdX c l px qx) : Nat) : ZMod c.p) = (weierstrass c).addY px qx py L := by
        subst hL
        have hx : ((thirdX c l px qx : Nat) : ZMod c.p) = (weierstrass c).addX px qx l := by
          rw [thirdX, imod_zmod _ hprime.pos]
          simp [Affine.addX, weierstrass, pow_two]
        refine ⟨hx, ?_⟩
        rw [thirdY, imod_zmod _ hprime.pos]
        simp only [Affine.addY, Affine.negAddY, hneg, Int.ofNat_eq_natCast, Int.cast_sub, Int.cast_mul, Int.cast_natCast, hx]
        ring
      by_cases hv : px = qx ∧ (py ≠ qy ∨ py = 0)
      · refine ⟨.inf, pointAdd_vertical c hv, ?_⟩
        obtain ⟨rfl, hy⟩ := hv
        have hY : (py : ZMod c.p) = (weierstrass c).negY (px : ZMod c.p) qy := by
          rw [hneg]
          have e1 := (equation_iff_cast _ _).1 h1.1
          have e2 := (equation_iff_cast _ _).1 h2.1
          have e3 : ((py : ZMod c.p) - qy) * (py + qy) = 0 := by linear_combination e1 - e2
          rcases mul_eq_zero.1 e3 with e4 | e4
          · have hpq := natCast_inj_of_lt hpy hqy (sub_eq_zero.1 e4)
            have h0 : py = 0 := by rcases hy with h | h <;> [exact absurd hpq h; exact h]
            rw [← hpq, h0]; simp
          · linear_combination e4
        rw [Affine.Point.add_of_Y_eq rfl hY]
        exact Point.isPoint_inf
      · rw [pointAdd_finite c hv]
        by_cases he : px = qx ∧ py = qy
        · obtain ⟨rfl, rfl⟩ := he
          have hy0 : 0 < py := by omega
          obtain ⟨l, hl, hlt, hmul⟩ := tangentSlope_ok (px := px) hprime ho hy0 hpy
          have hyne : (py : ZMod c.p) ≠ (weierstrass c).negY px py := by
            rw [hneg]
            intro h
            have h2y : ((2 * py : Nat) : ZMod c.p) = 0 := by push_cast; linear_combination h
            have hd := (ZMod.natCast_eq_zero_iff _ c.p).1 h2y
            rcases hprime.dvd_mul.1 hd with hd | hd
            · have := (Nat.prime_dvd_prime_iff_eq hprime Nat.prime_two).1 hd
              omega
            · exact absurd (Nat.le_of_dvd hy0 hd) (by omega)
          have hL : (l : ZMod c.p) = (weierstrass c).slope px px py py := by
            rw [Affine.slope_of_Y_ne rfl hyne, hneg]
            have hne : (py : ZMod c.p) - -py ≠ 0 := by
              intro h
              exact hyne (by rw [hneg]; linear_combination h)
            rw [eq_div_iff hne]
            simp only [weierstrass]
            linear_combination hmul
          obtain ⟨hX, hY⟩ := third hL
          refine ⟨_, by rw [sumSlope, if_pos ⟨rfl, rfl⟩, hl]; rfl, ?_⟩
          rw [Affine.Point.add_self_of_Y_ne hyne]
          exact ⟨imod_lt _ hprime.pos, imod_lt _ hprime.pos, hX, hY⟩
        · have hne : px ≠ qx := by omega
          obtain ⟨l, hl, hlt, hmul⟩ := chordSlope_ok (py := py) (qy := qy) hprime hpx hqx hne
          have hxne : (px : ZMod c.p) ≠ qx := fun h => hne (natCast_inj_of_lt hpx hqx h)
          have hL : (l : ZMod c.p) = (weierstrass c).slope px qx py qy := by
            rw [Affine.slope_of_X_ne hxne, eq_div_iff (sub_ne_zero.2 hxne)]
            linear_combination -hmul
          obtain ⟨hX, hY⟩ := third hL
          refine ⟨_, by rw [sumSlope, if_neg he, hl]; rfl, ?_⟩
          rw [Affine.Point.add_of_X_ne hxne]
          exact ⟨imod_lt _ hprime.pos, imod_lt _ hprime.pos, hX, hY⟩

theorem addIf_group [Fact c.p.Prime] (ho : c.p % 2 = 1) {p q : Point} {P Q : (weierstrass c).Point}
    (hp : p.IsPoint c P) (hq : q.IsPoint c Q) (b : Bool) :
    ∃ r, addIf c q b p = .ok r ∧ r.IsPoint c (P + b.toNat • Q) := by
  cases b
  · exact ⟨p, rfl, by simpa using hp⟩
  · simpa [addIf] using pointAdd_group ho hp hq

theorem doubleAndAdd_group [Fact c.p.Prime] (ho : c.p % 2 = 1) {p : Point} {P : (weierstrass c).Point} (hp : p.IsPoint c P) (kk : Nat) :
    ∀ n acc, acc.IsPoint c ((kk >>> n) • P) → ∃ r, doubleAndAdd c p kk n acc = .ok r ∧ r.IsPoint c (kk • P) := by
  intro n
  induction n with
  | zero => intro acc h; exact ⟨acc, rfl, by simpa using h⟩
  | succ n ih =>
    intro acc h
    obtain ⟨dbl, hd, hdp⟩ := pointAdd_group ho h h
    obtain ⟨r, hr, hrp⟩ := addIf_group ho hdp hp (kk.testBit n)
    simp only [doubleAndAdd, hd, ok_bind, hr]
    apply ih
    have e : kk >>> n = (kk >>> (n + 1)) + (kk >>> (n + 1)) + (kk.testBit n).toNat := by
      rw [Nat.shiftRight_succ, Nat.testBit_eq_decide_div_mod_eq, Nat.shiftRight_eq_div_pow]
      have := Nat.mod_two_eq_zero_or_one (kk / 2 ^ n)
      rcases this with h | h <;> simp [h] <;> omega
    rw [e, add_nsmul, add_nsmul]
    exact hrp

/-- scalarMultiply is the multiple by the scalar modulo N (R162, R170). -/
theorem scalarMultiply_group [Fact c.p.Prime] (ho : c.p % 2 = 1) {p : Point} {P : (weierstrass c).Point} (hp : p.IsPoint c P) (k : Nat) :
    ∃ r, scalarMultiply c p k = .ok r ∧ r.IsPoint c ((k % c.n) • P) := by
  apply doubleAndAdd_group ho hp
  have : (k % c.n) >>> bitlen (k % c.n) = 0 := by
    rw [Nat.shiftRight_eq_div_pow, Nat.div_eq_of_lt (lt_two_pow_bitlen _)]
  rw [this, zero_nsmul]
  exact Point.isPoint_inf

/-- Adding a point again and again is its multiple. -/
theorem multiple_group [Fact c.p.Prime] (ho : c.p % 2 = 1) {p : Point} {P : (weierstrass c).Point} (hp : p.IsPoint c P) (k : Nat) :
    ∃ r, multiple c p k = .ok r ∧ r.IsPoint c (k • P) := by
  induction k with
  | zero => exact ⟨.inf, rfl, by rw [zero_nsmul]; exact Point.isPoint_inf⟩
  | succ k ih =>
    obtain ⟨r, hr, hrp⟩ := ih
    obtain ⟨t, ht, htp⟩ := pointAdd_group ho hrp hp
    refine ⟨t, ?_, by rw [succ_nsmul]; exact htp⟩
    simp only [multiple, hr, ok_bind, ht]

/-- A point value on the curve whose y is not 0 is no singular point. -/
theorem Point.isPoint_of_y [Fact c.p.Prime] (ho : c.p % 2 = 1) {px py : Nat} (h : onCurve c (.aff px py) = true) (hy : py ≠ 0) :
    ∃ P, (Point.aff px py).IsPoint c P := by
  simp only [onCurve, Bool.and_eq_true, decide_eq_true_eq] at h
  obtain ⟨⟨h1, h2⟩, h3⟩ := h
  have hp : c.p.Prime := Fact.out
  have heq := (equation_iff_cast (c := c) (px : ZMod c.p) (py : ZMod c.p)).2 ((curveEq_iff (by omega) px py).1 h3)
  refine ⟨.some _ _ ((Affine.nonsingular_iff _ _).2 ⟨heq, .inr fun h0 => ?_⟩), h1, h2, rfl, rfl⟩
  simp only [weierstrass, zero_mul, sub_zero] at h0
  have h2y : ((2 * py : Nat) : ZMod c.p) = 0 := by push_cast; linear_combination h0
  rcases hp.dvd_mul.1 ((ZMod.natCast_eq_zero_iff _ c.p).1 h2y) with hd | hd
  · have := (Nat.prime_dvd_prime_iff_eq hp Nat.prime_two).1 hd
    omega
  · exact absurd (Nat.le_of_dvd (by omega) hd) (by omega)

/-- On a curve of R218 a base point whose y is not 0 is a point of order N. -/
theorem PrimeCurve.base [Fact c.p.Prime] (h : PrimeCurve c) (hy : c.gy ≠ 0) :
    ∃ P, (basePoint c).IsPoint c P ∧ c.n • P = 0 ∧ ∀ k, k • P = 0 ↔ c.n ∣ k := by
  have ho := (curveOK_spec h.ok).2.1
  obtain ⟨P, hP⟩ : ∃ P, (basePoint c).IsPoint c P := Point.isPoint_of_y ho (onCurve_base h.ok) hy
  obtain ⟨r, hr, hrp⟩ := multiple_group ho hP c.n
  rw [h.order] at hr
  cases hr
  have h0 : c.n • P = 0 := by
    have := hrp
    generalize c.n • P = Q at this ⊢
    match Q with
    | .zero => rfl
    | .some _ _ _ => exact this.elim
  have hne : P ≠ 0 := by
    rintro rfl
    cases Point.isPoint_zero hP
  have hord : addOrderOf P = c.n := by
    rcases (Nat.dvd_prime h.primeN).1 (addOrderOf_dvd_of_nsmul_eq_zero h0) with h1 | h1
    · exact absurd (AddMonoid.addOrderOf_eq_one_iff.1 h1) hne
    · exact h1
  exact ⟨P, hP, h0, fun k => by rw [← hord]; exact addOrderOf_dvd_iff_nsmul_eq_zero.symm⟩

/-- A base point whose y is 0 doubles to INF (R160 case 3), so its multiples alternate. -/
theorem multiple_flat (hy : c.gy = 0) (k : Nat) : multiple c (basePoint c) k = .ok (if k % 2 = 0 then .inf else basePoint c) := by
  induction k with
  | zero => rfl
  | succ k ih =>
    simp only [multiple, ih, ok_bind]
    rcases Nat.mod_two_eq_zero_or_one k with h | h
    · rw [if_pos h, if_neg (by omega)]
      rfl
    · rw [if_neg (by omega), if_pos (by omega)]
      exact pointAdd_vertical c ⟨rfl, .inr hy⟩

/-- On a curve of R218 a base point whose y is 0 has order 2. -/
theorem PrimeCurve.two (h : PrimeCurve c) (hy : c.gy = 0) : c.n = 2 := by
  have ho := h.order
  rw [multiple_flat hy] at ho
  rcases Nat.mod_two_eq_zero_or_one c.n with h0 | h0
  · exact ((Nat.prime_dvd_prime_iff_eq Nat.prime_two h.primeN).1 (Nat.dvd_of_mod_eq_zero h0)).symm
  · rw [if_neg (by omega)] at ho
    cases ho

theorem mod_nsmul_of_order {P : (weierstrass c).Point} [Fact c.p.Prime] (h : c.n • P = 0) (k : Nat) : (k % c.n) • P = k • P := by
  conv_rhs => rw [← Nat.mod_add_div k c.n, add_nsmul, mul_comm, mul_nsmul', h, nsmul_zero, add_zero]

end Sys2Proof.Machine
end

