-- ==== Sys2Proof/Laws/Random.lean ====
section
/-! SUPPORT. What the entropy sampling and the nonce search answer (43_random_nonce.md R191, R193). -/

namespace Sys2Proof.Machine

/-! ### Big-endian values of byte streams -/

theorem bigEndian_lt (byte : Nat → Byte) (start : Nat) : ∀ nb, bigEndian byte start nb < 256 ^ nb
  | 0 => by simp [bigEndian]
  | k + 1 => by
    have h1 := bigEndian_lt byte start k
    have h2 : (byte (start + k)).toNat < 256 := (byte (start + k)).isLt
    rw [bigEndian, pow_succ]
    omega

theorem bigEndian_congr {byte byte' : Nat → Byte} {start : Nat} : ∀ {nb}, (∀ k < nb, byte (start + k) = byte' (start + k)) →
    bigEndian byte start nb = bigEndian byte' start nb
  | 0, _ => rfl
  | k + 1, h => by
    rw [bigEndian, bigEndian, bigEndian_congr fun j hj => h j (by omega), h k (by omega)]

/-- The nb bytes of a value, most significant first. -/
def bytesOf (v nb : Nat) : List Byte := (List.range nb).map fun k => BitVec.ofNat 8 (v / 256 ^ (nb - 1 - k))

theorem bytesOf_length (v nb : Nat) : (bytesOf v nb).length = nb := by simp [bytesOf]

theorem bytesOf_get (v : Nat) {nb k : Nat} (h : k < nb) (d : Byte) :
    (bytesOf v nb).getD k d = BitVec.ofNat 8 (v / 256 ^ (nb - 1 - k)) := by
  simp [bytesOf, List.getD, h]

/-- A stream that begins with the bytes of a value reads as that value. -/
theorem bigEndian_bytes (byte : Nat → Byte) (v : Nat) : ∀ nb, (∀ k < nb, byte k = BitVec.ofNat 8 (v / 256 ^ (nb - 1 - k))) →
    bigEndian byte 0 nb = v % 256 ^ nb := by
  intro nb
  induction nb generalizing v with
  | zero => simp [bigEndian, Nat.mod_one]
  | succ n ih =>
    intro h
    have h1 : bigEndian byte 0 n = v / 256 % 256 ^ n := by
      apply ih
      intro k hk
      rw [h k (by omega), Nat.div_div_eq_div_mul, ← pow_succ']
      congr 3
      omega
    have h2 : (byte (0 + n)).toNat = v % 256 := by
      rw [Nat.zero_add, h n (by omega)]
      simp
    rw [bigEndian, h1, h2, pow_succ', Nat.mod_mul]
    omega

theorem two_fifty_six_pow (n : Nat) : (256 : Nat) ^ n = 2 ^ (8 * n) := by
  rw [pow_mul]; norm_num

/-- The sampled width covers every offset (R191). -/
theorem range_le_sampleBytes {range : Nat} (h : 1 ≤ range) : range ≤ 256 ^ sampleBytes range := by
  have h1 := ceilDiv_mul_ge (bitlen (range - 1)) (by omega : 0 < 8)
  have h2 : bitlen (range - 1) ≤ 8 * sampleBytes range := by
    unfold sampleBytes
    omega
  have h3 := (bitlen_le_iff (range - 1) _).1 h2
  rw [two_fifty_six_pow]
  omega

/-- The sampled width is minimal (R191). -/
theorem sampleBytes_minimal {range : Nat} (h : 1 ≤ range) :
    1 ≤ sampleBytes range ∧ (sampleBytes range = 1 ∨ 256 ^ (sampleBytes range - 1) < range) := by
  refine ⟨by unfold sampleBytes; omega, ?_⟩
  by_cases h1 : sampleBytes range = 1
  · exact .inl h1
  · right
    have h2 : 8 * (sampleBytes range - 1) ≤ bitlen (range - 1) - 1 := by unfold sampleBytes ceilDiv at *; omega
    have h3 : 0 < range - 1 := by
      by_contra hc
      have e : range - 1 = 0 := by omega
      rw [sampleBytes, e] at h1
      exact h1 rfl
    rw [two_fifty_six_pow]
    have := (Nat.pow_le_pow_right (n := 2) (by omega) h2).trans (two_pow_le_of_pos h3)
    omega

/-! ### between -/

/-- Everything the sampling can answer: the first draw below the range, or exhaustion. -/
theorem sample_spec (byte : Nat → Byte) (range nb : Nat) : ∀ left t,
    (∃ u, t ≤ u ∧ u < t + left ∧ bigEndian byte (u * nb) nb < range ∧ (∀ w, t ≤ w → w < u → range ≤ bigEndian byte (w * nb) nb) ∧
      sample byte range nb left t = (.ok (bigEndian byte (u * nb) nb), u + 1)) ∨
    ((∀ w, t ≤ w → w < t + left → range ≤ bigEndian byte (w * nb) nb) ∧
      sample byte range nb left t = (.error .retryExhausted, t + left))
  | 0, t => .inr ⟨fun w h1 h2 => absurd h1 (by omega), rfl⟩
  | left + 1, t => by
    unfold sample
    by_cases hv : bigEndian byte (t * nb) nb < range
    · exact .inl ⟨t, le_refl _, by omega, hv, fun w h1 h2 => absurd h1 (by omega), if_pos hv⟩
    · simp only [if_neg hv]
      rcases sample_spec byte range nb left (t + 1) with ⟨u, h1, h2, h3, h4, h5⟩ | ⟨h1, h2⟩
      · refine .inl ⟨u, by omega, by omega, h3, fun w hw hu => ?_, h5⟩
        rcases Nat.eq_or_lt_of_le hw with rfl | hlt
        · omega
        · exact h4 w (by omega) hu
      · refine .inr ⟨fun w hw hu => ?_, by rw [h2]; congr 1; omega⟩
        rcases Nat.eq_or_lt_of_le hw with rfl | hlt
        · omega
        · exact h1 w (by omega) (by omega)

/-- The value of attempt t of a draw sequence (R191). -/
def attempt (byte : Nat → Byte) (range t : Nat) : Nat := bigEndian byte (t * sampleBytes range) (sampleBytes range)

theorem between_spec (byte : Nat → Byte) (low high : Nat) :
    (∃ u < Config.maxTries, attempt byte (high - low) u < high - low ∧ (∀ w < u, high - low ≤ attempt byte (high - low) w) ∧
      between byte low high = (.ok (low + attempt byte (high - low) u), (u + 1) * sampleBytes (high - low))) ∨
    ((∀ w < Config.maxTries, high - low ≤ attempt byte (high - low) w) ∧
      between byte low high = (.error .retryExhausted, Config.maxTries * sampleBytes (high - low))) := by
  rcases sample_spec byte (high - low) (sampleBytes (high - low)) Config.maxTries 0 with ⟨u, _, h2, h3, h4, h5⟩ | ⟨h1, h2⟩
  · exact .inl ⟨u, by omega, h3, fun w hw => h4 w (by omega) hw, by simp only [between, h5, attempt]⟩
  · exact .inr ⟨fun w hw => h1 w (by omega) (by omega), by simp only [between, h2, Nat.zero_add]⟩

/-! ### firstNonce -/

/-- Everything the nonce search can answer: the first candidate in [1, N − 1], or exhaustion. -/
theorem firstIn_spec (cand : Nat → Nat) (n : Nat) : ∀ left i,
    (∃ u, i ≤ u ∧ u < i + left ∧ (1 ≤ cand u ∧ cand u ≤ n - 1) ∧ (∀ w, i ≤ w → w < u → ¬ (1 ≤ cand w ∧ cand w ≤ n - 1)) ∧
      firstIn cand n left i = .ok (cand u, u)) ∨
    ((∀ w, i ≤ w → w < i + left → ¬ (1 ≤ cand w ∧ cand w ≤ n - 1)) ∧ firstIn cand n left i = .error .retryExhausted)
  | 0, i => .inr ⟨fun w h1 h2 => absurd h1 (by omega), rfl⟩
  | left + 1, i => by
    unfold firstIn
    by_cases hv : 1 ≤ cand i ∧ cand i ≤ n - 1
    · exact .inl ⟨i, le_refl _, by omega, hv, fun w h1 h2 => absurd h1 (by omega), if_pos hv⟩
    · simp only [if_neg hv]
      rcases firstIn_spec cand n left (i + 1) with ⟨u, h1, h2, h3, h4, h5⟩ | ⟨h1, h2⟩
      · refine .inl ⟨u, by omega, by omega, h3, fun w hw hu => ?_, h5⟩
        rcases Nat.eq_or_lt_of_le hw with rfl | hlt
        · exact hv
        · exact h4 w (by omega) hu
      · refine .inr ⟨fun w hw hu => ?_, h2⟩
        rcases Nat.eq_or_lt_of_le hw with rfl | hlt
        · exact hv
        · exact h1 w (by omega) (by omega)

theorem firstNonce_spec (cand : Nat → Nat) (n start : Nat) :
    (∃ u, start ≤ u ∧ u < Config.maxTries ∧ (1 ≤ cand u ∧ cand u ≤ n - 1) ∧
      (∀ w, start ≤ w → w < u → ¬ (1 ≤ cand w ∧ cand w ≤ n - 1)) ∧ firstNonce cand n start = .ok (cand u, u)) ∨
    ((∀ w, start ≤ w → w < Config.maxTries → ¬ (1 ≤ cand w ∧ cand w ≤ n - 1)) ∧
      firstNonce cand n start = .error .retryExhausted) := by
  rcases firstIn_spec cand n (Config.maxTries - start) start with ⟨u, h1, h2, h3, h4, h5⟩ | ⟨h1, h2⟩
  · exact .inl ⟨u, h1, by omega, h3, h4, h5⟩
  · exact .inr ⟨fun w hw hu => h1 w hw (by omega), h2⟩

end Sys2Proof.Machine
end

