-- ==== Sys2Proof/Laws/Ecdsa.lean ====
section
/-! SUPPORT. What one signing attempt, the signing loop and verification answer (44_ecdsa.md R212, R213, R216). -/

namespace Sys2Proof.Machine

/-! ### One signing attempt -/

theorem signCore_error {c : CurveVal} {e d k : Nat} {err : ErrCode} (h : signCore c e d k = .error err) : err = .notInvertible := by
  rcases bind_eq_error.1 h with h1 | ⟨pt, _, h2⟩
  · exact scalarMultiply_error h1
  · split at h2
    · cases h2
    · split at h2
      · cases h2
      · rcases bind_eq_error.1 h2 with h3 | ⟨kinv, _, h4⟩
        · exact (inv_eq_error_iff.1 h3).1
        · dsimp only at h4
          split at h4 <;> cases h4

/-- What an attempt that gives a signature has computed (R212). -/
theorem signCore_some {c : CurveVal} {e d k r t : Nat} (h : signCore c e d k = .ok (some (r, t))) :
    ∃ px py kinv, scalarMultiply c (basePoint c) k = .ok (.aff px py) ∧ r = px % c.n ∧ r ≠ 0 ∧ inv k c.n = .ok kinv ∧
      t = kinv * ((e + r * d) % c.n) % c.n ∧ t ≠ 0 := by
  obtain ⟨pt, h1, h2⟩ := bind_eq_ok.1 h
  cases pt with
  | inf => cases h2
  | aff px py =>
    simp only [xModN] at h2
    split at h2
    · cases h2
    · next hr =>
      obtain ⟨kinv, h3, h4⟩ := bind_eq_ok.1 h2
      split at h4
      · cases h4
      · next ht =>
        cases h4
        exact ⟨px, py, kinv, h1, rfl, hr, h3, rfl, ht⟩

theorem signCore_range {c : CurveVal} (hn : 0 < c.n) {e d k r t : Nat} (h : signCore c e d k = .ok (some (r, t))) :
    (1 ≤ r ∧ r ≤ c.n - 1) ∧ 1 ≤ t ∧ t ≤ c.n - 1 := by
  obtain ⟨px, py, kinv, _, h2, h3, _, h5, h6⟩ := signCore_some h
  have := Nat.mod_lt px hn
  have := Nat.mod_lt (kinv * ((e + r * d) % c.n)) hn
  omega

/-- Only the digest's residue matters to an attempt (R211). -/
theorem signCore_digest {c : CurveVal} {e e' d k : Nat} (h : e % c.n = e' % c.n) : signCore c e d k = signCore c e' d k := by
  have : ∀ r, (e + r * d) % c.n = (e' + r * d) % c.n := fun r => Nat.ModEq.add_right _ h
  simp only [signCore, this]

/-- Over primes P and N an attempt with a nonce in range is never NOT_INVERTIBLE (R212). -/
theorem signCore_prime {c : CurveVal} (hok : curveOK c = true) (hp : c.p.Prime) (hn : c.n.Prime) {e d k : Nat} (hk : inScalarRange c k) :
    ∃ o, signCore c e d k = .ok o := by
  obtain ⟨r, h1, _⟩ := scalarMultiply_ok hp (curveOK_spec hok).2.1 (canonical_base hok) k
  have h2 := hn.two_le
  obtain ⟨w, hw, _, _⟩ := inv_ok h2 (show k < c.n by omega) (gcd_prime hn (by omega) (by omega))
  unfold signCore
  rw [h1]
  simp only [ok_bind]
  cases xModN c r with
  | none => exact ⟨_, rfl⟩
  | some r =>
    dsimp only
    split
    · exact ⟨_, rfl⟩
    · rw [hw]
      simp only [ok_bind]
      split <;> exact ⟨_, rfl⟩

/-! ### The loop of SIGN -/

theorem signLoop_spec (c : CurveVal) (cand : Nat → Nat) (e d : Nat) : ∀ turns i, Config.maxTries < turns + i →
    (∃ u rs, i ≤ u ∧ u < Config.maxTries ∧ inScalarRange c (cand u) ∧ signCore c e d (cand u) = .ok (some rs) ∧
      (∀ w, i ≤ w → w < u → inScalarRange c (cand w) → signCore c e d (cand w) = .ok none) ∧
      signLoop c cand e d turns i = .ok rs) ∨
    (∃ u err, i ≤ u ∧ u < Config.maxTries ∧ inScalarRange c (cand u) ∧ signCore c e d (cand u) = .error err ∧
      (∀ w, i ≤ w → w < u → inScalarRange c (cand w) → signCore c e d (cand w) = .ok none) ∧
      signLoop c cand e d turns i = .error err) ∨
    ((∀ w, i ≤ w → w < Config.maxTries → inScalarRange c (cand w) → signCore c e d (cand w) = .ok none) ∧
      signLoop c cand e d turns i = .error .retryExhausted)
  | 0, i, h => .inr (.inr ⟨fun w h1 h2 => absurd h1 (by omega), rfl⟩)
  | turns + 1, i, h => by
    have none_before {u : Nat} (h4 : ∀ w, i ≤ w → w < u → ¬ inScalarRange c (cand w)) :
        ∀ w, i ≤ w → w < u → inScalarRange c (cand w) → signCore c e d (cand w) = .ok none :=
      fun w h1 h2 h3 => absurd h3 (h4 w h1 h2)
    rcases firstNonce_spec cand c.n i with ⟨u, h1, h2, h3, h4, h5⟩ | ⟨h1, h2⟩
    · rcases hs : signCore c e d (cand u) with err | (_ | rs)
      · exact .inr (.inl ⟨u, err, h1, h2, h3, hs, none_before h4, by simp only [signLoop, h5, ok_bind, hs, error_bind]⟩)
      · have hloop : signLoop c cand e d (turns + 1) i = signLoop c cand e d turns (u + 1) := by
          simp only [signLoop, h5, ok_bind, hs]
        have upto {v : Nat} (hr : ∀ w, u + 1 ≤ w → w < v → inScalarRange c (cand w) → signCore c e d (cand w) = .ok none) :
            ∀ w, i ≤ w → w < v → inScalarRange c (cand w) → signCore c e d (cand w) = .ok none := by
          intro w hw hv hin
          rcases Nat.lt_trichotomy w u with hlt | rfl | hgt
          · exact absurd hin (h4 w hw hlt)
          · exact hs
          · exact hr w (by omega) hv hin
        rw [hloop]
        rcases signLoop_spec c cand e d turns (u + 1) (by omega) with ⟨v, rs, g1, g2, g3, g4, g5, g6⟩ |
          ⟨v, err, g1, g2, g3, g4, g5, g6⟩ | ⟨g1, g2⟩
        · exact .inl ⟨v, rs, by omega, g2, g3, g4, upto g5, g6⟩
        · exact .inr (.inl ⟨v, err, by omega, g2, g3, g4, upto g5, g6⟩)
        · exact .inr (.inr ⟨upto g1, g2⟩)
      · exact .inl ⟨u, rs, h1, h2, h3, hs, none_before h4, by simp only [signLoop, h5, ok_bind, hs, pure_eq_ok]⟩
    · exact .inr (.inr ⟨none_before h1, by simp only [signLoop, h2, error_bind]⟩)

/-- Everything SIGN's loop can answer: the first candidate in range that gives a signature, the first that gives an error, or
exhaustion. -/
theorem signWith_spec (c : CurveVal) (cand : Nat → Nat) (e d : Nat) :
    (∃ u rs, u < Config.maxTries ∧ inScalarRange c (cand u) ∧ signCore c e d (cand u) = .ok (some rs) ∧
      (∀ w < u, inScalarRange c (cand w) → signCore c e d (cand w) = .ok none) ∧ signWith c cand e d = .ok rs) ∨
    (∃ u, u < Config.maxTries ∧ inScalarRange c (cand u) ∧ signCore c e d (cand u) = .error .notInvertible ∧
      (∀ w < u, inScalarRange c (cand w) → signCore c e d (cand w) = .ok none) ∧ signWith c cand e d = .error .notInvertible) ∨
    ((∀ w < Config.maxTries, inScalarRange c (cand w) → signCore c e d (cand w) = .ok none) ∧
      signWith c cand e d = .error .retryExhausted) := by
  rcases signLoop_spec c cand e d (Config.maxTries + 1) 0 (by omega) with ⟨u, rs, _, h2, h3, h4, h5, h6⟩ |
    ⟨u, err, _, h2, h3, h4, h5, h6⟩ | ⟨h1, h2⟩
  · exact .inl ⟨u, rs, h2, h3, h4, fun w => h5 w (Nat.zero_le w), h6⟩
  · cases signCore_error h4
    exact .inr (.inl ⟨u, h2, h3, h4, fun w => h5 w (Nat.zero_le w), h6⟩)
  · exact .inr (.inr ⟨fun w => h1 w (Nat.zero_le w), h2⟩)

/-! ### Verification -/

theorem verifyCore_error {c : CurveVal} {e r t : Nat} {q : Point} {err : ErrCode} (h : verifyCore c e r t q = .error err) :
    err = .notInvertible := by
  unfold verifyCore at h
  split at h
  · rcases bind_eq_error.1 h with h1 | ⟨w, _, h2⟩
    · exact (inv_eq_error_iff.1 h1).1
    · rcases bind_eq_error.1 h2 with h3 | ⟨p1, _, h4⟩
      · exact scalarMultiply_error h3
      · rcases bind_eq_error.1 h4 with h5 | ⟨p2, _, h6⟩
        · exact scalarMultiply_error h5
        · rcases bind_eq_error.1 h6 with h7 | ⟨p3, _, h8⟩
          · exact pointAdd_error h7
          · cases h8
  · cases h

/-- Only the digest's residue matters to verification (R211). -/
theorem verifyCore_digest {c : CurveVal} {e e' r t : Nat} {q : Point} (h : e % c.n = e' % c.n) :
    verifyCore c e r t q = verifyCore c e' r t q := by
  have : ∀ w, e * w % c.n = e' * w % c.n := fun w => Nat.ModEq.mul_right w h
  simp only [verifyCore, this]

/-- A signature out of range is false, whatever the key (R216). -/
theorem verifyCore_range {c : CurveVal} {e r t : Nat} {q : Point} (h : ¬ (inScalarRange c r ∧ inScalarRange c t)) :
    verifyCore c e r t q = .ok false :=
  if_neg fun h' => h ⟨⟨h'.1, h'.2.1⟩, h'.2.2⟩

/-! ### On a curve of R218 -/

section
variable {c : CurveVal} [Fact c.p.Prime]

omit [Fact c.p.Prime] in
/-- With N = 2 the multiplier gives G for 1 (R162). -/
theorem PrimeCurve.one_G (hn : c.n = 2) (pt : Point) : scalarMultiply c pt 1 = .ok pt := by
  rw [scalarMultiply, hn]
  cases pt <;> rfl

/-- A private key's public key (R210), as a point of the group, where the base point's y is not 0. -/
theorem PrimeCurve.publicKey_group (h : PrimeCurve c) {d : Nat} (hd : inScalarRange c d) {P : (weierstrass c).Point}
    (hP : (basePoint c).IsPoint c P) (hord : ∀ k, k • P = 0 ↔ c.n ∣ k) :
    ∃ q, scalarMultiply c (basePoint c) d = .ok q ∧ q.IsPoint c (d • P) ∧ onCurve c q = true := by
  have ho := (curveOK_spec h.ok).2.1
  have hn := h.primeN.two_le
  obtain ⟨q, hq, hqp⟩ := scalarMultiply_group ho hP d
  rw [Nat.mod_eq_of_lt (by omega)] at hqp
  refine ⟨q, hq, hqp, Point.onCurve_of_isPoint hqp ?_⟩
  rintro rfl
  have h0 : d • P = 0 := by
    generalize d • P = Q at hqp ⊢
    match Q with
    | .zero => rfl
    | .some _ _ _ => exact hqp.elim
  have := Nat.le_of_dvd (by omega) ((hord d).1 h0)
  omega

/-- A private key's public key is valid (R210, R215). -/
theorem PrimeCurve.publicKey (h : PrimeCurve c) {d : Nat} (hd : inScalarRange c d) :
    ∃ q, scalarMultiply c (basePoint c) d = .ok q ∧ onCurve c q = true := by
  by_cases hy : c.gy = 0
  · have hn := h.two hy
    have e : d = 1 := by unfold inScalarRange at hd; omega
    subst e
    exact ⟨_, one_G hn _, onCurve_base h.ok⟩
  · obtain ⟨P, hP, _, hord⟩ := h.base hy
    obtain ⟨q, h1, _, h2⟩ := h.publicKey_group hd hP hord
    exact ⟨q, h1, h2⟩

omit [Fact c.p.Prime] in
/-- A signature of an attempt verifies, where the base point's y is 0 and so N = 2. -/
theorem PrimeCurve.verify_flat (h : PrimeCurve c) (hy : c.gy = 0) {e d k r t : Nat} {q : Point} (hd : inScalarRange c d)
    (hk : inScalarRange c k) (hq : scalarMultiply c (basePoint c) d = .ok q) (hs : signCore c e d k = .ok (some (r, t))) :
    verifyCore c e r t q = .ok true := by
  have hn := h.two hy
  unfold inScalarRange at hd hk
  obtain rfl : d = 1 := by omega
  obtain rfl : k = 1 := by omega
  rw [one_G hn] at hq
  cases hq
  obtain ⟨px, py, kinv, h1, h2, h3, h4, h5, h6⟩ := signCore_some hs
  rw [one_G hn] at h1
  rw [hn] at h2 h4 h5
  obtain ⟨rfl, rfl⟩ : c.gx = px ∧ c.gy = py := by
    have := Except.ok.inj h1
    rwa [basePoint, Point.aff.injEq] at this
  have e1 : r = 1 := by omega
  have e2 : kinv = 1 := by
    obtain ⟨a, b⟩ := inv_spec (by omega) (by omega) h4
    omega
  subst e2
  rw [e1] at h5 ⊢
  have e3 : t = 1 := by omega
  have e4 : e % 2 = 0 := by omega
  subst e3
  have hw : inv 1 2 = .ok 1 := by decide
  have hu1 : e * 1 % 2 = 0 := by omega
  have hz : scalarMultiply c (basePoint c) 0 = .ok .inf := scalarMultiply_zero c _ (Nat.zero_mod _)
  have hr : ((xModN c (basePoint c) == some 1) : Bool) = true := by
    have e5 : c.gx % c.n = 1 := by rw [hn, ← h2, e1]
    rw [basePoint, xModN, e5]
    rfl
  have hin : 1 ≤ 1 ∧ 1 ≤ c.n - 1 ∧ 1 ≤ 1 ∧ 1 ≤ c.n - 1 := by omega
  rw [← hn] at hw hu1
  have hu2 : 1 * 1 % c.n = 1 := by rw [hn]
  simp only [verifyCore, if_pos hin, hw, ok_bind, hu1, hz, hu2, one_G hn, pointAdd_inf_left, pure_eq_ok, hr]

/-- A signature of an attempt verifies under the key's public key (R218). -/
theorem PrimeCurve.verify_signCore (h : PrimeCurve c) {e d k r t : Nat} {q : Point} (hd : inScalarRange c d) (hk : inScalarRange c k)
    (hq : scalarMultiply c (basePoint c) d = .ok q) (hs : signCore c e d k = .ok (some (r, t))) :
    verifyCore c e r t q = .ok true := by
  by_cases hy : c.gy = 0
  · exact h.verify_flat hy hd hk hq hs
  have ho := (curveOK_spec h.ok).2.1
  have hn := h.primeN.two_le
  obtain ⟨P, hP, hP0, hord⟩ := h.base hy
  obtain ⟨q', hq', hqp, _⟩ := h.publicKey_group hd hP hord
  obtain rfl : q = q' := Except.ok.inj (hq.symm.trans hq')
  obtain ⟨hr, ht⟩ := signCore_range (by omega) hs
  obtain ⟨px, py, kinv, h1, h2, _, h4, h5, _⟩ := signCore_some hs
  obtain ⟨kp, hkp, hkP⟩ := scalarMultiply_group ho hP k
  obtain rfl : Point.aff px py = kp := Except.ok.inj (h1.symm.trans hkp)
  rw [mod_nsmul_of_order hP0] at hkP
  obtain ⟨w, hw, _, hwi⟩ := inv_ok hn (by omega : t < c.n) (gcd_prime h.primeN (by omega) (by omega))
  obtain ⟨_, hki⟩ := inv_spec hn (by omega : k < c.n) h4
  obtain ⟨p1, hp1, hp1P⟩ := scalarMultiply_group ho hP (e * w % c.n)
  obtain ⟨p2, hp2, hp2P⟩ := scalarMultiply_group ho hqp (r * w % c.n)
  have hdP0 : c.n • d • P = 0 := by rw [← mul_nsmul', mul_comm, mul_nsmul', hP0, nsmul_zero]
  rw [mod_nsmul_of_order hP0, mod_nsmul_of_order hP0] at hp1P
  rw [mod_nsmul_of_order hdP0, mod_nsmul_of_order hdP0, ← mul_nsmul'] at hp2P
  obtain ⟨pt, hpt, hptP⟩ := pointAdd_group ho hp1P hp2P
  have hsum : e * w + r * w * d ≡ k [MOD c.n] := by
    have a1 : (k : ZMod c.n) * kinv = 1 := by
      have : k * kinv ≡ 1 [MOD c.n] := by rw [Nat.ModEq, hki, Nat.mod_eq_of_lt (by omega)]
      simpa using (ZMod.natCast_eq_natCast_iff _ _ c.n).2 this
    have a2 : (t : ZMod c.n) * w = 1 := by
      have : t * w ≡ 1 [MOD c.n] := by rw [Nat.ModEq, hwi, Nat.mod_eq_of_lt (by omega)]
      simpa using (ZMod.natCast_eq_natCast_iff _ _ c.n).2 this
    have a3 : (t : ZMod c.n) = kinv * (e + r * d) := by
      rw [h5]; simp
    apply (ZMod.natCast_eq_natCast_iff _ _ c.n).1
    push_cast
    calc (e : ZMod c.n) * w + r * w * d = w * ((k : ZMod c.n) * kinv) * (e + r * d) := by rw [a1]; ring
      _ = k * (t * w) := by rw [a3]; ring
      _ = k := by rw [a2, mul_one]
  have hsame : (e * w) • P + (r * w * d) • P = k • P := by
    rw [← add_nsmul, ← mod_nsmul_of_order hP0, hsum, mod_nsmul_of_order hP0]
  rw [hsame] at hptP
  obtain rfl := Point.isPoint_unique hptP hkP
  have hcond : 1 ≤ r ∧ r ≤ c.n - 1 ∧ 1 ≤ t ∧ t ≤ c.n - 1 := ⟨hr.1, hr.2, ht.1, ht.2⟩
  simp only [verifyCore, if_pos hcond, hw, ok_bind, hp1, hp2, hpt, pure_eq_ok]
  simp [xModN, h2]

end

end Sys2Proof.Machine
end

