-- ==== Sys2Proof/Laws/Exec.lean ====
section
/-! SUPPORT. Said once: everything the completion of a command can do. -/

namespace Sys2Proof.Machine

/-! ### The errors of the checks and of the computations -/

theorem State.canon_error {s : State} {m : ModSel} {i : XReg} {e : ErrCode} (h : s.canon m i = .error e) : e = .range := by
  rcases s.canon_spec m i with ⟨_, h1⟩ | ⟨_, h1⟩ <;> rw [h1] at h <;> cases h
  rfl

theorem State.pcanon_error {s : State} {i : PReg} {e : ErrCode} (h : s.pcanon i = .error e) : e = .range := by
  rcases s.pcanon_spec i with ⟨_, h1⟩ | ⟨_, h1⟩ <;> rw [h1] at h <;> cases h
  rfl

theorem State.scalarIn_error {s : State} {i : XReg} {e e' : ErrCode} (h : s.scalarIn i e = .error e') : e' = e := by
  rcases s.scalarIn_spec i e with ⟨_, _, h1⟩ | ⟨_, h1⟩ <;> rw [h1] at h <;> cases h
  rfl

theorem montgomery_error {a b m : Nat} {e : ErrCode} (h : montgomery a b m = .error e) : e = .notInvertible := by
  unfold montgomery at h
  split at h
  · cases h; rfl
  · rcases bind_eq_error.1 h with h1 | ⟨r, _, h2⟩
    · exact (inv_eq_error_iff.1 h1).1
    · cases h2

theorem radixSquared_error {m : Nat} {e : ErrCode} (h : radixSquared m = .error e) : e = .notInvertible := by
  unfold radixSquared at h
  split at h <;> cases h
  rfl

theorem between_error {byte : Nat → Byte} {low high : Nat} {e : ErrCode} (h : (between byte low high).1 = .error e) :
    e = .retryExhausted := by
  rcases between_spec byte low high with ⟨u, _, _, _, h1⟩ | ⟨_, h1⟩ <;> rw [h1] at h <;> cases h
  rfl

theorem firstNonce_error {cand : Nat → Nat} {n start : Nat} {e : ErrCode} (h : firstNonce cand n start = .error e) :
    e = .retryExhausted := by
  rcases firstNonce_spec cand n start with ⟨u, _, _, _, _, h1⟩ | ⟨_, h1⟩ <;> rw [h1] at h <;> cases h
  rfl

theorem signWith_error {c : CurveVal} {cand : Nat → Nat} {e d : Nat} {err : ErrCode} (h : signWith c cand e d = .error err) :
    err = .notInvertible ∨ err = .retryExhausted := by
  rcases signWith_spec c cand e d with ⟨_, _, _, _, _, _, h1⟩ | ⟨_, _, _, _, _, h1⟩ | ⟨_, h1⟩ <;> rw [h1] at h <;> cases h
  · exact .inl rfl
  · exact .inr rfl

/-! ### What a command's writes leave alone -/

/-- s' is s with the writes of command i applied, and b is what TRUE becomes. -/
structure Effect (i : Instr) (s s' : State) (b : Bool) : Prop where
  x : ∀ j, j ∉ i.writesX → s'.getX j = s.getX j
  pinf : ∀ j, j ∉ i.writesPinf → s'.getPinf j = s.getPinf j
  cr : i.loadsCurve = false → s'.cr = s.cr
  cv : i.validates = false → s'.cv = s.cv
  clen : i.validates = false → s'.clen = s.clen
  valid : i.validates = true → curveOK s'.curve = true ∧ s'.cv = true ∧ s'.clen = BitVec.ofNat 8 (curveLen s'.curve)
  truth : b = true → i.tests = true
  rest : s' = { s with x := s'.x, pinf := s'.pinf, cr := s'.cr, cv := s'.cv, clen := s'.clen }

theorem Effect.ie {i : Instr} {s s' : State} {b : Bool} (h : Effect i s s' b) : s'.ie = s.ie := by rw [h.rest]
theorem Effect.lastcmd {i : Instr} {s s' : State} {b : Bool} (h : Effect i s s' b) : s'.lastcmd = s.lastcmd := by rw [h.rest]
theorem Effect.busywr {i : Instr} {s s' : State} {b : Bool} (h : Effect i s s' b) : s'.busywr = s.busywr := by rw [h.rest]
theorem Effect.schedule {i : Instr} {s s' : State} {b : Bool} (h : Effect i s s' b) : s'.schedule = s.schedule := by rw [h.rest]
theorem Effect.rdata {i : Instr} {s s' : State} {b : Bool} (h : Effect i s s' b) : s'.rdata = s.rdata := by rw [h.rest]
theorem Effect.busyReads {i : Instr} {s s' : State} {b : Bool} (h : Effect i s s' b) : s'.busyReads = s.busyReads := by rw [h.rest]
theorem Effect.entropy {i : Instr} {s s' : State} {b : Bool} (h : Effect i s s' b) : s'.entropy = s.entropy := by rw [h.rest]
theorem Effect.entropyDrawn {i : Instr} {s s' : State} {b : Bool} (h : Effect i s s' b) : s'.entropyDrawn = s.entropyDrawn := by
  rw [h.rest]

/-- A computation's outcome is one the command may have: one of its errors, or its writes. -/
def Answers (i : Instr) (s : State) : Result → Prop
  | .ok (s', b) => Effect i s s' b
  | .error e => e ∈ i.raises

theorem Answers.bind {α : Type} {i : Instr} {s : State} {r : Except ErrCode α} {f : α → Result}
    (he : ∀ e, r = .error e → e ∈ i.raises) (hf : ∀ a, r = .ok a → Answers i s (f a)) : Answers i s (r >>= f) := by
  cases r with
  | error e => exact he e rfl
  | ok a => exact hf a rfl

/-- A command without a destination. -/
theorem Effect.nothing {i : Instr} {s : State} {b : Bool} (hv : i.validates = false) (hb : b = true → i.tests = true) :
    Effect i s s b :=
  ⟨fun _ _ => rfl, fun _ _ => rfl, fun _ => rfl, fun _ => rfl, fun _ => rfl, fun h => (by rw [hv] at h; cases h), hb, rfl⟩

theorem Effect.putX {i : Instr} {s : State} {d : XReg} {v : Nat} (hx : d ∈ i.writesX) (hv : i.validates = false) :
    Effect i s (s.putX d v) false :=
  ⟨fun _ h => s.getX_putX_ne v fun e => h (e ▸ hx), fun _ _ => rfl, fun _ => rfl, fun _ => rfl, fun _ => rfl,
    fun h => (by rw [hv] at h; cases h), nofun, rfl⟩

theorem Effect.putPair {i : Instr} {s : State} {d : SReg} {r t : Nat} (hl : loReg d ∈ i.writesX)
    (hh : hiReg d ∈ i.writesX) (hv : i.validates = false) : Effect i s (s.putPair d r t) false :=
  ⟨fun _ h => s.getX_putPair_ne r t (fun e => h (e ▸ hl)) fun e => h (e ▸ hh), fun _ _ => rfl, fun _ => rfl, fun _ => rfl,
    fun _ => rfl, fun h => (by rw [hv] at h; cases h), nofun, rfl⟩

theorem State.putPoint_rest (s : State) (d : PReg) (p : Point) :
    s.putPoint d p = { s with x := (s.putPoint d p).x, pinf := (s.putPoint d p).pinf } := by cases p <;> rfl

theorem Effect.putPoint {i : Instr} {s : State} {d : PReg} {p : Point} (hl : loReg d ∈ i.writesX)
    (hh : hiReg d ∈ i.writesX) (hp : d ∈ i.writesPinf) (hv : i.validates = false) :
    Effect i s (s.putPoint d p) false :=
  ⟨fun _ h => s.getX_putPoint_ne p (fun e => h (e ▸ hl)) fun e => h (e ▸ hh),
    fun _ h => s.getPinf_putPoint_ne p fun e => h (e ▸ hp),
    fun _ => (by rw [s.putPoint_rest]), fun _ => (by rw [s.putPoint_rest]), fun _ => (by rw [s.putPoint_rest]),
    fun h => (by rw [hv] at h; cases h), nofun, (by cases p <;> rfl)⟩

/-! ### Every command's outcome -/

theorem rom_fits (k : CurveId) : (rom k).a < 2 ^ 384 ∧ (rom k).b < 2 ^ 384 ∧ (rom k).p < 2 ^ 384 ∧ (rom k).n < 2 ^ 384 ∧
    (rom k).gx < 2 ^ 384 ∧ (rom k).gy < 2 ^ 384 := by cases k <;> decide +kernel

/-- The preset curves pass CurveOK (R113: "cannot happen for the ROM of rule R117"). -/
theorem rom_ok (k : CurveId) : curveOK (rom k) = true := by cases k <;> decide +kernel

theorem State.curve_loadCurve (s : State) (k : CurveId) : (s.loadCurve (rom k)).curve = rom k :=
  CurveRegs.val_ofVal (rom_fits k)

/-- A command but RAND completes with an outcome it may have, after the curve check where R86 asks for it. -/
theorem exec_answers (i : Instr) (s : State) (hr : i.drawsEntropy = false) :
    ∃ r, Answers i s r ∧ exec i s = if i.needsCurve then s.curveCommand r else s.finish r := by
  have rng {m : ModSel} {a : XReg} {l : List ErrCode} (hl : ErrCode.range ∈ l) : ∀ e, s.canon m a = .error e → e ∈ l :=
    fun e h => State.canon_error h ▸ hl
  have prng {a : PReg} {l : List ErrCode} (hl : ErrCode.range ∈ l) : ∀ e, s.pcanon a = .error e → e ∈ l :=
    fun e h => State.pcanon_error h ▸ hl
  have key {a : XReg} {e' : ErrCode} {l : List ErrCode} (hl : e' ∈ l) : ∀ e, s.scalarIn a e' = .error e → e ∈ l :=
    fun e h => State.scalarIn_error h ▸ hl
  cases i with
  | nop => exact ⟨.ok (s, false), Effect.nothing rfl nofun, rfl⟩
  | madd d a b m =>
    refine ⟨_, ?_, rfl⟩
    exact .bind (rng (by simp [Instr.raises])) fun _ _ => .bind (rng (by simp [Instr.raises])) fun _ _ =>
      Effect.putX (by simp [Instr.writesX]) rfl
  | msub d a b m =>
    refine ⟨_, ?_, rfl⟩
    exact .bind (rng (by simp [Instr.raises])) fun _ _ => .bind (rng (by simp [Instr.raises])) fun _ _ =>
      Effect.putX (by simp [Instr.writesX]) rfl
  | mmul d a b m =>
    refine ⟨_, ?_, rfl⟩
    exact .bind (rng (by simp [Instr.raises])) fun _ _ => .bind (rng (by simp [Instr.raises])) fun _ _ =>
      Effect.putX (by simp [Instr.writesX]) rfl
  | mmont d a b m =>
    refine ⟨_, ?_, rfl⟩
    exact .bind (rng (by simp [Instr.raises])) fun _ _ => .bind (rng (by simp [Instr.raises])) fun _ _ =>
      .bind (fun e h => by simp [montgomery_error h, Instr.raises]) fun _ _ => Effect.putX (by simp [Instr.writesX]) rfl
  | minv d a m =>
    refine ⟨_, ?_, rfl⟩
    exact .bind (rng (by simp [Instr.raises])) fun _ _ =>
      .bind (fun e h => by simp [(inv_eq_error_iff.1 h).1, Instr.raises]) fun _ _ => Effect.putX (by simp [Instr.writesX]) rfl
  | mred d a m =>
    refine ⟨_, ?_, rfl⟩
    exact Effect.putX (by simp [Instr.writesX]) rfl
  | mrr d m =>
    refine ⟨_, ?_, rfl⟩
    exact .bind (fun e h => by simp [radixSquared_error h, Instr.raises]) fun _ _ =>
      Effect.putX (by simp [Instr.writesX]) rfl
  | padd d a b =>
    refine ⟨_, ?_, rfl⟩
    exact .bind (prng (by simp [Instr.raises])) fun _ _ => .bind (prng (by simp [Instr.raises])) fun _ _ =>
      .bind (fun e h => by simp [pointAdd_error h, Instr.raises]) fun _ _ =>
      Effect.putPoint (by simp [Instr.writesX]) (by simp [Instr.writesX]) (by simp [Instr.writesPinf]) rfl
  | pdbl d a =>
    refine ⟨_, ?_, rfl⟩
    exact .bind (prng (by simp [Instr.raises])) fun _ _ => .bind (fun e h => by simp [pointAdd_error h, Instr.raises]) fun _ _ =>
      Effect.putPoint (by simp [Instr.writesX]) (by simp [Instr.writesX]) (by simp [Instr.writesPinf]) rfl
  | pmul d a b =>
    refine ⟨_, ?_, rfl⟩
    exact .bind (prng (by simp [Instr.raises])) fun _ _ =>
      .bind (fun e h => by simp [scalarMultiply_error h, Instr.raises]) fun _ _ =>
      Effect.putPoint (by simp [Instr.writesX]) (by simp [Instr.writesX]) (by simp [Instr.writesPinf]) rfl
  | pchk a => exact ⟨.ok (s, _), Effect.nothing rfl fun _ => rfl, rfl⟩
  | pldg d =>
    refine ⟨_, ?_, rfl⟩
    exact Effect.putPoint (by simp [Instr.writesX]) (by simp [Instr.writesX]) (by simp [Instr.writesPinf]) rfl
  | pubk d a =>
    refine ⟨_, ?_, rfl⟩
    exact .bind (key (by simp [Instr.raises])) fun _ _ =>
      .bind (fun e h => by simp [scalarMultiply_error h, Instr.raises]) fun _ _ =>
      Effect.putPoint (by simp [Instr.writesX]) (by simp [Instr.writesX]) (by simp [Instr.writesPinf]) rfl
  | rand d => cases hr
  | nonce d a b =>
    refine ⟨_, ?_, rfl⟩
    exact .bind (key (by simp [Instr.raises])) fun _ _ =>
      .bind (fun e h => by simp [firstNonce_error h, Instr.raises]) fun _ _ => Effect.putX (by simp [Instr.writesX]) rfl
  | sign d a b =>
    refine ⟨_, ?_, rfl⟩
    exact .bind (key (by simp [Instr.raises])) fun _ _ =>
      .bind (fun e h => by rcases signWith_error h with rfl | rfl <;> simp [Instr.raises]) fun _ _ =>
      Effect.putPair (by simp [Instr.writesX]) (by simp [Instr.writesX]) rfl
  | signk d a b c =>
    refine ⟨_, .bind (key (by simp [Instr.raises])) fun _ _ => .bind (key (by simp [Instr.raises])) fun _ _ =>
      .bind (fun e h => by simp [signCore_error h, Instr.raises]) fun o _ => ?_, rfl⟩
    cases o with
    | none => simp [Answers, Instr.raises]
    | some rs => exact Effect.putPair (by simp [Instr.writesX]) (by simp [Instr.writesX]) rfl
  | verify a b c =>
    refine ⟨_, ?_, rfl⟩
    split
    · exact .bind (fun e h => by simp [verifyCore_error h, Instr.raises]) fun _ _ => .nothing rfl fun _ => rfl
    · simp [Answers, Instr.raises]
  | cset =>
    refine ⟨_, ?_, rfl⟩
    split
    · next h => exact ⟨fun _ _ => rfl, fun _ _ => rfl, fun _ => rfl, nofun, nofun, fun _ => ⟨h, rfl, rfl⟩, nofun, rfl⟩
    · simp [Answers, Instr.raises]
  | cload k =>
    refine ⟨_, ?_, rfl⟩
    rw [if_pos (rom_ok k)]
    refine ⟨fun _ _ => rfl, fun _ _ => rfl, nofun, nofun, nofun, fun _ => ?_, nofun, rfl⟩
    have hc : ((s.loadCurve (rom k)).validate (rom k)).curve = rom k := s.curve_loadCurve k
    rw [hc]
    exact ⟨rom_ok k, rfl, rfl⟩

theorem State.drawn_zero (s : State) : s.drawn 0 = s := rfl

theorem exec_rand_unloaded {s : State} (d : XReg) (h : s.cv = false) : exec (.rand d) s = .next (s.takeError .noCurve) := by
  simp [exec, execRand, h, State.curveCommand_unloaded h]

/-- RAND's two outcomes with the curve loaded (R197): the first accepted draw, or exhaustion. -/
theorem exec_rand_loaded {s : State} (d : XReg) (h : s.cv = true) :
    (∃ u < Config.maxTries, attempt s.entropyAt (s.curve.n - 1) u < s.curve.n - 1 ∧
      (∀ w < u, s.curve.n - 1 ≤ attempt s.entropyAt (s.curve.n - 1) w) ∧
      exec (.rand d) s = .next (((s.drawn ((u + 1) * sampleBytes (s.curve.n - 1))).putX d
        (1 + attempt s.entropyAt (s.curve.n - 1) u)).succeed false)) ∨
    ((∀ w < Config.maxTries, s.curve.n - 1 ≤ attempt s.entropyAt (s.curve.n - 1) w) ∧
      exec (.rand d) s =
        .next ((s.drawn (Config.maxTries * sampleBytes (s.curve.n - 1))).takeError .retryExhausted)) := by
  rcases between_spec s.entropyAt 1 s.curve.n with ⟨u, h1, h2, h3, h4⟩ | ⟨h1, h2⟩
  · exact .inl ⟨u, h1, h2, h3, by simp only [exec, execRand, h, if_true, h4, State.finish_ok]⟩
  · exact .inr ⟨h1, by simp only [exec, execRand, h, if_true, h2, State.finish_error]⟩

/-- Everything the completion of a command can do: it never stops. It fails with one of its errors and changes nothing but STATUS, or
it applies its writes and sets the flags of success; RAND has drawn k entropy bytes in either case, any other command none. -/
theorem exec_cases (i : Instr) (s : State) : ∃ k, (i.drawsEntropy = false → k = 0) ∧
    ((∃ e ∈ i.raises, exec i s = .next ((s.drawn k).takeError e)) ∨
      (∃ s' b, Effect i (s.drawn k) s' b ∧ exec i s = .next (s'.succeed b))) := by
  cases hd : i.drawsEntropy
  · refine ⟨0, fun _ => rfl, ?_⟩
    rw [s.drawn_zero]
    obtain ⟨r, hr, he⟩ := exec_answers i s hd
    have fin : (∃ e ∈ i.raises, s.finish r = .next (s.takeError e)) ∨ (∃ s' b, Effect i s s' b ∧ s.finish r = .next (s'.succeed b)) := by
      rcases s.finish_cases r with ⟨s', t, rfl, h2⟩ | ⟨e, rfl, h2⟩
      · exact .inr ⟨s', t, hr, h2⟩
      · exact .inl ⟨e, hr, h2⟩
    cases hn : i.needsCurve
    · simpa [he, hn] using fin
    · cases hc : s.cv
      · refine .inl ⟨.noCurve, ?_, by rw [he, if_pos hn, State.curveCommand_unloaded hc]⟩
        cases i <;> first | (cases hn; done) | simp [Instr.raises]
      · rw [he, if_pos hn, State.curveCommand_loaded hc]
        exact fin
  · cases i with
    | rand d =>
      cases hc : s.cv
      · exact ⟨0, nofun, .inl ⟨.noCurve, by simp [Instr.raises], exec_rand_unloaded d hc⟩⟩
      · rcases exec_rand_loaded d hc with ⟨u, _, _, _, h⟩ | ⟨_, h⟩
        · exact ⟨_, nofun, .inr ⟨_, _, Effect.putX (by simp [Instr.writesX]) rfl, h⟩⟩
        · exact ⟨_, nofun, .inl ⟨_, by simp [Instr.raises], h⟩⟩
    | _ => cases hd

/-- No command stops the machine (60_exceptions.md R232, R235). -/
theorem exec_next (i : Instr) (s : State) : ∃ t, exec i s = .next t := by
  obtain ⟨k, _, ⟨e, _, h⟩ | ⟨s', b, _, h⟩⟩ := exec_cases i s
  · exact ⟨_, h⟩
  · exact ⟨_, h⟩

/-- What a command's next state shares with the state before it, for every command but CSET and CLOAD. -/
theorem exec_frame {i : Instr} {s t : State} (hv : i.validates = false) (h : exec i s = .next t) :
    (∀ j, j ∉ i.writesX → t.getX j = s.getX j) ∧ (∀ j, j ∉ i.writesPinf → t.getPinf j = s.getPinf j) ∧
    (t.cr = s.cr ∧ t.cv = s.cv ∧ t.clen = s.clen ∧ t.ie = s.ie ∧ t.lastcmd = s.lastcmd ∧ t.busywr = s.busywr ∧
      t.schedule = s.schedule ∧ t.rdata = s.rdata ∧ t.busyReads = s.busyReads) ∧
    (i.tests = false → t.truth = false) ∧ (i.drawsEntropy = false → t.entropy = s.entropy ∧ t.entropyDrawn = s.entropyDrawn) := by
  have hl : i.loadsCurve = false := by cases i <;> first | rfl | cases hv
  obtain ⟨k, hk, ⟨e, _, h'⟩ | ⟨s', b, he, h'⟩⟩ := exec_cases i s
  · rw [h'] at h
    cases h
    refine ⟨fun _ _ => rfl, fun _ _ => rfl, ⟨rfl, rfl, rfl, rfl, rfl, rfl, rfl, rfl, rfl⟩, fun _ => rfl, fun hd => ?_⟩
    rw [hk hd]
    exact ⟨rfl, rfl⟩
  · rw [h'] at h
    cases h
    refine ⟨he.x, he.pinf, ⟨he.cr hl, he.cv hv, he.clen hv, he.ie, he.lastcmd, he.busywr, he.schedule, he.rdata, he.busyReads⟩,
      fun ht => ?_, fun hd => ?_⟩
    · show b = false
      cases hb : b
      · rfl
      · rw [he.truth hb] at ht
        cases ht
    · rw [hk hd] at he
      exact ⟨he.entropy, he.entropyDrawn⟩

/-- What SIGN computes from the curve, CV, the digest and the key (R213). -/
def signResult (c : CurveVal) (cv : Bool) (e d : Nat) : Except ErrCode (Nat × Nat) :=
  if cv then
    if inScalarRange c d then signWith c (nonceCandidate c d e) e d else .error .invalidKey
  else .error .noCurve

theorem exec_sign_eq (d : SReg) (a b : XReg) (s : State) :
    exec (.sign d a b) s = s.finish ((signResult s.curve s.cv (s.xVal a) (s.xVal b)).bind fun rs => .ok (s.putPair d rs.1 rs.2, false)) := by
  unfold signResult
  cases hc : s.cv
  · simp only [exec, execSign, State.curveCommand_unloaded hc]
    rfl
  · simp only [exec, execSign, State.curveCommand_loaded hc, State.secret, if_true]
    by_cases h : inScalarRange s.curve (s.xVal b)
    · rw [State.scalarIn_ok h, if_pos h]
      rfl
    · rw [State.scalarIn_out h, if_neg h]
      rfl

end Sys2Proof.Machine
end

