-- ==== Sys2Proof/Laws/Window.lean ====
section
/-! SUPPORT. The register window: where an offset lies, one word of a register, and what a host access changes. -/

namespace Sys2Proof.Machine

/-! ### The map -/

/-- Above the control registers the map has three parts left: operand slots, curve slots, reserved offsets. -/
theorem locate_data {off : Nat} (h : 0x100 ≤ off) :
    locate off =
      if off < 0x500 then
        if h : off % 0x40 / 4 < 12 then .xWord (Fin.ofNat 16 ((off - 0x100) / 0x40)) ⟨off % 0x40 / 4, h⟩ else .slotReserved
      else if off < 0x680 then
        if h : off % 0x40 / 4 < 12 then .crWord (CurveReg.ofSlot ((off - 0x500) / 0x40)) ⟨off % 0x40 / 4, h⟩ else .slotReserved
      else .reserved := by
  have control : ∀ k < 0x100, off ≠ k := by omega
  by_cases hx : off < 0x500
  · simp [locate, control, h, hx]
  · simp [locate, control, hx, show 0x500 ≤ off by omega]

theorem locate_xOffset (i : XReg) (j : Fin 12) : locate (xOffset i j) = .xWord i j := by
  have hi := i.isLt
  have hj := j.isLt
  have h1 : xOffset i j = 0x100 + 0x40 * i.val + 4 * j.val := rfl
  have h2 : (xOffset i j) % 0x40 / 4 = j.val := by omega
  have h3 : (xOffset i j - 0x100) / 0x40 = i.val := by omega
  rw [locate_data (by omega), if_pos (by omega), dif_pos (by omega)]
  have e1 : Fin.ofNat 16 ((xOffset i j - 0x100) / 0x40) = i := by
    apply Fin.ext
    simp only [Fin.ofNat, h3]
    omega
  simp only [e1, h2]

theorem CurveReg.ofSlot_slot (c : CurveReg) : CurveReg.ofSlot c.slot = c := by cases c <;> rfl

theorem CurveReg.slot_lt (c : CurveReg) : c.slot < 6 := by cases c <;> decide

theorem locate_crOffset (c : CurveReg) (j : Fin 12) : locate (crOffset c j) = .crWord c j := by
  have hc := c.slot_lt
  have hj := j.isLt
  have h1 : crOffset c j = 0x500 + 0x40 * c.slot + 4 * j.val := rfl
  have h2 : (crOffset c j) % 0x40 / 4 = j.val := by omega
  have h3 : (crOffset c j - 0x500) / 0x40 = c.slot := by omega
  rw [locate_data (by omega), if_neg (by omega), if_pos (by omega), dif_pos (by omega)]
  simp only [h3, h2, CurveReg.ofSlot_slot]

/-- Everything the map can answer for an offset of 0x100–0x67F. -/
theorem locate_slots {off : Nat} (h1 : 0x100 ≤ off) (h2 : off < 0x680) :
    (∃ i j, locate off = .xWord i j) ∨ (∃ c j, locate off = .crWord c j) ∨ locate off = .slotReserved := by
  rw [locate_data h1]
  split
  · split
    · exact .inl ⟨_, _, rfl⟩
    · exact .inr (.inr rfl)
  · split
    · exact .inr (.inl ⟨_, _, rfl⟩)
    · exact .inr (.inr rfl)

/-- Words 12..15 of a slot. -/
theorem locate_slotReserved {off : Nat} (h1 : 0x100 ≤ off) (h2 : off < 0x680) (h3 : 12 ≤ off % 0x40 / 4) :
    locate off = .slotReserved := by
  rw [locate_data h1]
  split
  · rw [dif_neg (by omega)]
  · rw [dif_neg (by omega)]

theorem locate_reserved {off : Nat} (h4 : off % 4 = 0) (h : 0x018 ≤ off ∧ off < 0x100 ∨ 0x680 ≤ off) : locate off = .reserved := by
  rcases h with ⟨h1, h2⟩ | h
  · have control : ∀ k < 0x018, off ≠ k := by omega
    simp [locate, control, show ¬ 0x100 ≤ off by omega, show ¬ 0x500 ≤ off by omega]
  · rw [locate_data (by omega)]
    simp [show ¬ off < 0x680 by omega, show ¬ off < 0x500 by omega]

theorem accessRefusal_none {off : Nat} (h4 : off % 4 = 0) (h : off < 0x1000) : accessRefusal off 4 = none := by
  unfold accessRefusal
  rw [if_neg (by omega), if_neg (by omega), if_neg (by omega)]

theorem accessRefusal_eq_none_iff {off width : Nat} : accessRefusal off width = none ↔ width = 4 ∧ off % 4 = 0 ∧ off < 0x1000 := by
  unfold accessRefusal
  constructor
  · intro h
    split at h
    · cases h
    · split at h
      · cases h
      · split at h
        · cases h
        · omega
  · rintro ⟨h1, h2, h3⟩
    rw [if_neg (by omega), if_neg (by omega), if_neg (by omega)]

/-! ### One word of a register -/

theorem getLsbD_setWord (r : Reg) (j : Fin 12) (v : Word) (k : Nat) :
    (setWord r j v).getLsbD k =
      if 32 * j.val ≤ k ∧ k < 32 * j.val + 32 then v.getLsbD (k - 32 * j.val) else r.getLsbD k := by
  have hj := j.isLt
  unfold setWord
  simp only [BitVec.getLsbD_or, BitVec.getLsbD_and, BitVec.getLsbD_not, BitVec.getLsbD_shiftLeft, BitVec.getLsbD_setWidth,
    BitVec.getLsbD_allOnes]
  by_cases h : 32 * j.val ≤ k ∧ k < 32 * j.val + 32
  · rw [if_pos h]
    simp [show k < 384 by omega, show ¬ k < 32 * j.val by omega, show k - 32 * j.val < 32 by omega,
      show k - 32 * j.val < 384 by omega]
  · rw [if_neg h]
    by_cases hk : k < 384
    · by_cases h2 : k < 32 * j.val
      · simp [hk, h2]
      · simp [hk, h2, show ¬ k - 32 * j.val < 32 by omega, BitVec.getLsbD_of_ge v (k - 32 * j.val) (by omega)]
    · simp [hk, BitVec.getLsbD_of_ge r k (by omega)]

/-- Read after write, the same word. -/
theorem getWord_setWord_self (r : Reg) (j : Fin 12) (v : Word) : getWord (setWord r j v) j = v := by
  apply BitVec.eq_of_getLsbD_eq
  intro k hk
  simp only [getWord, BitVec.getLsbD_extractLsb', getLsbD_setWord, hk, decide_true, Bool.true_and]
  rw [if_pos (by omega)]
  congr 1
  omega

/-- Read after write, another word. -/
theorem getWord_setWord_ne (r : Reg) {i j : Fin 12} (v : Word) (h : i ≠ j) : getWord (setWord r j v) i = getWord r i := by
  have h' : i.val ≠ j.val := fun e => h (Fin.ext e)
  apply BitVec.eq_of_getLsbD_eq
  intro k hk
  simp only [getWord, BitVec.getLsbD_extractLsb', getLsbD_setWord]
  rw [if_neg (by omega)]

theorem CurveRegs.get_set_self (r : CurveRegs) (v : Reg) (c : CurveReg) : (r.set v c).get c = v := by cases c <;> rfl

theorem CurveRegs.get_set_ne (r : CurveRegs) (v : Reg) {c c' : CurveReg} (h : c' ≠ c) : (r.set v c).get c' = r.get c' := by
  cases c <;> cases c' <;> first | rfl | exact absurd rfl h

/-! ### Host accesses -/

theorem State.memRead_next {s : State} {off : Nat} (h4 : off % 4 = 0) (h : off < 0x1000) :
    s.memRead off 4 = .next (s.hostRead (locate off)) := by
  simp [State.memRead, accessRefusal_none h4 h]

theorem State.memWrite_next {s : State} {off : Nat} (v : Word) (h4 : off % 4 = 0) (h : off < 0x1000) :
    s.memWrite off 4 v = .next (s.hostWrite (locate off) v) := by
  simp [State.memWrite, accessRefusal_none h4 h]

/-- A read changes nothing but what it returns and the count of free values. -/
theorem State.hostRead_eq (s : State) (l : Location) :
    s.hostRead l = { s with rdata := (s.hostRead l).rdata, busyReads := (s.hostRead l).busyReads } := by
  unfold State.hostRead
  split <;> rfl

theorem State.hostWrite_locked {s : State} {l : Location} (v : Word) (hb : s.busy = true) (hl : l.busyLocked = true) :
    s.hostWrite l v = s.lostWrite := by
  simp [State.hostWrite, hb, hl]

/-! ### A host write, location by location -/

theorem State.hostWrite_id (s : State) (v : Word) : s.hostWrite .id v = s := by simp [State.hostWrite, Location.busyLocked]

theorem State.hostWrite_ctrl (s : State) (v : Word) : s.hostWrite .ctrl v = s.writeCtrl v := by
  simp [State.hostWrite, Location.busyLocked]

theorem State.hostWrite_status (s : State) (v : Word) : s.hostWrite .status v = s.writeStatus v := by
  simp [State.hostWrite, Location.busyLocked]

theorem State.hostWrite_clen (s : State) (v : Word) : s.hostWrite .clen v = s := by simp [State.hostWrite, Location.busyLocked]

theorem State.hostWrite_reserved (s : State) (v : Word) : s.hostWrite .reserved v = s := by
  simp [State.hostWrite, Location.busyLocked]

theorem State.hostWrite_cmd {s : State} (v : Word) (h : s.busy = false) : s.hostWrite .cmd v = s.accept v := if_neg (by simp [h])

theorem State.hostWrite_pinf {s : State} (v : Word) (h : s.busy = false) : s.hostWrite .pinf v = s.writePinf v :=
  if_neg (by simp [h])

theorem State.hostWrite_xWord {s : State} (i : XReg) (j : Fin 12) (v : Word) (h : s.busy = false) :
    s.hostWrite (.xWord i j) v = s.writeX i j v := if_neg (by simp [h])

theorem State.hostWrite_crWord {s : State} (c : CurveReg) (j : Fin 12) (v : Word) (h : s.busy = false) :
    s.hostWrite (.crWord c j) v = s.writeCurve c j v := if_neg (by simp [h])

theorem State.hostWrite_slotReserved {s : State} (v : Word) (h : s.busy = false) : s.hostWrite .slotReserved v = s :=
  if_neg (by simp [h])

theorem State.writeCtrl_reset (s : State) {v : Word} (h : v.getLsbD 1 = true) : s.writeCtrl v = s.coreReset := if_pos h

theorem State.writeCtrl_ie (s : State) {v : Word} (h : v.getLsbD 1 = false) : s.writeCtrl v = { s with ie := v.getLsbD 0 } :=
  if_neg fun e => by rw [h] at e; cases e

theorem locate_eq_ctrl {off : Nat} : locate off = .ctrl ↔ off = 0x004 := by
  refine ⟨fun h => ?_, fun h => h ▸ rfl⟩
  unfold locate at h
  repeat' split at h
  all_goals first | assumption | cases h

theorem locate_eq_status {off : Nat} : locate off = .status ↔ off = 0x008 := by
  refine ⟨fun h => ?_, fun h => h ▸ rfl⟩
  unfold locate at h
  repeat' split at h
  all_goals first | assumption | cases h

theorem locate_eq_pinf {off : Nat} : locate off = .pinf ↔ off = 0x010 := by
  refine ⟨fun h => ?_, fun h => h ▸ rfl⟩
  unfold locate at h
  repeat' split at h
  all_goals first | assumption | cases h

/-! ### A host read -/

theorem State.hostRead_free {s : State} {l : Location} (hb : s.busy = true) (hl : l.busyUnspecified = true) :
    s.hostRead l = { s with rdata := Config.busyRead s.busyReads, busyReads := s.busyReads + 1 } := if_pos (by simp [hb, hl])

theorem State.hostRead_word {s : State} {l : Location} (h : s.busy = false ∨ l.busyUnspecified = false) :
    s.hostRead l = { s with rdata := s.wordAt l } := if_neg (by rcases h with h | h <;> simp [h])

/-- Everything an access can answer: the refusal of the access, or a next state. -/
theorem State.take_cases (s : State) (e : Event) :
    (∃ s', s.take e = .next s') ∨ (∃ r, s.take e = .refused r) ∨ (e = .complete ∧ s.busy = true ∧ s.take e = s.complete) := by
  cases e with
  | read off width =>
    simp only [State.take, State.memRead]
    split
    · exact .inr (.inl ⟨_, rfl⟩)
    · exact .inl ⟨_, rfl⟩
  | write off width v =>
    simp only [State.take, State.memWrite]
    split
    · exact .inr (.inl ⟨_, rfl⟩)
    · exact .inl ⟨_, rfl⟩
  | reset => exact .inl ⟨_, rfl⟩
  | complete =>
    cases h : s.busy
    · exact .inl ⟨s, by simp [State.take, State.coreTurn, h]⟩
    · exact .inr (.inr ⟨rfl, rfl, by simp [State.take, State.coreTurn, h]⟩)
  | nonCoherentAccess => exact .inr (.inl ⟨_, rfl⟩)

/-! ### Where a location lies -/

theorem locate_xWord_off {off : Nat} {i : XReg} {j : Fin 12} (h : locate off = .xWord i j) (h4 : off % 4 = 0) : off = xOffset i j := by
  unfold locate at h
  repeat' split at h
  all_goals first | (cases h; done) | skip
  injection h with h1 h2
  subst h1 h2
  unfold xOffset
  simp only [Fin.ofNat]
  omega

theorem locate_crWord_off {off : Nat} {c : CurveReg} {j : Fin 12} (h : locate off = .crWord c j) : 0x500 ≤ off ∧ off < 0x680 := by
  unfold locate at h
  repeat' split at h
  all_goals first | (cases h; done) | skip
  omega

theorem locate_clen_off {off : Nat} (h : locate off = .clen) : off = 0x014 := by
  unfold locate at h
  repeat' split at h
  all_goals first | (cases h; done) | assumption

/-- A word of the window other than STATUS is as before when the register it shows is. -/
theorem State.windowWord_congr {s t : State} {off : Nat} (h4 : off % 4 = 0) (hs : off ≠ 0x008) (hie : t.ie = s.ie)
    (hl : t.lastcmd = s.lastcmd) (hp : off = 0x010 → t.pinf = s.pinf) (hcl : off = 0x014 → t.clen = s.clen)
    (hx : ∀ j : XReg, 0x100 + 0x40 * j.val ≤ off → off < 0x100 + 0x40 * j.val + 0x30 → t.getX j = s.getX j)
    (hcr : 0x500 ≤ off ∧ off < 0x680 → t.cr = s.cr) : t.windowWord off = s.windowWord off := by
  unfold State.windowWord
  rcases hloc : locate off with _ | _ | _ | _ | _ | _ | ⟨i, j⟩ | ⟨c, j⟩ | _ | _
  · rfl
  · show t.ctrlWord = s.ctrlWord
    simp only [State.ctrlWord, hie]
  · exact absurd (locate_eq_status.1 hloc) hs
  · exact hl
  · show t.pinfWord = s.pinfWord
    simp only [State.pinfWord, hp (locate_eq_pinf.1 hloc)]
  · show t.clenWord = s.clenWord
    simp only [State.clenWord, hcl (locate_clen_off hloc)]
  · show getWord (t.getX i) j = getWord (s.getX i) j
    have h := locate_xWord_off hloc h4
    have hj := j.isLt
    unfold xOffset at h
    rw [hx i (by omega) (by omega)]
  · show getWord (t.cr.get c) j = getWord (s.cr.get c) j
    rw [hcr (locate_crWord_off hloc)]
  · rfl
  · rfl

end Sys2Proof.Machine
end

