-- ==== Sys2Proof/Laws/Step.lean ====
section
/-! SUPPORT. Said once: everything one step of the machine can do. -/

namespace Sys2Proof.Machine

/-! ### The core's completion step -/

theorem State.complete_command {s : State} {i : Instr} (h : decode s.lastcmd = .command i) : s.complete = exec i s := by
  simp only [State.complete, h]

theorem State.complete_illegalOpcode {s : State} (h : decode s.lastcmd = .illegalOpcode) :
    s.complete = .next (s.takeError .illegalOpcode) := by
  simp only [State.complete, h, State.rejectWord, State.finish_error]

theorem State.complete_illegalOperand {s : State} (h : decode s.lastcmd = .illegalOperand) :
    s.complete = .next (s.takeError .illegalOperand) := by
  simp only [State.complete, h, State.rejectWord, State.finish_error]

/-- Everything the completion step can do (30_encoding.md R99). -/
theorem State.complete_cases (s : State) :
    (∃ k e, s.complete = .next ((s.drawn k).takeError e)) ∨
      (∃ k i s' b, decode s.lastcmd = .command i ∧ Effect i (s.drawn k) s' b ∧ s.complete = .next (s'.succeed b)) := by
  rcases hd : decode s.lastcmd with i | _ | _
  · obtain ⟨k, _, ⟨e, _, h⟩ | ⟨s', b, he, h⟩⟩ := exec_cases i s
    · exact .inl ⟨k, e, (complete_command hd).trans h⟩
    · exact .inr ⟨k, i, s', b, rfl, he, (complete_command hd).trans h⟩
  · exact .inl ⟨0, _, complete_illegalOpcode hd⟩
  · exact .inl ⟨0, _, complete_illegalOperand hd⟩

theorem State.complete_next (s : State) : ∃ t, s.complete = .next t := by
  rcases s.complete_cases with ⟨_, _, h⟩ | ⟨_, _, _, _, _, _, h⟩
  · exact ⟨_, h⟩
  · exact ⟨_, h⟩

/-- After a completion nothing is in flight (R99). -/
theorem State.complete_busy {s t : State} (h : s.complete = .next t) : t.busy = false := by
  rcases s.complete_cases with ⟨_, _, h'⟩ | ⟨_, _, _, _, _, _, h'⟩ <;> rw [h'] at h <;> cases h <;> rfl

/-! ### One step -/

/-- The state a step starts from: the next event taken off the schedule. -/
def State.popped (s : State) : State := { s with schedule := s.schedule.tail }

/-- Everything a step that answers a next state has done: nothing (an idle core's turn), the completion of the command in flight, a
host read, a host write, or a reset. -/
theorem step_cases {s t : State} (h : step s = .next t) :
    (s.busy = false ∧ t = s.popped) ∨
    (s.Completing ∧ s.popped.complete = .next t ∧ t.busy = false) ∨
    (∃ off width rest, s.schedule = .read off width :: rest ∧ accessRefusal off width = none ∧ t = s.popped.hostRead (locate off)) ∨
    (∃ off width v rest, s.schedule = .write off width v :: rest ∧ accessRefusal off width = none ∧
      t = s.popped.hostWrite (locate off) v) ∨
    (∃ rest, s.schedule = .reset :: rest ∧ t = s.popped.coreReset) := by
  unfold step at h
  split at h
  · next hs =>
    have hp : s.popped = s := by
      obtain ⟨⟩ := s
      simp only at hs
      subst hs
      rfl
    rw [hp]
    unfold State.coreTurn at h
    split at h
    · next hb => exact .inr (.inl ⟨⟨hb, .inl hs⟩, h, State.complete_busy h⟩)
    · next hb => exact .inl ⟨by simpa using hb, (Host.Outcome.next.inj h).symm⟩
  · next e rest hs =>
    have hp : s.popped = { s with schedule := rest } := by simp only [State.popped, hs, List.tail_cons]
    rw [← hp] at h
    cases e with
    | read off width =>
      refine .inr (.inr (.inl ⟨off, width, rest, hs, ?_⟩))
      simp only [State.take, State.memRead] at h
      split at h
      · cases h
      · next hr => exact ⟨hr, (Host.Outcome.next.inj h).symm⟩
    | write off width v =>
      refine .inr (.inr (.inr (.inl ⟨off, width, v, rest, hs, ?_⟩)))
      simp only [State.take, State.memWrite] at h
      split at h
      · cases h
      · next hr => exact ⟨hr, (Host.Outcome.next.inj h).symm⟩
    | reset => exact .inr (.inr (.inr (.inr ⟨rest, hs, (Host.Outcome.next.inj h).symm⟩)))
    | complete =>
      simp only [State.take, State.coreTurn] at h
      have hb : s.popped.busy = s.busy := rfl
      rw [hb] at h
      split at h
      · next hb => exact .inr (.inl ⟨⟨hb, .inr ⟨rest, hs⟩⟩, h, State.complete_busy h⟩)
      · next hb => exact .inl ⟨by simpa using hb, (Host.Outcome.next.inj h).symm⟩
    | nonCoherentAccess => cases h

/-- A run goes on from the next state. -/
theorem core_run_next {s t : State} (h : step s = .next t) (k : Nat) :
    Host.Core.run Sys2Proof.core (k + 1) s = Host.Core.run Sys2Proof.core k t := by
  have e : ∀ (M : Host.Core) (k : Nat) (s t : M.State), M.step s = .next t → M.run (k + 1) s = M.run k t := by
    intro M k s t h
    simp only [Host.Core.run, h]
  exact e Sys2Proof.core k s t h

theorem core_run_zero (s : State) : Host.Core.run Sys2Proof.core 0 s = .next s := rfl

/-! ### The step on one event -/

theorem stepOn_eq (e : Event) (s : State) : stepOn e s = s.take e := rfl

theorem stepOn_complete {s : State} (h : s.busy = true) : stepOn .complete s = s.complete := by
  simp only [stepOn_eq, State.take, State.coreTurn, h, if_true]

theorem stepOn_complete_idle {s : State} (h : s.busy = false) : stepOn .complete s = .next s := by
  simp [stepOn_eq, State.take, State.coreTurn, h]

theorem step_nil {s : State} (h : s.schedule = []) : step s = s.coreTurn := by simp only [step, h]

theorem stepOn_read (s : State) {off : Nat} (h4 : off % 4 = 0) (h : off < 0x1000) :
    stepOn (.read off 4) s = .next (s.hostRead (locate off)) := State.memRead_next h4 h

theorem stepOn_write (s : State) {off : Nat} (v : Word) (h4 : off % 4 = 0) (h : off < 0x1000) :
    stepOn (.write off 4 v) s = .next (s.hostWrite (locate off) v) := State.memWrite_next v h4 h

end Sys2Proof.Machine
end

