-- ==== Sys2Proof/Laws/Invisible.lean ====
section
/-! SUPPORT. What a command does not read makes no difference to its outcome, and stays as it is. -/

namespace Sys2Proof.Machine

/-- f changes only what commands neither read nor write, but for the flags a completion sets anyway; g is what is left of f after the
completion. -/
structure Invisible (f g : State → State) : Prop where
  getX : ∀ s i, (f s).getX i = s.getX i
  getPinf : ∀ s i, (f s).getPinf i = s.getPinf i
  cr : ∀ s, (f s).cr = s.cr
  cv : ∀ s, (f s).cv = s.cv
  setX : ∀ s i v, (f s).setX i v = f (s.setX i v)
  setPinf : ∀ s i b, (f s).setPinf i b = f (s.setPinf i b)
  validate : ∀ s c, (f s).validate c = f (s.validate c)
  loadCurve : ∀ s c, (f s).loadCurve c = f (s.loadCurve c)
  succeed : ∀ s t, (f s).succeed t = g (s.succeed t)
  takeError : ∀ s e, (f s).takeError e = g (s.takeError e)

/-- An answer with its next state changed. -/
def mapNext (g : State → State) : Answer → Answer
  | .next s => .next (g s)
  | .fault e => .fault e
  | .refused r => .refused r

namespace Invisible

variable {f g : State → State} (h : Invisible f g) (s : State)
include h

theorem xVal (i : XReg) : (f s).xVal i = s.xVal i := by simp only [State.xVal, h.getX]

theorem curve : (f s).curve = s.curve := by simp only [State.curve, h.cr]

theorem modulus (m : ModSel) : (f s).modulus m = s.modulus m := by cases m <;> simp only [State.modulus, h.curve]

theorem canon (m : ModSel) (i : XReg) : (f s).canon m i = s.canon m i := by simp only [State.canon, h.xVal, h.modulus]

theorem point (i : PReg) : (f s).point i = s.point i := by simp only [State.point, h.xVal, h.getPinf]

theorem pcanon (i : PReg) : (f s).pcanon i = s.pcanon i := by simp only [State.pcanon, h.xVal, h.getPinf, h.curve]

theorem scalarIn (i : XReg) (e : ErrCode) : (f s).scalarIn i e = s.scalarIn i e := by simp only [State.scalarIn, h.xVal, h.curve]

theorem secret (i : XReg) : (f s).secret i = s.secret i := h.scalarIn s i _

theorem pairLo (i : SReg) : (f s).pairLo i = s.pairLo i := h.xVal s _

theorem pairHi (i : SReg) : (f s).pairHi i = s.pairHi i := h.xVal s _

theorem putX (i : XReg) (v : Nat) : (f s).putX i v = f (s.putX i v) := h.setX s i _

theorem putPair (i : SReg) (r t : Nat) : (f s).putPair i r t = f (s.putPair i r t) := by simp only [State.putPair, h.putX]

theorem putPoint (i : PReg) (p : Point) : (f s).putPoint i p = f (s.putPoint i p) := by
  cases p <;> simp only [State.putPoint, h.putX, h.setPinf]

/-- A completion with the same outcome. -/
theorem finish {r r' : Result} (hr : r' = r.map fun p => (f p.1, p.2)) : (f s).finish r' = mapNext g (s.finish r) := by
  subst hr
  cases r with
  | ok p => exact congrArg Host.Outcome.next (h.succeed p.1 p.2)
  | error e => exact congrArg Host.Outcome.next (h.takeError s e)

theorem curveCommand {r r' : Result} (hr : r' = r.map fun p => (f p.1, p.2)) :
    (f s).curveCommand r' = mapNext g (s.curveCommand r) := by
  unfold State.curveCommand
  rw [h.cv]
  cases s.cv
  · exact h.finish s rfl
  · exact h.finish s hr

end Invisible

theorem map_bind {α : Type} (r : Except ErrCode α) (k : α → Result) (f : State → State) :
    (r >>= k).map (fun p => (f p.1, p.2)) = r >>= fun a => (k a).map fun p => (f p.1, p.2) := by cases r <;> rfl

/-- The outcome of any command but RAND does not depend on what f changes. -/
theorem exec_invisible {f g : State → State} (h : Invisible f g) (i : Instr) (s : State) (hr : i.drawsEntropy = false) :
    exec i (f s) = mapNext g (exec i s) := by
  have bind {α : Type} {r r' : Except ErrCode α} {k k' : α → Result} (h1 : r' = r)
      (h2 : ∀ a, k' a = (k a).map fun p => (f p.1, p.2)) : (r' >>= k') = (r >>= k).map fun p => (f p.1, p.2) := by
    subst h1
    cases r' with
    | error e => rfl
    | ok a => exact h2 a
  have ok (u : State) (b : Bool) (u' : State) (hu : u' = f u) : (Except.ok (u', b) : Result) = (Except.ok (u, b) : Result).map fun p => (f p.1, p.2) := by
    rw [hu]; rfl
  cases i with
  | nop => exact h.finish s (ok s false _ rfl)
  | madd d a b m =>
    exact h.curveCommand s (bind (h.canon s m a) fun _ => bind (h.canon s m b) fun _ => ok _ _ _ (by rw [h.putX, h.modulus]))
  | msub d a b m =>
    exact h.curveCommand s (bind (h.canon s m a) fun _ => bind (h.canon s m b) fun _ => ok _ _ _ (by rw [h.putX, h.modulus]))
  | mmul d a b m =>
    exact h.curveCommand s (bind (h.canon s m a) fun _ => bind (h.canon s m b) fun _ => ok _ _ _ (by rw [h.putX, h.modulus]))
  | mmont d a b m =>
    exact h.curveCommand s (bind (h.canon s m a) fun _ => bind (h.canon s m b) fun _ => bind (by rw [h.modulus]) fun _ =>
      ok _ _ _ (by rw [h.putX]))
  | minv d a m => exact h.curveCommand s (bind (h.canon s m a) fun _ => bind (by rw [h.modulus]) fun _ => ok _ _ _ (by rw [h.putX]))
  | mred d a m => exact h.curveCommand s (ok _ _ _ (by rw [h.putX, h.modulus, h.xVal]))
  | mrr d m => exact h.curveCommand s (bind (by rw [h.modulus]) fun _ => ok _ _ _ (by rw [h.putX]))
  | padd d a b =>
    exact h.curveCommand s (bind (h.pcanon s a) fun _ => bind (h.pcanon s b) fun _ => bind (by rw [h.curve]) fun _ =>
      ok _ _ _ (by rw [h.putPoint]))
  | pdbl d a =>
    exact h.curveCommand s (bind (h.pcanon s a) fun _ => bind (by rw [h.curve]) fun _ => ok _ _ _ (by rw [h.putPoint]))
  | pmul d a b =>
    exact h.curveCommand s (bind (h.pcanon s a) fun _ => bind (by rw [h.curve, h.xVal]) fun _ => ok _ _ _ (by rw [h.putPoint]))
  | pchk a =>
    refine h.curveCommand s ?_
    rw [h.curve, h.point]
    rfl
  | pldg d => exact h.curveCommand s (ok _ _ _ (by rw [h.putPoint, h.curve]))
  | pubk d a =>
    exact h.curveCommand s (bind (h.secret s a) fun _ => bind (by rw [h.curve]) fun _ => ok _ _ _ (by rw [h.putPoint]))
  | rand d => cases hr
  | nonce d a b =>
    exact h.curveCommand s (bind (h.secret s b) fun _ => bind (by rw [h.curve, h.xVal]) fun _ => ok _ _ _ (by rw [h.putX]))
  | sign d a b =>
    exact h.curveCommand s (bind (h.secret s b) fun _ => bind (by rw [h.curve, h.xVal]) fun _ => ok _ _ _ (by rw [h.putPair]))
  | signk d a b c =>
    refine h.curveCommand s (bind (h.secret s b) fun _ => bind (h.scalarIn s c _) fun _ => bind (by rw [h.curve, h.xVal]) fun o => ?_)
    cases o with
    | none => rfl
    | some rs => exact ok _ _ _ (by rw [h.putPair])
  | verify a b c =>
    refine h.curveCommand s ?_
    rw [h.curve, h.point]
    split
    · exact bind (by rw [h.xVal, h.pairLo, h.pairHi]) fun _ => rfl
    · rfl
  | cset =>
    refine h.finish s ?_
    rw [h.curve]
    split
    · exact ok _ _ _ (h.validate s _)
    · rfl
  | cload k =>
    refine h.finish s ?_
    split
    · exact ok _ _ _ (by rw [h.loadCurve, h.validate])
    · rfl

/-- What a command in flight neither reads nor writes, taken from another state. -/
def State.outside (o s : State) : State :=
  { s with ie := o.ie, busywr := o.busywr, rdata := o.rdata, busyReads := o.busyReads, schedule := o.schedule }

/-- The same, with DONE: a completion sets it in any case. -/
def State.outsideBusy (o s : State) : State := { o.outside s with done := o.done }

theorem invisible_outsideBusy (o : State) : Invisible (State.outsideBusy o) (State.outside o) :=
  ⟨fun _ _ => rfl, fun _ _ => rfl, fun _ => rfl, fun _ => rfl, fun _ _ _ => rfl, fun _ _ _ => rfl, fun _ _ => rfl, fun _ _ => rfl,
    fun _ _ => rfl, fun _ _ => rfl⟩

theorem invisible_entropy (bytes : List Byte) (n : Nat) :
    Invisible (fun s => { s with entropy := bytes, entropyDrawn := n }) (fun s => { s with entropy := bytes, entropyDrawn := n }) :=
  ⟨fun _ _ => rfl, fun _ _ => rfl, fun _ => rfl, fun _ => rfl, fun _ _ _ => rfl, fun _ _ _ => rfl, fun _ _ => rfl, fun _ _ => rfl,
    fun _ _ => rfl, fun _ _ => rfl⟩

theorem exec_rand_outsideBusy (o s : State) (d : XReg) : exec (.rand d) (o.outsideBusy s) = mapNext o.outside (exec (.rand d) s) := by
  show execRand d (o.outsideBusy s) = mapNext o.outside (execRand d s)
  unfold execRand
  have hc : (o.outsideBusy s).cv = s.cv := rfl
  rw [hc]
  cases s.cv
  · exact (invisible_outsideBusy o).curveCommand s rfl
  · show State.finish _ _ = mapNext _ (State.finish _ _)
    have hb : between (o.outsideBusy s).entropyAt 1 (o.outsideBusy s).curve.n = between s.entropyAt 1 s.curve.n := rfl
    rw [hb]
    refine (invisible_outsideBusy o).finish (s.drawn (between s.entropyAt 1 s.curve.n).2) ?_
    cases (between s.entropyAt 1 s.curve.n).1 <;> rfl

/-- No outcome depends on CTRL, BUSYWR, DONE, the schedule, or what the host has read (30_encoding.md R97). -/
theorem exec_outsideBusy (o : State) (i : Instr) (s : State) : exec i (o.outsideBusy s) = mapNext o.outside (exec i s) := by
  cases hd : i.drawsEntropy
  · exact exec_invisible (invisible_outsideBusy o) i s hd
  · cases i with
    | rand d => exact exec_rand_outsideBusy o s d
    | _ => cases hd

end Sys2Proof.Machine
end

