-- ==== Sys2Proof/Laws/PerInstr.lean ====
section
/-! SUPPORT. Statements made once for every command, constructor by constructor. -/

namespace Sys2Proof.Laws.FieldsLegal

/-- The fields a command is encoded with are legal for its opcode (30_encoding.md R82, R83, R86). -/
def Statement (i : Instr) : Prop := i.fields.wellFormed i.opcode = true

theorem nop : Statement .nop := rfl

theorem madd (d : XReg) (a : XReg) (b : XReg) (m : ModSel) : Statement (.madd d a b m) := by simp [Statement, Fields.wellFormed, Fields.rsvZero, Fields.modLegal, Fields.operandsLegal, Instr.fields, Instr.opcode, Opcode.form,
    OperandClass.legal]

theorem msub (d : XReg) (a : XReg) (b : XReg) (m : ModSel) : Statement (.msub d a b m) := by simp [Statement, Fields.wellFormed, Fields.rsvZero, Fields.modLegal, Fields.operandsLegal, Instr.fields, Instr.opcode, Opcode.form,
    OperandClass.legal]

theorem mmul (d : XReg) (a : XReg) (b : XReg) (m : ModSel) : Statement (.mmul d a b m) := by simp [Statement, Fields.wellFormed, Fields.rsvZero, Fields.modLegal, Fields.operandsLegal, Instr.fields, Instr.opcode, Opcode.form,
    OperandClass.legal]

theorem mmont (d : XReg) (a : XReg) (b : XReg) (m : ModSel) : Statement (.mmont d a b m) := by simp [Statement, Fields.wellFormed, Fields.rsvZero, Fields.modLegal, Fields.operandsLegal, Instr.fields, Instr.opcode, Opcode.form,
    OperandClass.legal]

theorem minv (d : XReg) (a : XReg) (m : ModSel) : Statement (.minv d a m) := by simp [Statement, Fields.wellFormed, Fields.rsvZero, Fields.modLegal, Fields.operandsLegal, Instr.fields, Instr.opcode, Opcode.form,
    OperandClass.legal]

theorem mred (d : XReg) (a : XReg) (m : ModSel) : Statement (.mred d a m) := by simp [Statement, Fields.wellFormed, Fields.rsvZero, Fields.modLegal, Fields.operandsLegal, Instr.fields, Instr.opcode, Opcode.form,
    OperandClass.legal]

theorem mrr (d : XReg) (m : ModSel) : Statement (.mrr d m) := by simp [Statement, Fields.wellFormed, Fields.rsvZero, Fields.modLegal, Fields.operandsLegal, Instr.fields, Instr.opcode, Opcode.form,
    OperandClass.legal]

theorem padd (d : PReg) (a : PReg) (b : PReg) : Statement (.padd d a b) := by simp [Statement, Fields.wellFormed, Fields.rsvZero, Fields.modLegal, Fields.operandsLegal, Instr.fields, Instr.opcode, Opcode.form,
    OperandClass.legal]

theorem pdbl (d : PReg) (a : PReg) : Statement (.pdbl d a) := by simp [Statement, Fields.wellFormed, Fields.rsvZero, Fields.modLegal, Fields.operandsLegal, Instr.fields, Instr.opcode, Opcode.form,
    OperandClass.legal]

theorem pmul (d : PReg) (a : PReg) (b : XReg) : Statement (.pmul d a b) := by simp [Statement, Fields.wellFormed, Fields.rsvZero, Fields.modLegal, Fields.operandsLegal, Instr.fields, Instr.opcode, Opcode.form,
    OperandClass.legal]

theorem pchk (a : PReg) : Statement (.pchk a) := by simp [Statement, Fields.wellFormed, Fields.rsvZero, Fields.modLegal, Fields.operandsLegal, Instr.fields, Instr.opcode, Opcode.form,
    OperandClass.legal]

theorem pldg (d : PReg) : Statement (.pldg d) := by simp [Statement, Fields.wellFormed, Fields.rsvZero, Fields.modLegal, Fields.operandsLegal, Instr.fields, Instr.opcode, Opcode.form,
    OperandClass.legal]

theorem pubk (d : PReg) (a : XReg) : Statement (.pubk d a) := by simp [Statement, Fields.wellFormed, Fields.rsvZero, Fields.modLegal, Fields.operandsLegal, Instr.fields, Instr.opcode, Opcode.form,
    OperandClass.legal]

theorem rand (d : XReg) : Statement (.rand d) := by simp [Statement, Fields.wellFormed, Fields.rsvZero, Fields.modLegal, Fields.operandsLegal, Instr.fields, Instr.opcode, Opcode.form,
    OperandClass.legal]

theorem nonce (d : XReg) (a : XReg) (b : XReg) : Statement (.nonce d a b) := by simp [Statement, Fields.wellFormed, Fields.rsvZero, Fields.modLegal, Fields.operandsLegal, Instr.fields, Instr.opcode, Opcode.form,
    OperandClass.legal]

theorem sign (d : SReg) (a : XReg) (b : XReg) : Statement (.sign d a b) := by simp [Statement, Fields.wellFormed, Fields.rsvZero, Fields.modLegal, Fields.operandsLegal, Instr.fields, Instr.opcode, Opcode.form,
    OperandClass.legal]

theorem signk (d : SReg) (a : XReg) (b : XReg) (c : XReg) : Statement (.signk d a b c) := by simp [Statement, Fields.wellFormed, Fields.rsvZero, Fields.modLegal, Fields.operandsLegal, Instr.fields, Instr.opcode, Opcode.form,
    OperandClass.legal]

theorem verify (a : XReg) (b : SReg) (c : PReg) : Statement (.verify a b c) := by simp [Statement, Fields.wellFormed, Fields.rsvZero, Fields.modLegal, Fields.operandsLegal, Instr.fields, Instr.opcode, Opcode.form,
    OperandClass.legal]

theorem cset : Statement .cset := rfl

theorem cload (k : CurveId) : Statement (.cload k) := by cases k <;> rfl

end Sys2Proof.Laws.FieldsLegal
end

