-- ==== Sys2Proof/Machine/Assembler.lean ====
section
/-! DEFINITION. The assembler syntax and the pseudo-instructions (30_encoding.md R91, R92). Host software beside the machine: no step
uses it. Log entry 19. -/

namespace Sys2Proof.Machine

/-- An operand as it is written (R91). -/
inductive AsmOperand where
  /-- x0–x15 -/
  | x (i : XReg)
  /-- p0–p7 -/
  | p (i : PReg)
  /-- s0–s7 -/
  | s (i : SReg)
  /-- the modulus P or N -/
  | mod (m : ModSel)
  /-- a CLOAD selector, by number or by name -/
  | curve (k : CurveId)
  deriving DecidableEq, Repr

/-- The mnemonics of R86. -/
def opcodeOfName (n : List Char) : Option Opcode :=
  if n = ['N', 'O', 'P'] then some .nop
  else if n = ['M', 'A', 'D', 'D'] then some .madd
  else if n = ['M', 'S', 'U', 'B'] then some .msub
  else if n = ['M', 'M', 'U', 'L'] then some .mmul
  else if n = ['M', 'M', 'O', 'N', 'T'] then some .mmont
  else if n = ['M', 'I', 'N', 'V'] then some .minv
  else if n = ['M', 'R', 'E', 'D'] then some .mred
  else if n = ['M', 'R', 'R'] then some .mrr
  else if n = ['P', 'A', 'D', 'D'] then some .padd
  else if n = ['P', 'D', 'B', 'L'] then some .pdbl
  else if n = ['P', 'M', 'U', 'L'] then some .pmul
  else if n = ['P', 'C', 'H', 'K'] then some .pchk
  else if n = ['P', 'L', 'D', 'G'] then some .pldg
  else if n = ['P', 'U', 'B', 'K'] then some .pubk
  else if n = ['R', 'A', 'N', 'D'] then some .rand
  else if n = ['N', 'O', 'N', 'C', 'E'] then some .nonce
  else if n = ['S', 'I', 'G', 'N'] then some .sign
  else if n = ['S', 'I', 'G', 'N', 'K'] then some .signk
  else if n = ['V', 'E', 'R', 'I', 'F', 'Y'] then some .verify
  else if n = ['C', 'S', 'E', 'T'] then some .cset
  else if n = ['C', 'L', 'O', 'A', 'D'] then some .cload
  else none

/-- An unsigned decimal number without leading zeros. -/
def decimalOf (cs : List Char) : Option Nat :=
  if cs = [] ∨ cs.any (fun c => !c.isDigit) ∨ (cs.head? = some '0' ∧ cs.length ≠ 1) then none
  else some (cs.foldl (fun v c => v * 10 + (c.toNat - 48)) 0)

/-- One operand; an assembler rejects a register that does not exist (R91). -/
def operandOfName (n : List Char) : Option AsmOperand :=
  if n = ['P'] then some (.mod .p)
  else if n = ['N'] then some (.mod .n)
  else if n = ['0'] ∨ n = ['s', 'e', 'c', 'p', '2', '5', '6', 'k', '1'] then some (.curve .secp256k1)
  else if n = ['1'] ∨ n = ['s', 'e', 'c', 'p', '2', '5', '6', 'r', '1'] then some (.curve .secp256r1)
  else if n = ['2'] ∨ n = ['s', 'e', 'c', 'p', '3', '8', '4', 'r', '1'] then some (.curve .secp384r1)
  else
    match n with
    | [] => none
    | c :: ds =>
      match decimalOf ds with
      | none => none
      | some v =>
        if c = 'x' then (if h : v < 16 then some (.x ⟨v, h⟩) else none)
        else if c = 'p' then (if h : v < 8 then some (.p ⟨v, h⟩) else none)
        else if c = 's' then (if h : v < 8 then some (.s ⟨v, h⟩) else none)
        else none

/-- The command of a mnemonic and its operands, in field order D, A, B, C, then the modulus; a wrong class, a missing or an extra
operand, and a missing modulus are rejected (R91). -/
def assembleOperands : Opcode → List AsmOperand → Option Instr
  | .nop, [] => some .nop
  | .madd, [.x d, .x a, .x b, .mod m] => some (.madd d a b m)
  | .msub, [.x d, .x a, .x b, .mod m] => some (.msub d a b m)
  | .mmul, [.x d, .x a, .x b, .mod m] => some (.mmul d a b m)
  | .mmont, [.x d, .x a, .x b, .mod m] => some (.mmont d a b m)
  | .minv, [.x d, .x a, .mod m] => some (.minv d a m)
  | .mred, [.x d, .x a, .mod m] => some (.mred d a m)
  | .mrr, [.x d, .mod m] => some (.mrr d m)
  | .padd, [.p d, .p a, .p b] => some (.padd d a b)
  | .pdbl, [.p d, .p a] => some (.pdbl d a)
  | .pmul, [.p d, .p a, .x b] => some (.pmul d a b)
  | .pchk, [.p a] => some (.pchk a)
  | .pldg, [.p d] => some (.pldg d)
  | .pubk, [.p d, .x a] => some (.pubk d a)
  | .rand, [.x d] => some (.rand d)
  | .nonce, [.x d, .x a, .x b] => some (.nonce d a b)
  | .sign, [.s d, .x a, .x b] => some (.sign d a b)
  | .signk, [.s d, .x a, .x b, .x c] => some (.signk d a b c)
  | .verify, [.x a, .s b, .p c] => some (.verify a b c)
  | .cset, [] => some .cset
  | .cload, [.curve k] => some (.cload k)
  | _, _ => none

/-- A line up to its comment. -/
def uncomment (cs : List Char) : List Char := cs.takeWhile fun c => c != ';'

/-- Blank and tab. -/
def isBlank (c : Char) : Bool := c == ' ' || c == '\t'

/-- Without blanks at either end. -/
def trimBlanks (cs : List Char) : List Char := ((cs.dropWhile isBlank).reverse.dropWhile isBlank).reverse

/-- The pieces between commas. -/
def splitCommas : List Char → List (List Char)
  | [] => [[]]
  | c :: cs =>
    if c = ',' then [] :: splitCommas cs
    else
      match splitCommas cs with
      | [] => [[c]]
      | w :: ws => (c :: w) :: ws

/-- The operands of a line, in order; none if one of them is no operand. -/
def operandsOf (cs : List Char) : Option (List AsmOperand) :=
  if trimBlanks cs = [] then some [] else (splitCommas cs).mapM fun w => operandOfName (trimBlanks w)

/-- One line `MNEMONIC operand, operand, ...` with an optional comment (R91). -/
def assemble (line : List Char) : Option Instr :=
  let t := trimBlanks (uncomment line)
  match opcodeOfName (t.takeWhile fun c => !isBlank c), operandsOf (t.dropWhile fun c => !isBlank c) with
  | some o, some ops => assembleOperands o ops
  | _, _ => none

/-- The pseudo-instructions (R92). -/
inductive Pseudo where
  | msqr (d a : XReg) (m : ModSel)
  | mcopy (d a : XReg) (m : ModSel)
  | tomont (d a t : XReg) (m : ModSel)
  | frommont (d a one : XReg) (m : ModSel)
  | pmulg (d : PReg) (a : XReg)
  deriving DecidableEq, Repr

/-- The restrictions on a pseudo-instruction's operands (R92): t ≠ a, and a ∉ {2d, 2d+1}. -/
def Pseudo.allowed : Pseudo → Bool
  | .msqr _ _ _ => true
  | .mcopy _ _ _ => true
  | .tomont _ a t _ => t != a
  | .frommont _ _ _ _ => true
  | .pmulg d a => a.val != 2 * d.val && a.val != 2 * d.val + 1

/-- The commands a pseudo-instruction expands to, in order (R92). -/
def Pseudo.expand : Pseudo → List Instr
  | .msqr d a m => [.mmul d a a m]
  | .mcopy d a m => [.mred d a m]
  | .tomont d a t m => [.mrr t m, .mmont d a t m]
  | .frommont d a one m => [.mmont d a one m]
  | .pmulg d a => [.pldg d, .pmul d d a]

/-- The pseudo-instruction of a name and its operands, in the order R92 writes them, where its restriction holds. -/
def pseudoOfName (n : List Char) (ops : List AsmOperand) : Option Pseudo :=
  let found : Option Pseudo :=
    match ops with
    | [.x d, .x a, .mod m] =>
      if n = ['M', 'S', 'Q', 'R'] then some (.msqr d a m) else if n = ['M', 'C', 'O', 'P', 'Y'] then some (.mcopy d a m) else none
    | [.x d, .x a, .x t, .mod m] =>
      if n = ['T', 'O', 'M', 'O', 'N', 'T'] then some (.tomont d a t m)
      else if n = ['F', 'R', 'O', 'M', 'M', 'O', 'N', 'T'] then some (.frommont d a t m)
      else none
    | [.p d, .x a] => if n = ['P', 'M', 'U', 'L', 'G'] then some (.pmulg d a) else none
    | _ => none
  found.filter Pseudo.allowed

/-- The commands of one line, which is a command or a pseudo-instruction (R91, R92). -/
def assembleLine (line : List Char) : Option (List Instr) :=
  match assemble line with
  | some i => some [i]
  | none =>
    let t := trimBlanks (uncomment line)
    match operandsOf (t.dropWhile fun c => !isBlank c) with
    | some ops => (pseudoOfName (t.takeWhile fun c => !isBlank c) ops).map Pseudo.expand
    | none => none

end Sys2Proof.Machine
end

