-- ==== Sys2Proof/Machine/Rfc6979.lean ====
section
/-! DEFINITION. The informative default profile of NONCE_FN, RFC6979-HMAC-SHA256 (43_random_nonce.md R192). No step uses it: the
machine's nonce function is the opaque Config.nonceFn. It is here so that a claim can name it as a premise. SHA-256 and HMAC are not
written out in the spec: PRESUMED, log entry 18. -/

namespace Sys2Proof.Machine

/-- The round constants of SHA-256. -/
def sha256K : List Word :=
  [0x428a2f98#32, 0x71374491#32, 0xb5c0fbcf#32, 0xe9b5dba5#32, 0x3956c25b#32, 0x59f111f1#32, 0x923f82a4#32, 0xab1c5ed5#32,
   0xd807aa98#32, 0x12835b01#32, 0x243185be#32, 0x550c7dc3#32, 0x72be5d74#32, 0x80deb1fe#32, 0x9bdc06a7#32, 0xc19bf174#32] ++
  [0xe49b69c1#32, 0xefbe4786#32, 0x0fc19dc6#32, 0x240ca1cc#32, 0x2de92c6f#32, 0x4a7484aa#32, 0x5cb0a9dc#32, 0x76f988da#32,
   0x983e5152#32, 0xa831c66d#32, 0xb00327c8#32, 0xbf597fc7#32, 0xc6e00bf3#32, 0xd5a79147#32, 0x06ca6351#32, 0x14292967#32] ++
  [0x27b70a85#32, 0x2e1b2138#32, 0x4d2c6dfc#32, 0x53380d13#32, 0x650a7354#32, 0x766a0abb#32, 0x81c2c92e#32, 0x92722c85#32,
   0xa2bfe8a1#32, 0xa81a664b#32, 0xc24b8b70#32, 0xc76c51a3#32, 0xd192e819#32, 0xd6990624#32, 0xf40e3585#32, 0x106aa070#32] ++
  [0x19a4c116#32, 0x1e376c08#32, 0x2748774c#32, 0x34b0bcb5#32, 0x391c0cb3#32, 0x4ed8aa4a#32, 0x5b9cca4f#32, 0x682e6ff3#32,
   0x748f82ee#32, 0x78a5636f#32, 0x84c87814#32, 0x8cc70208#32, 0x90befffa#32, 0xa4506ceb#32, 0xbef9a3f7#32, 0xc67178f2#32]

/-- The eight working words of SHA-256. -/
structure ShaState where
  a : Word
  b : Word
  c : Word
  d : Word
  e : Word
  f : Word
  g : Word
  h : Word
  deriving DecidableEq, Repr

/-- The initial hash value of SHA-256. -/
def sha256Init : ShaState :=
  { a := 0x6a09e667#32, b := 0xbb67ae85#32, c := 0x3c6ef372#32, d := 0xa54ff53a#32
    e := 0x510e527f#32, f := 0x9b05688c#32, g := 0x1f83d9ab#32, h := 0x5be0cd19#32 }

/-- The message schedule, newest word first, extended by the given number of words. -/
def shaExtend : Nat → List Word → List Word
  | 0, w => w
  | k + 1, w =>
    let w15 := w.getD 14 0#32
    let w2 := w.getD 1 0#32
    let s0 := w15.rotateRight 7 ^^^ w15.rotateRight 18 ^^^ (w15 >>> 3)
    let s1 := w2.rotateRight 17 ^^^ w2.rotateRight 19 ^^^ (w2 >>> 10)
    shaExtend k ((s1 + w.getD 6 0#32 + s0 + w.getD 15 0#32) :: w)

/-- One round. -/
def shaRound (s : ShaState) (kw : Word × Word) : ShaState :=
  let s1 := s.e.rotateRight 6 ^^^ s.e.rotateRight 11 ^^^ s.e.rotateRight 25
  let ch := (s.e &&& s.f) ^^^ (~~~ s.e &&& s.g)
  let t1 := s.h + s1 + ch + kw.1 + kw.2
  let s0 := s.a.rotateRight 2 ^^^ s.a.rotateRight 13 ^^^ s.a.rotateRight 22
  let maj := (s.a &&& s.b) ^^^ (s.a &&& s.c) ^^^ (s.b &&& s.c)
  { a := t1 + (s0 + maj), b := s.a, c := s.b, d := s.c, e := s.d + t1, f := s.e, g := s.f, h := s.g }

/-- The compression of one block of 16 words. -/
def shaCompress (s : ShaState) (block : List Word) : ShaState :=
  let t := (sha256K.zip (shaExtend 48 block.reverse).reverse).foldl shaRound s
  { a := s.a + t.a, b := s.b + t.b, c := s.c + t.c, d := s.d + t.d, e := s.e + t.e, f := s.f + t.f, g := s.g + t.g, h := s.h + t.h }

/-- A byte string as an integer, most significant byte first (int_be of R192). -/
def intBE (b : List Byte) : Nat := b.foldl (fun v x => v * 256 + x.toNat) 0

/-- An integer as a byte string of n bytes, most significant first (int2octets of R192). -/
def octets : Nat → Nat → List Byte
  | 0, _ => []
  | n + 1, v => BitVec.ofNat 8 (v / Nat.pow 256 n) :: octets n v

/-- The k-th 32-bit word of a byte string. -/
def wordOfBytes (b : List Byte) (k : Nat) : Word := BitVec.ofNat 32 (intBE ((b.drop (4 * k)).take 4))

/-- The blocks of a padded message. -/
def shaBlocks : Nat → List Byte → ShaState → ShaState
  | 0, _, s => s
  | n + 1, b, s => shaBlocks n (b.drop 64) (shaCompress s ((List.range 16).map (wordOfBytes b)))

/-- SHA-256 of a byte string. -/
def sha256 (msg : List Byte) : List Byte :=
  let pad := msg ++ 0x80#8 :: List.replicate ((119 - msg.length % 64) % 64) 0#8 ++ octets 8 (8 * msg.length)
  let s := shaBlocks (pad.length / 64) pad sha256Init
  [s.a, s.b, s.c, s.d, s.e, s.f, s.g, s.h].flatMap fun w => octets 4 w.toNat

/-- HMAC-SHA-256 for a key of at most 64 bytes. -/
def hmacSha256 (key msg : List Byte) : List Byte :=
  let k := key ++ List.replicate (64 - key.length) 0#8
  sha256 (k.map (· ^^^ 0x5c#8) ++ sha256 (k.map (· ^^^ 0x36#8) ++ msg))

/-- bits2int (R192). -/
def bits2int (qlen : Nat) (b : List Byte) : Nat :=
  if 8 * b.length > qlen then Nat.shiftRight (intBE b) (8 * b.length - qlen) else intBE b

/-- K and V of the generator. -/
structure HmacState where
  k : List Byte
  v : List Byte
  deriving DecidableEq, Repr

/-- K = HMAC(K, V || tag || data); V = HMAC(K, V). -/
def hmacUpdate (s : HmacState) (tag : Byte) (data : List Byte) : HmacState :=
  let k := hmacSha256 s.k (s.v ++ tag :: data)
  { k := k, v := hmacSha256 k s.v }

/-- `while 8*len(T) < qlen: V = HMAC(K, V); T = T || V`, for the given number of turns of 32 bytes: T and the last V. -/
def hmacFill (k : List Byte) : Nat → List Byte → List Byte → List Byte × List Byte
  | 0, v, t => (t, v)
  | n + 1, v, t => hmacFill k n (hmacSha256 k v) (t ++ hmacSha256 k v)

/-- The candidates one after another: candidate i after i updates (R192). -/
def hmacCandidate (qlen : Nat) : Nat → HmacState → Nat
  | 0, s => bits2int qlen (hmacFill s.k (ceilDiv qlen 256) s.v []).1
  | i + 1, s => hmacCandidate qlen i (hmacUpdate { s with v := (hmacFill s.k (ceilDiv qlen 256) s.v []).2 } 0x00#8 [])

/-- NONCE_FN_RFC6979(d, e, curve, HLEN, i) (R192). -/
def nonceRfc6979 (d e : Nat) (c : CurveVal) (hlen i : Nat) : Nat :=
  let qlen := bitlen c.n
  let rl := ceilDiv qlen 8
  let h1 := octets hlen (e % Nat.pow 2 (8 * hlen))
  let data := octets rl d ++ octets rl (bits2int qlen h1 % c.n)
  let s0 : HmacState := { k := List.replicate 32 0x00#8, v := List.replicate 32 0x01#8 }
  hmacCandidate qlen i (hmacUpdate (hmacUpdate s0 0x00#8 data) 0x01#8 data)

end Sys2Proof.Machine
end

