-- ==== Sys2Proof/Machine/Script.lean ====
section
/-! DEFINITION. The host agent's program, in the host script notation (30_encoding.md R93, R105), and the two agents together
(10_state.md R20, 60_exceptions.md R236, 70_reset_and_hazards.md R279). Host software beside the machine: the machine's own step never
uses it. Log entry 19. -/

namespace Sys2Proof.Machine

/-- Expressions over the values the host has read (R93). -/
inductive HostExpr where
  | lit (v : Int)
  | var (name : String)
  /-- name[k] -/
  | bit (name : String) (k : Nat)
  /-- name[hi:lo] -/
  | slice (name : String) (hi lo : Nat)
  | add (a b : HostExpr)
  | sub (a b : HostExpr)
  | mul (a b : HostExpr)
  | mod (a b : HostExpr)
  | xor (a b : HostExpr)
  deriving DecidableEq, Repr

/-- Conditions (R93). -/
inductive HostCond where
  | always
  | eq (a b : HostExpr)
  | ne (a b : HostExpr)
  | lt (a b : HostExpr)
  deriving DecidableEq, Repr

/-- The lines of a host script (R93). -/
inductive HostLine where
  | wr (off : Nat) (v : HostExpr)
  | rd (off : Nat) (name : String)
  | wx (i : XReg) (v : HostExpr)
  | wc (c : CurveReg) (v : HostExpr)
  | wpinf (v : HostExpr)
  | rx (i : XReg) (name : String)
  | letVar (name : String) (e : HostExpr)
  | cmd (i : Instr)
  | wait (name : String)
  | ifGoto (c : HostCond) (target : String)
  | label (name : String)
  deriving DecidableEq, Repr

/-- Where the host is in its script: the line, how many words of a multi-word line are done, and its variables. -/
structure HostRun where
  line : Nat
  words : Nat
  vars : List (String × Int)
  deriving DecidableEq, Repr

/-- The value of a host variable; 0 if the host has not set it is the model's choice (DESIGN CHOICE, log entry 21). -/
def HostRun.get (h : HostRun) (name : String) : Int := (h.vars.lookup name).getD 0

/-- A host variable set. -/
def HostRun.put (h : HostRun) (name : String) (v : Int) : HostRun :=
  { h with vars := (name, v) :: h.vars.filter fun p => p.1 != name }

/-- The next line. -/
def HostRun.advance (h : HostRun) : HostRun := { h with line := h.line + 1, words := 0 }

/-- The value of an expression, on unbounded integers (R93). DESIGN CHOICE, log entry 21: the bits of a negative value, in name[k],
name[hi:lo] and xor, are those of 0; and `mod` by a number below 1, for which 00_scope.md R19 gives no value, is Lean's Int.emod. -/
def HostExpr.eval (h : HostRun) : HostExpr → Int
  | .lit v => v
  | .var name => h.get name
  | .bit name k => if (h.get name).toNat.testBit k then 1 else 0
  | .slice name hi lo => Int.ofNat ((h.get name).toNat / Nat.pow 2 lo % Nat.pow 2 (hi + 1 - lo))
  | .add a b => a.eval h + b.eval h
  | .sub a b => a.eval h - b.eval h
  | .mul a b => a.eval h * b.eval h
  | .mod a b => Int.emod (a.eval h) (b.eval h)
  | .xor a b => Int.ofNat (Nat.xor (a.eval h).toNat (b.eval h).toNat)

/-- Whether a condition holds (R93). -/
def HostCond.holds (h : HostRun) : HostCond → Bool
  | .always => true
  | .eq a b => a.eval h == b.eval h
  | .ne a b => a.eval h != b.eval h
  | .lt a b => decide (a.eval h < b.eval h)

/-- Word j of a value (R93: v[32j+31:32j]). DESIGN CHOICE, log entry 21: every word of a negative value is 0, and WR and WPINF write
word 0 of a value of more than 32 bits. -/
def wordOfValue (v : Int) (j : Nat) : Word := BitVec.ofNat 32 (v.toNat / Nat.pow 2 (32 * j))

/-- The line a label stands on (R93). DESIGN CHOICE, log entry 21: the first of them if the label stands on several lines, and past the
end if it stands on none. -/
def labelLine (prog : List HostLine) (name : String) : Nat := prog.findIdx fun l => l == .label name

/-- The two agents together: the host in its script, and the core. -/
structure System where
  host : HostRun
  core : State
  deriving DecidableEq, Repr

/-- One bus access of the host, then the host goes on from the core it left. -/
def System.access (y : System) (e : Event) (k : State → System) : Host.Outcome System Fault Refusal :=
  match y.core.take e with
  | .next s => .next (k s)
  | .fault r => .fault r
  | .refused r => .refused r

/-- One of the twelve word writes of WX or WC, in ascending order (R93). -/
def System.writeWords (y : System) (base : Nat) (v : Int) : Host.Outcome System Fault Refusal :=
  y.access (.write (base + 4 * y.host.words) 4 (wordOfValue v y.host.words)) fun s =>
    { host := if y.host.words < 11 then { y.host with words := y.host.words + 1 } else y.host.advance, core := s }

/-- One of the twelve word reads of RX, added into the variable (R93: name = Σ w_j·2^(32j)). -/
def System.readWords (y : System) (base : Nat) (name : String) : Host.Outcome System Fault Refusal :=
  y.access (.read (base + 4 * y.host.words) 4) fun s =>
    let old := if y.host.words = 0 then 0 else y.host.get name
    let h := y.host.put name (old + Int.ofNat (s.rdata.toNat * Nat.pow 2 (32 * y.host.words)))
    { host := if y.host.words < 11 then { h with words := y.host.words + 1 } else h.advance, core := s }

/-- The host's step: its current line, or one bus access of it (R93). -/
def System.hostStep (prog : List HostLine) (y : System) : Host.Outcome System Fault Refusal :=
  match prog[y.host.line]? with
  | none => .next y
  | some l =>
    match l with
    | .wr off v => y.access (.write off 4 (wordOfValue (v.eval y.host) 0)) fun s => { host := y.host.advance, core := s }
    | .rd off name =>
      y.access (.read off 4) fun s => { host := (y.host.put name (Int.ofNat s.rdata.toNat)).advance, core := s }
    | .wx i v => y.writeWords (0x100 + 0x40 * i.val) (v.eval y.host)
    | .wc c v => y.writeWords (0x500 + 0x40 * c.slot) (v.eval y.host)
    | .wpinf v => y.access (.write 0x010 4 (wordOfValue (v.eval y.host) 0)) fun s => { host := y.host.advance, core := s }
    | .rx i name => y.readWords (0x100 + 0x40 * i.val) name
    | .letVar name e => .next { y with host := (y.host.put name (e.eval y.host)).advance }
    | .cmd i => y.access (.write 0x00C 4 (encode i)) fun s => { host := y.host.advance, core := s }
    | .wait name =>
      y.access (.read 0x008 4) fun s =>
        let h := y.host.put name (Int.ofNat s.rdata.toNat)
        { host := if s.rdata.getLsbD 0 then h else h.advance, core := s }
    | .ifGoto c target =>
      .next { y with host :=
        if HostCond.holds y.host c then { y.host with line := labelLine prog target, words := 0 } else y.host.advance }
    | .label _ => .next { y with host := y.host.advance }

/-- One step of the two agents; the schedule chooses the core or the host (R236). -/
def System.step (prog : List HostLine) (coreMoves : Bool) (y : System) : Host.Outcome System Fault Refusal :=
  if coreMoves && y.core.busy then y.access .complete fun s => { y with core := s } else y.hostStep prog

/-- The run is over: the host has no further action and no command is in flight (R279). -/
def System.over (prog : List HostLine) (y : System) : Bool := decide (prog.length ≤ y.host.line) && !y.core.busy

end Sys2Proof.Machine
end

