-- ==== Sys2Proof/Tests/Slice0.lean ====
section
/-! SUPPORT. The model's own tests. Expected values are the spec's: the examples of its rules and the vectors V<n> of
95_test_vectors.md; the words are written out from the patterns of 30_encoding.md R88. After them, for every statement of
Certificates/Slice0/Obligations.lean with hypotheses, a witness that meets them. -/

set_option exponentiation.threshold 400
set_option Elab.async false

namespace Sys2Proof.Tests

open Sys2Proof.Machine

/-! ### States -/

/-- The example curve of 95_test_vectors.md §2. -/
def toy : CurveVal := { a := 2, b := 2, p := 17, n := 19, gx := 5, gy := 1 }

/-- The curve of V77: N = 20. -/
def toyEven : CurveVal := { toy with n := 20 }

/-- The curve of V105: P = 15. -/
def toyComposite : CurveVal := { a := 0, b := 0, p := 15, n := 2, gx := 0, gy := 0 }

/-- Operand registers written. -/
def withX (s : State) (xs : List (XReg × Nat)) : State := xs.foldl (fun s p => s.putX p.1 p.2) s

/-- Reset, then a curve loaded and validated, and operand registers written. -/
def loaded (c : CurveVal) (xs : List (XReg × Nat)) : State := withX ((State.reset.loadCurve c).validate c) xs

/-- What one step with the word w issued leaves, seen through f. -/
def after {α : Type} (w : Nat) (s : State) (f : State → α) : Option α :=
  match step (s.withFetchWord 32 w) with
  | .next t => some (f t)
  | .fault _ => none
  | .refused _ => none

/-- What one event leaves. -/
def eventGives {α : Type} (e : Event) (s : State) (f : State → α) : Option α :=
  match stepOn e s with
  | .next t => some (f t)
  | .fault _ => none
  | .refused _ => none

/-! ### WellFormed: one ill-formed term for each check -/

theorem test_reserved_opcode : Opcode.ofCode 0x08#8 = none ∧ Opcode.ofCode 0x16#8 = none ∧ Opcode.ofCode 0x22#8 = none ∧
    Opcode.ofCode 0x2B#8 = none ∧ Opcode.ofCode 0x32#8 = none ∧ Opcode.ofCode 0xFF#8 = none := by decide

theorem test_rsv_refused : Fields.wellFormed ⟨0x01, 3, 1, 2, 0, 0, 1⟩ .madd = false ∧
    Fields.wellFormed ⟨0x01, 3, 1, 2, 0, 0, 0x40⟩ .madd = false := by decide

theorem test_m_refused : Fields.wellFormed ⟨0x13, 0, 0, 0, 0, 1, 0⟩ .pchk = false ∧
    Fields.wellFormed ⟨0x01, 3, 1, 2, 0, 1, 0⟩ .madd = true := by decide

theorem test_unused_d_refused : Fields.wellFormed ⟨0x30, 1, 0, 0, 0, 0, 0⟩ .cset = false := by decide

theorem test_unused_a_refused : Fields.wellFormed ⟨0x20, 1, 1, 0, 0, 0, 0⟩ .rand = false := by decide

theorem test_unused_b_refused : Fields.wellFormed ⟨0x05, 3, 1, 1, 0, 0, 0⟩ .minv = false := by decide

theorem test_unused_c_refused : Fields.wellFormed ⟨0x01, 3, 1, 2, 3, 0, 0⟩ .madd = false := by decide

theorem test_p_bit3_refused : Fields.wellFormed ⟨0x10, 8, 0, 0, 0, 0, 0⟩ .padd = false ∧
    Fields.wellFormed ⟨0x10, 7, 7, 7, 0, 0, 0⟩ .padd = true := by decide

theorem test_s_bit3_refused : Fields.wellFormed ⟨0x28, 8, 0, 1, 0, 0, 0⟩ .sign = false ∧
    Fields.wellFormed ⟨0x2A, 0, 0, 8, 0, 0, 0⟩ .verify = false := by decide

theorem test_k_refused : Fields.wellFormed ⟨0x31, 3, 0, 0, 0, 0, 0⟩ .cload = false ∧
    Fields.wellFormed ⟨0x31, 2, 0, 0, 0, 0, 0⟩ .cload = true := by decide

/-! ### Decode: words written out bit by bit from R88's patterns -/

theorem test_decode_control : decode 0b00000000000000000000000000000000#32 = .command .nop ∧
    decode 0b00000000000000000000000000110000#32 = .command .cset ∧
    decode 0b00000000000000000000000000110001#32 = .command (.cload .secp256k1) ∧
    decode 0b00000000000000000000000100110001#32 = .command (.cload .secp256r1) ∧
    decode 0b00000000000000000000001000110001#32 = .command (.cload .secp384r1) ∧
    decode 0b00000000000000000000001100110001#32 = .illegalOperand := by decide

theorem test_decode_modular : decode 0b00000001000000100001001100000001#32 = .command (.madd 3 1 2 .n) ∧
    decode 0b00000000000011100101101000000010#32 = .command (.msub 10 5 14 .p) ∧
    decode 0b00000000000000100001001100000011#32 = .command (.mmul 3 1 2 .p) ∧
    decode 0b00000001000011011110111100000100#32 = .command (.mmont 15 14 13 .n) ∧
    decode 0b00000001000000000100001000000101#32 = .command (.minv 2 4 .n) ∧
    decode 0b00000000000000001000000100000110#32 = .command (.mred 1 8 .p) ∧
    decode 0b00000001000000000000010100000111#32 = .command (.mrr 5 .n) := by decide

theorem test_decode_point : decode 0b00000000000000010100001000010000#32 = .command (.padd 2 4 1) ∧
    decode 0b00000000000000000110000100010001#32 = .command (.pdbl 1 6) ∧
    decode 0b00000000000011110110011100010010#32 = .command (.pmul 7 6 15) ∧
    decode 0b00000000000000000011000000010011#32 = .command (.pchk 3) ∧
    decode 0b00000000000000000000010100010100#32 = .command (.pldg 5) := by decide

theorem test_decode_random : decode 0b00000000000000000000111100100000#32 = .command (.rand 15) ∧
    decode 0b00000000000000010000111100100001#32 = .command (.nonce 15 0 1) := by decide

theorem test_decode_ecdsa : decode 0b00000000000000001001001000010101#32 = .command (.pubk 2 9) ∧
    decode 0b00000000000000010000011000101000#32 = .command (.sign 6 0 1) ∧
    decode 0b00000000110111101111011100101001#32 = .command (.signk 7 15 14 13) ∧
    decode 0b00000000000101100000000000101010#32 = .command (.verify 0 6 1) := by decide

/-! ### One step per command -/

theorem test_nop_v12 : after 0x00000000 (loaded toy []) (fun t => (t.statusWord, t.lastcmd)) = some (0x12#32, 0#32) := by decide +kernel

theorem test_madd_v50 : after 0x00021301 (loaded toy [(1, 9), (2, 12)]) (fun t => (t.xVal 3, t.statusWord)) = some (4, 0x12#32) := by
  decide +kernel

theorem test_madd_range_v54 : after 0x00021301 (loaded toy [(1, 1), (2, 17)]) (fun t => (t.xVal 3, t.statusWord)) =
    some (0, 0x416#32) := by decide +kernel

theorem test_msub_v55 : after 0x00021302 (loaded toy [(1, 3), (2, 5)]) (fun t => (t.xVal 3, t.statusWord)) = some (15, 0x12#32) := by
  decide +kernel

theorem test_mmul_square_in_place_v60 : after 0x00011103 (loaded toy [(1, 5)]) (fun t => (t.xVal 1, t.statusWord)) =
    some (8, 0x12#32) := by decide +kernel

theorem test_mmont_v62 : after 0x01021304 (loaded toy [(1, 3), (2, 4)]) (fun t => (t.xVal 3, t.statusWord)) = some (13, 0x12#32) := by
  decide +kernel

theorem test_mmont_even_v77 : after 0x01021304 (loaded toyEven [(1, 3), (2, 4)]) (fun t => (t.xVal 3, t.statusWord)) =
    some (0, 0x516#32) := by decide +kernel

theorem test_minv_v67 : after 0x00001205 (loaded toy [(1, 5)]) (fun t => (t.xVal 2, t.statusWord)) = some (7, 0x12#32) := by
  decide +kernel

theorem test_minv_zero_v68 : after 0x00001205 (loaded toy [(1, 0), (2, 99)]) (fun t => (t.xVal 2, t.statusWord)) =
    some (99, 0x516#32) := by decide +kernel

theorem test_mred_v73 : after 0x01001206 (loaded toy [(1, 2 ^ 384 - 1)]) (fun t => (t.xVal 2, t.statusWord)) = some (6, 0x12#32) := by
  decide +kernel

theorem test_mrr_v75 : after 0x01000507 (loaded toy []) (fun t => (t.xVal 5, t.statusWord)) = some (4, 0x12#32) := by decide +kernel

theorem test_padd_v80 : after 0x00010210 (loaded toy [(0, 5), (1, 1), (2, 6), (3, 3)])
    (fun t => (t.xVal 4, t.xVal 5, t.pinf, t.statusWord)) = some (10, 6, 0#8, 0x12#32) := by decide +kernel

theorem test_padd_inf_v82 : after 0x00010210 { loaded toy [(0, 5), (1, 1)] with pinf := 0x03#8 }
    (fun t => (t.xVal 4, t.xVal 5, t.pinf, t.statusWord)) = some (0, 0, 0x07#8, 0x12#32) := by decide +kernel

theorem test_pdbl_v88 : after 0x00000111 (loaded toy [(0, 5), (1, 1)])
    (fun t => (t.xVal 2, t.xVal 3, t.pinf, t.statusWord)) = some (6, 3, 0#8, 0x12#32) := by decide +kernel

theorem test_pmul_v95 : after 0x00080112 (loaded toy [(0, 5), (1, 1), (8, 2 ^ 384 - 1)])
    (fun t => (t.xVal 2, t.xVal 3, t.pinf, t.statusWord)) = some (16, 13, 0#8, 0x12#32) := by decide +kernel

theorem test_pmul_alias_v98 : after 0x00010012 (loaded toy [(0, 5), (1, 3)])
    (fun t => (t.xVal 0, t.xVal 1, t.pinf, t.statusWord)) = some (0, 0, 0x01#8, 0x12#32) := by decide +kernel

theorem test_pchk_v100 : after 0x00000013 (loaded toy [(0, 5), (1, 1)]) State.statusWord = some 0x1A#32 := by decide +kernel

theorem test_pchk_not_canonical_v103 : after 0x00000013 (loaded toy [(0, 22), (1, 1)]) State.statusWord = some 0x12#32 := by
  decide +kernel

theorem test_pldg_v104 : after 0x00000314 { loaded toy [(6, 9), (7, 9)] with pinf := 0x08#8 }
    (fun t => (t.xVal 6, t.xVal 7, t.pinf, t.statusWord)) = some (5, 1, 0#8, 0x12#32) := by decide +kernel

theorem test_pubk_v134 : after 0x00000015 { loaded toy [(0, 7)] with pinf := 0x01#8 }
    (fun t => (t.xVal 0, t.xVal 1, t.pinf, t.statusWord)) = some (0, 6, 0#8, 0x12#32) := by decide +kernel

theorem test_pubk_key_n_v133 : after 0x00004015 (loaded toy [(4, 19)]) State.statusWord = some 0x616#32 := by decide +kernel

theorem test_rand_v110 : after 0x00000320 { loaded toy [] with entropy := [0xC8#8, 0x05#8, 0x77#8] }
    (fun t => (t.xVal 3, t.statusWord, t.entropy)) = some (6, 0x12#32, [0x77#8]) := by decide +kernel

theorem test_rand_exhausted_v113 : after 0x00000320 { loaded toy [] with entropy := List.replicate 256 0xFF#8 }
    (fun t => (t.xVal 3, t.statusWord)) = some (0, 0x816#32) := by decide +kernel

theorem test_nonce_v117 : firstNonce (fun i => [0, 19, 25, 4].getD i 0) 19 0 = .ok (4, 3) := by decide +kernel

theorem test_nonce_key_v118 : after 0x00010221 (loaded toy [(0, 10), (1, 19)]) State.statusWord = some 0x616#32 := by decide +kernel

theorem test_sign_v141 : signWith toy (fun i => [0, 20, 12, 18].getD i 0) 10 7 = .ok (5, 12) := by decide +kernel

theorem test_sign_exhausted_v139 : signWith toy (fun _ => 7) 10 7 = .error .retryExhausted := by decide +kernel

theorem test_signk_v142 : after 0x00210229 { loaded toy [(0, 10), (1, 7), (2, 3)] with pinf := 0x04#8 }
    (fun t => (t.xVal 4, t.xVal 5, t.pinf, t.statusWord)) = some (10, 14, 0x04#8, 0x12#32) := by decide +kernel

theorem test_signk_s_zero_v147 : after 0x00210229 (loaded toy [(0, 1), (1, 2), (2, 5)]) State.statusWord = some 0x916#32 := by
  decide +kernel

theorem test_verify_v160 : after 0x0032002A { loaded toy [(0, 10), (4, 10), (5, 14), (6, 0), (7, 6)] with pinf := 0x04#8 }
    State.statusWord = some 0x1A#32 := by decide +kernel

theorem test_verify_v155 : after 0x0032002A (loaded toy [(0, 10), (4, 29), (5, 14), (6, 0), (7, 6)]) State.statusWord =
    some 0x12#32 := by decide +kernel

theorem test_cset_v1 : after 0x00000030 (State.reset.loadCurve toy) (fun t => (t.clen, t.statusWord)) = some (1#8, 0x12#32) := by
  decide +kernel

theorem test_cset_range_clause_v6 : after 0x00000030 (State.reset.loadCurve { toy with a := 19 }) (fun t => (t.clen, t.statusWord)) =
    some (0#8, 0x706#32) := by decide +kernel

theorem test_cload_v8c : after 0x00000231 State.reset (fun t => (t.clen, t.cr.b.toNat % 2 ^ 32, t.statusWord)) =
    some (48#8, 0xD3EC2AEF, 0x12#32) := by decide +kernel

theorem test_cload_v9 : after 0x00000331 State.reset State.statusWord = some 0x206#32 := by decide +kernel

/-! ### The window, the life of a command, reset -/

theorem test_no_curve_v10 : after 0x00021301 (withX State.reset [(1, 1), (2, 2)]) State.statusWord = some 0x306#32 := by decide +kernel

theorem test_decode_first_v18 : after 0x0000000F State.reset State.statusWord = some 0x106#32 := by decide +kernel

theorem test_word_order_v178 : eventGives (.read 0x1C4 4) (withX State.reset [(3, 0x1122334455667788)]) State.rdata =
    some 0x11223344#32 := by decide +kernel

theorem test_slot_reserved_v179 : eventGives (.write 0x1F0 4 0xFFFFFFFF#32) (withX State.reset [(3, 0x1122334455667788)])
    (fun t => (t.xVal 3, t.windowWord 0x1F0)) = some (0x1122334455667788, 0#32) := by decide +kernel

theorem test_pinf_v180 : eventGives (.write 0x010 4 0xFFFFFF05#32) State.reset (fun t => t.windowWord 0x010) = some 0x5#32 := by
  decide +kernel

theorem test_curve_write_v11 : eventGives (.write 0x600 4 5#32) (loaded toy []) (fun t => (t.cr.gx, t.clen, t.statusWord)) =
    some (5#384, 0#8, 0#32) := by decide +kernel

theorem test_busy_write_v176 : eventGives (.write 0x500 4 3#32) ((loaded toy []).accept 0x21301#32)
    (fun t => (t.cr.a, t.cv, t.statusWord)) = some (2#384, true, 0x31#32) := by decide +kernel

theorem test_soft_reset_v175 : eventGives (.write 0x004 4 3#32) { (loaded toy [(1, 9)]).accept 0x21301#32 with ie := true }
    (fun t => (t.xVal 1, t.cv, t.ctrlWord, t.statusWord, t.lastcmd)) = some (0, false, 0#32, 0#32, 0#32) := by decide +kernel

theorem test_irq_v172 : after 0x00000013 { loaded toy [(0, 5), (1, 1)] with ie := true } (fun t => (t.irq, t.truth)) =
    some (true, true) := by decide +kernel

theorem test_refused_access : eventGives (.read 0x1000 4) State.reset State.rdata = none ∧
    eventGives (.read 0x002 4) State.reset State.rdata = none ∧ eventGives (.write 0x000 2 0#32) State.reset State.rdata = none := by
  decide +kernel

theorem test_assemble : (assemble "SIGNK s7, x15, x14, x13 ; R91".toList).map encode = some 0x00DEF729#32 ∧
    (assemble "PADD p8, p0, p1".toList).isNone = true ∧ (assemble "MADD x1, x2, x3".toList).isNone = true := by decide +kernel

theorem test_assemble_pseudo : (assembleLine "PMULG p2, x9".toList).map (List.map encode) = some [0x00000214#32, 0x00092212#32] ∧
    (assembleLine "PMULG p2, x4".toList).isNone = true := by decide +kernel

theorem test_pseudo_mont : Pseudo.expand (.tomont 3 1 2 .n) = [.mrr 2 .n, .mmont 3 1 2 .n] := by decide

/-- SHA-256 of "sample" (V30). -/
theorem test_sha256_sample : intBE (sha256 [0x73#8, 0x61#8, 0x6D#8, 0x70#8, 0x6C#8, 0x65#8]) =
    0xAF2BDBE1AA9B6EC1E2ADE1D694F41FC71A831D0268E9891562113D8A62ADD1BF := by decide +kernel

/-! ### Witnesses: for each statement with hypotheses, states and operands that meet them

Where a statement has several clauses, there is a witness for each, at the ends of its range. -/

/-- The state most witnesses are about: the example curve, digest 10, key 7, nonce 3, signature (10, 14), public key (0, 6). -/
def ready : State := loaded toy [(0, 10), (1, 7), (2, 3), (4, 10), (5, 14), (6, 0), (7, 6), (8, 1)]

/-- A command in flight. -/
def inFlight (w : Word) : State := ready.accept w

theorem ready_curve : ready.curve = toy := by decide +kernel

theorem ready_inv : ready.CurveInv ∧ ready.cv = true ∧ ready.busy = false := by decide +kernel

theorem witness_EncodeDecodeRoundTrip : decode 0x01020303#32 = .command (.mmul 3 0 2 .n) := by decide

theorem witness_MaskMatchDecides :
    BitVec.extractLsb' 0 8 0x01020303#32 = Opcode.code .mmul ∧ BitVec.extractLsb' 0 8 0xFF020303#32 = Opcode.code .mmul ∧
    BitVec.extractLsb' 0 8 0x00000231#32 = Opcode.code .cload ∧ BitVec.extractLsb' 0 8 0x00000331#32 = Opcode.code .cload := by decide

theorem witness_DecoderTotalAndDisjoint : Opcode.matches .nop 0#32 = true ∧ Opcode.matches .cload 0x231#32 = true ∧
    Opcode.matches .cload 0x331#32 = false := by decide

theorem witness_reservedOp : (∀ v ∈ [0x08, 0x0F, 0x16, 0x1F, 0x22, 0x27, 0x2B, 0x2F, 0x32, 0xFF], reservedOp v) ∧
    ∀ v ∈ [0x00, 0x07, 0x10, 0x15, 0x20, 0x21, 0x28, 0x2A, 0x30, 0x31], ¬ reservedOp v := by
  unfold reservedOp
  decide

theorem witness_IllegalWordsFail :
    ((inFlight 0x0F#32).busy = true ∧ (inFlight 0x0F#32).lastcmd = 0x0F#32 ∧ reservedOp (BitVec.extractLsb' 0 8 0x0F#32).toNat) ∧
    ((inFlight 0x100#32).busy = true ∧ (inFlight 0x100#32).lastcmd = 0x100#32 ∧
      ¬ reservedOp (BitVec.extractLsb' 0 8 0x100#32).toNat ∧ ∀ o : Opcode, o.matches 0x100#32 = false) := by
  refine ⟨⟨rfl, rfl, ?_⟩, rfl, rfl, ?_, fun o => ?_⟩
  · unfold reservedOp; decide
  · unfold reservedOp; decide
  · cases o <;> decide

theorem witness_CmdWriteIsAccepted : ready.busy = false ∧ (inFlight 0#32).busy = true := by decide +kernel

theorem witness_StepRunsDecodedCommand : (inFlight 0x00021303#32).busy = true ∧
    decode (inFlight 0x00021303#32).lastcmd = .command (.mmul 3 1 2 .p) ∧ (inFlight 0x00021303#32).schedule = [] := by decide +kernel

theorem witness_EveryCommandCompletes : (inFlight 0#32).busy = true ∧ (inFlight 0#32).schedule = [] := by decide +kernel

/-- A MADD with a source out of range. -/
def failing : State := (loaded toy [(1, 17)]).accept 0x00021301#32

/-- Whether an outcome is the next state t: Outcome has no decidable equality, State has. -/
def goesTo (o : Host.Outcome State Fault Refusal) (t : State) : Bool :=
  match o with
  | .next s => decide (s = t)
  | _ => false

theorem goesTo_eq {o : Host.Outcome State Fault Refusal} {t : State} (h : goesTo o t = true) : o = .next t := by
  cases o <;> simp_all [goesTo]

theorem witness_ErrorsArePrecise : (∃ t, failing.complete = .next t ∧ t.err = true) ∧
    ∀ d, decode failing.lastcmd ≠ .command (.rand d) := by
  have h : decode failing.lastcmd = .command (.madd 3 1 2 .p) := by decide +kernel
  refine ⟨⟨failing.takeError .range, goesTo_eq (by decide +kernel), rfl⟩, fun d hd => ?_⟩
  rw [h] at hd
  cases hd

theorem witness_ErrorCodesByCommand :
    (∃ t, (inFlight 0x0F#32).complete = .next t) ∧ decode (inFlight 0x0F#32).lastcmd = .illegalOpcode ∧
    (∃ t, (inFlight 0x100#32).complete = .next t) ∧ decode (inFlight 0x100#32).lastcmd = .illegalOperand ∧
    (∃ t, failing.complete = .next t) ∧ decode failing.lastcmd = .command (.madd 3 1 2 .p) :=
  ⟨⟨(inFlight 0x0F#32).takeError .illegalOpcode, goesTo_eq (by decide +kernel)⟩, by decide +kernel,
    ⟨(inFlight 0x100#32).takeError .illegalOperand, goesTo_eq (by decide +kernel)⟩, by decide +kernel,
    ⟨failing.takeError .range, goesTo_eq (by decide +kernel)⟩, by decide +kernel⟩

theorem witness_NoCurveComesFirst : (Instr.needsCurve (.pldg 0) = true ∧ State.reset.cv = false) ∧
    (Instr.needsCurve .cset = false ∧ ∃ t, exec .cset State.reset = .next t) :=
  ⟨by decide, by decide, State.reset.takeError .invalidCurve, goesTo_eq (by decide +kernel)⟩

theorem witness_OutcomeIsThatOfAcceptance : (inFlight 0x00021303#32).busy = true ∧
    ∀ e ∈ [Event.read 0x140 4, .write 0x140 4 1#32, .write 0x500 4 3#32, .write 0x004 4 1#32, .write 0x008 4 0xFFFFFFFF#32,
      .write 0x00C 4 0#32, .read 0xFFC 4], e.spectator = true := by decide +kernel

theorem witness_BusyWritesAreLost : (inFlight 0#32).busy = true ∧
    (∀ off ∈ [0x00C, 0x010, 0x100, 0x67C], off % 4 = 0 ∧ off < 0x1000 ∧ (off = 0x00C ∨ off = 0x010 ∨ (0x100 ≤ off ∧ off < 0x680))) ∧
    (∀ off ∈ [0x000, 0x014, 0x018, 0x0FC, 0x680, 0xFFC], off % 4 = 0 ∧ off < 0x1000 ∧
      (off = 0x000 ∨ off = 0x014 ∨ (0x018 ≤ off ∧ off < 0x100) ∨ 0x680 ≤ off)) ∧
    ((1#32).getLsbD 1 = false ∧ (2#32).getLsbD 1 = true) ∧
    (∃ t, step { inFlight 0#32 with busywr := true } = .next t) ∧ { inFlight 0#32 with busywr := true }.busywr = true :=
  ⟨by decide +kernel, by decide, by decide, by decide,
    ⟨({ inFlight 0#32 with busywr := true } : State).succeed false, goesTo_eq (by decide +kernel)⟩, rfl⟩

theorem witness_ReadsHaveNoSideEffects : (inFlight 0#32).busy = true ∧ ready.busy = false ∧
    (∀ off ∈ [0x010, 0x014, 0x100, 0x12C, 0x640, 0x66C], off % 4 = 0 ∧ off < 0x1000 ∧
      (off = 0x010 ∨ off = 0x014 ∨ (0x100 ≤ off ∧ off < 0x680 ∧ off % 0x40 < 0x30))) ∧
    ∀ off ∈ [0x000, 0x00C, 0x018, 0x0FC, 0x130, 0x13C, 0x67C, 0x680, 0xFFC], off % 4 = 0 ∧ off < 0x1000 ∧
      ¬ (off = 0x010 ∨ off = 0x014 ∨ (0x100 ≤ off ∧ off < 0x680 ∧ off % 0x40 < 0x30)) := by decide +kernel

theorem witness_OperandRegisterWindow : ready.busy = false ∧ (0 < 12 ∧ 11 < 12) ∧ (12 ≤ 12 ∧ 15 < 16) := by decide +kernel

theorem witness_CurveRegisterWindow : ready.busy = false ∧ CurveReg.slot .a = 0 ∧ CurveReg.slot .gy = 5 ∧ (0 < 12 ∧ 11 < 12) ∧
    (12 ≤ 12 ∧ 15 < 16) := by decide +kernel

theorem witness_ControlRegisterReads : ready.busy = false ∧
    ∀ off ∈ [0x018, 0x0FC, 0x680, 0xFFC], off % 4 = 0 ∧ ((0x018 ≤ off ∧ off < 0x100) ∨ (0x680 ≤ off ∧ off < 0x1000)) := by
  decide +kernel

theorem witness_ControlRegisterWrites : (1#32).getLsbD 1 = false ∧ ready.busy = false ∧
    ∀ off ∈ [0x000, 0x014, 0x018, 0x0FC, 0x680, 0xFFC], off % 4 = 0 ∧
      (off = 0x000 ∨ off = 0x014 ∨ (0x018 ≤ off ∧ off < 0x100) ∨ (0x680 ≤ off ∧ off < 0x1000)) := by decide +kernel

theorem witness_SoftResetIsReset : (2#32).getLsbD 1 = true ∧ (3#32).getLsbD 1 = true ∧ (1#32).getLsbD 1 = false := by decide

theorem witness_InterruptLine : (inFlight 0#32).busy = true ∧ ready.busy = false ∧ (2#32).getLsbD 1 = true ∧
    ((0#32).getLsbD 0 = false ∧ (0#32).getLsbD 1 = false) := by decide +kernel

theorem witness_AccessesRefused : (2 ≠ 4 ∨ 0x000 % 4 ≠ 0 ∨ 0xFFC < 0x000) ∧ (4 ≠ 4 ∨ 0xFFE % 4 ≠ 0 ∨ 0xFFC < 0xFFE) ∧
    (4 ≠ 4 ∨ 0x1000 % 4 ≠ 0 ∨ 0xFFC < 0x1000) ∧ (0x000 % 4 = 0 ∧ 0xFFC % 4 = 0 ∧ 0xFFC ≤ 0xFFC) := by decide

theorem witness_StepKeepsInvariant : (inFlight 0x00021303#32).Inv ∧ ∃ t, step (inFlight 0x00021303#32) = .next t :=
  ⟨by decide +kernel, ((inFlight 0x00021303#32).putX 3 4).succeed false, goesTo_eq (by decide +kernel)⟩

/-- A CLOAD in flight after reset. -/
def loading : State := State.reset.accept 0x00000231#32

theorem witness_CurveValidOnlyByValidation : ∃ t, step loading = .next t ∧ t.cv = true :=
  ⟨((loading.loadCurve (rom .secp384r1)).validate (rom .secp384r1)).succeed false, goesTo_eq (by decide +kernel), rfl⟩

theorem witness_PinfAndTrueWriters :
    (∃ t, step { ready with schedule := [.write 0x010 4 1#32] } = .next t ∧ t.getPinf 0 ≠ ready.getPinf 0) ∧
    ready.truth = false ∧ ∃ t, step (inFlight 0x0032002A#32) = .next t ∧ t.truth = true :=
  ⟨⟨{ ready with pinf := 1#8 }, goesTo_eq (by decide +kernel), by decide +kernel⟩, by decide +kernel,
    (inFlight 0x0032002A#32).succeed true, goesTo_eq (by decide +kernel), rfl⟩

theorem witness_OnlyRandReadsEntropy : (∀ d, Instr.pchk 3 ≠ .rand d) ∧ ∃ t, exec (.pchk 3) ready = .next t :=
  ⟨nofun, ready.succeed true, goesTo_eq (by decide +kernel)⟩

theorem witness_NopEffect : ready.busy = false ∧ BitVec.extractLsb' 0 8 0x100#32 = 0x00#8 ∧ 0x100#32 ≠ 0#32 := by decide +kernel

theorem witness_CsetValidates : ready.curve.PassesR112 ∧ ¬ State.reset.curve.PassesR112 := by
  unfold CurveVal.PassesR112
  rw [ready_curve]
  decide +kernel

theorem witness_CloadLoadsPreset : BitVec.extractLsb' 0 8 0x331#32 = 0x31#8 ∧ 2 < (BitVec.extractLsb' 8 4 0x331#32).toNat := by decide

theorem witness_AddSubMulResults : (ready.cv = true ∧ ready.xVal 0 < ready.modulus .p ∧ ready.xVal 5 < ready.modulus .p) ∧
    ((loaded toy [(1, 16)]).cv = true ∧ (loaded toy [(1, 16)]).xVal 1 < (loaded toy [(1, 16)]).modulus .p) ∧
    ((loaded toy [(1, 17)]).cv = true ∧ (loaded toy [(1, 17)]).modulus .p ≤ (loaded toy [(1, 17)]).xVal 1) := by decide +kernel

theorem witness_MmontResult : (ready.CurveInv ∧ ready.cv = true) ∧
    (ready.xVal 0 < ready.modulus .n ∧ ready.xVal 1 < ready.modulus .n ∧ ready.modulus .n % 2 = 1 ∧ limbsOf (ready.modulus .n) 1) ∧
    ((loaded toy [(1, 19)]).CurveInv ∧ (loaded toy [(1, 19)]).modulus .n ≤ (loaded toy [(1, 19)]).xVal 1) ∧
    ((loaded toyEven [(1, 3)]).CurveInv ∧ (loaded toyEven [(1, 3)]).cv = true ∧
      (loaded toyEven [(1, 3)]).xVal 1 < (loaded toyEven [(1, 3)]).modulus .n ∧ (loaded toyEven [(1, 3)]).modulus .n % 2 = 0) := by
  decide +kernel

theorem witness_MinvResult : (ready.CurveInv ∧ ready.cv = true) ∧
    (ready.xVal 0 < ready.modulus .p ∧ Nat.gcd (ready.xVal 0) (ready.modulus .p) = 1) ∧
    ((loaded toyEven [(1, 4)]).CurveInv ∧ (loaded toyEven [(1, 4)]).xVal 1 < (loaded toyEven [(1, 4)]).modulus .n ∧
      Nat.gcd ((loaded toyEven [(1, 4)]).xVal 1) ((loaded toyEven [(1, 4)]).modulus .n) ≠ 1) ∧
    ready.xVal 6 = 0 ∧ ((loaded toy [(1, 17)]).CurveInv ∧ (loaded toy [(1, 17)]).modulus .p ≤ (loaded toy [(1, 17)]).xVal 1) := by
  decide +kernel

theorem witness_MredMrrResults : (ready.CurveInv ∧ ready.cv = true ∧ ready.modulus .n % 2 = 1 ∧ limbsOf (ready.modulus .n) 1) ∧
    ((loaded toyEven []).CurveInv ∧ (loaded toyEven []).cv = true ∧ (loaded toyEven []).modulus .n % 2 = 0) := by decide +kernel

theorem witness_ArithmeticIdentities : (ready.CurveInv ∧ ready.cv = true ∧ ready.xVal 0 < ready.modulus .n) ∧
    (ready.modulus .n % 2 = 1 ∧ ready.xVal 8 = 1 ∧ (9 : XReg) ≠ 0 ∧ (8 : XReg) ≠ 9 ∧ (8 : XReg) ≠ 10) ∧
    (ready.xVal 1 < ready.modulus .n ∧ (10 : XReg) ≠ 1) ∧
    (Nat.gcd (ready.xVal 0) (ready.modulus .n) = 1 ∧ (10 : XReg) ≠ 0) := by decide +kernel

theorem witness_PointRegisterViews : ({ ready with pinf := 1#8 } : State).getPinf 0 = true ∧ ready.getPinf 0 = false ∧
    (0 < 2 ^ 384 ∧ 2 ^ 384 - 1 < 2 ^ 384) ∧ ((2 : XReg) ≠ loReg 0 ∧ (2 : XReg) ≠ hiReg 0) ∧ (1 : PReg) ≠ 0 := by decide +kernel

theorem witness_PointAddCases : 3 ≤ toy.p ∧ (Point.aff 5 1).canonical toy ∧ (Point.aff 5 16).canonical toy ∧
    (Point.aff 1 0).canonical toy ∧ (Point.aff 16 13).canonical toy ∧ Point.inf.canonical toy ∧ toy.p.Prime ∧
    Nat.gcd (2 * 1 % toy.p) toy.p = 1 ∧ Int.gcd ((16 : Nat) - (5 : Nat) : Int) toy.p = 1 ∧
    (3 ≤ toyComposite.p ∧ (Point.aff 1 1).canonical toyComposite ∧ (Point.aff 4 2).canonical toyComposite ∧
      Int.gcd ((4 : Nat) - (1 : Nat) : Int) toyComposite.p ≠ 1) ∧
    (Point.aff 1 3).canonical toyComposite ∧ Nat.gcd (2 * 3 % toyComposite.p) toyComposite.p ≠ 1 := by
  refine ⟨by decide, by unfold Point.canonical; decide, by unfold Point.canonical; decide, by unfold Point.canonical; decide,
    by unfold Point.canonical; decide, trivial, by norm_num [toy], by decide, by decide, ⟨by decide, ?_, ?_, by decide⟩, ?_, by decide⟩
  all_goals (unfold Point.canonical; decide)

/-- Points p0 = G, p1 = 2G, p2 = INF, p3 = (17, 1), which is not canonical. -/
def points : State := { loaded toy [(0, 5), (1, 1), (2, 6), (3, 3), (6, 17), (7, 1), (8, 7), (9, 19)] with pinf := 0x04#8 }

/-- The points of V105. -/
def composite : State := loaded toyComposite [(0, 1), (1, 1), (2, 4), (3, 2), (8, 1)]

theorem points_read : points.point 0 = .aff 5 1 ∧ points.point 1 = .aff 6 3 ∧ points.point 2 = .inf ∧ points.point 3 = .aff 17 1 ∧
    points.curve = toy ∧ points.CurveInv ∧ points.cv = true ∧ points.xVal 8 = 7 ∧ points.xVal 9 = 19 := by decide +kernel

theorem composite_read : composite.point 0 = .aff 1 1 ∧ composite.point 1 = .aff 4 2 ∧ composite.curve = toyComposite ∧
    composite.CurveInv ∧ composite.cv = true := by decide +kernel

theorem toy_prime : toy.p.Prime ∧ toy.n.Prime := by norm_num [toy]

theorem toy_primeCurve : PrimeCurve toy := ⟨by decide +kernel, toy_prime.1, toy_prime.2, by decide +kernel⟩

theorem witness_PaddPdblResults : points.CurveInv ∧ points.cv = true ∧ ¬ (points.point 3).canonical points.curve ∧
    (points.point 0).canonical points.curve ∧ (points.point 1).canonical points.curve ∧ points.curve.p.Prime ∧
    pointAdd points.curve (points.point 0) (points.point 1) = .ok (.aff 10 6) ∧
    (composite.CurveInv ∧ composite.cv = true ∧ (composite.point 0).canonical composite.curve ∧
      (composite.point 1).canonical composite.curve ∧
      pointAdd composite.curve (composite.point 0) (composite.point 1) = .error .notInvertible) := by
  obtain ⟨h0, h1, h2, h3, h4, h5, h6, _⟩ := points_read
  obtain ⟨g0, g1, g2, g3, g4⟩ := composite_read
  rw [h0, h1, h3, h4, g0, g1, g2]
  refine ⟨h5, h6, ?_, ?_, ?_, toy_prime.1, by decide +kernel, g3, g4, ?_, ?_, by decide +kernel⟩
  all_goals (unfold Point.canonical; decide)

theorem witness_ScalarMultiplySteps : 0 < toy.n ∧ 19 % toy.n = 0 ∧ (0 < 1 ∧ 1 < toy.n) ∧ (0 < 18 ∧ 18 < toy.n) := by decide

theorem witness_PmulResult : points.CurveInv ∧ points.cv = true ∧ ¬ (points.point 3).canonical points.curve ∧
    (points.point 0).canonical points.curve ∧ points.xVal 9 % points.curve.n = 0 ∧ points.curve.p.Prime ∧
    scalarMultiply points.curve (points.point 0) (points.xVal 8) = .ok (.aff 0 6) ∧
    (composite.CurveInv ∧ composite.cv = true ∧ (Point.aff 1 3).canonical composite.curve) := by
  obtain ⟨h0, _, _, h3, h4, h5, h6, h7, h8⟩ := points_read
  obtain ⟨_, _, g2, g3, g4⟩ := composite_read
  rw [h0, h3, h4, h7, h8, g2]
  refine ⟨h5, h6, ?_, ?_, by decide, toy_prime.1, by decide +kernel, g3, g4, ?_⟩
  all_goals (unfold Point.canonical; decide)

theorem witness_PchkPldgResults : points.CurveInv ∧ points.cv = true ∧ (points.point 0).OnR163 points.curve ∧
    ¬ (points.point 2).OnR163 points.curve ∧ ¬ (points.point 3).OnR163 points.curve := by
  obtain ⟨h0, _, h2, h3, h4, h5, h6, _⟩ := points_read
  rw [h0, h2, h3, h4]
  refine ⟨h5, h6, ?_, ?_, ?_⟩ <;> unfold Point.OnR163 <;> decide

/-- Two draws: 200 is rejected, 5 is accepted. -/
def drawing : State := { loaded toy [] with entropy := [0xC8#8, 0x05#8] }

/-- 256 draws, none accepted. -/
def exhausted : State := { loaded toy [] with entropy := List.replicate 256 0xFF#8 }

theorem witness_RandResult : drawing.CurveInv ∧ drawing.cv = true ∧ bytesCovering (drawing.curve.n - 1) 1 ∧
    (1 < 256 ∧ drawing.drawValue 1 1 < drawing.curve.n - 1 ∧ ∀ u < 1, drawing.curve.n - 1 ≤ drawing.drawValue 1 u) ∧
    (exhausted.CurveInv ∧ exhausted.cv = true ∧ bytesCovering (exhausted.curve.n - 1) 1 ∧
      ∀ t < 256, exhausted.curve.n - 1 ≤ exhausted.drawValue 1 t) := by decide +kernel

theorem witness_RandOutcomeSet : drawing.CurveInv ∧ drawing.cv = true ∧ (1 ≤ 1 ∧ 18 ≤ drawing.curve.n - 1) ∧
    (∃ t, exec (.rand 3) drawing = .next t) ∧ ∀ n, 1 ≤ n → drawing.curve.n - 1 ≠ 256 ^ n := by
  refine ⟨by decide +kernel, by decide +kernel, by decide +kernel,
    ⟨((drawing.drawn 2).putX 3 6).succeed false, goesTo_eq (by decide +kernel)⟩, fun n hn => ?_⟩
  have h : drawing.curve.n = 19 := by decide +kernel
  have := Nat.pow_le_pow_right (n := 256) (by omega) hn
  omega

theorem witness_NonceResult : ready.cv = true ∧ ¬ inScalarRange ready.curve (ready.xVal 6) ∧
    inScalarRange ready.curve (ready.xVal 1) ∧ inScalarRange ready.curve (ready.xVal 8) ∧
    inScalarRange (loaded toy [(1, 18)]).curve ((loaded toy [(1, 18)]).xVal 1) ∧
    ¬ inScalarRange (loaded toy [(1, 19)]).curve ((loaded toy [(1, 19)]).xVal 1) := by decide +kernel

theorem witness_PubkResult : ready.CurveInv ∧ ready.cv = true ∧ ¬ inScalarRange ready.curve (ready.xVal 6) ∧
    inScalarRange ready.curve (ready.xVal 1) ∧ PrimeCurve ready.curve ∧
    scalarMultiply ready.curve (.aff ready.curve.gx ready.curve.gy) (ready.xVal 1) = .ok (.aff 0 6) := by
  have h : PrimeCurve ready.curve := by rw [ready_curve]; exact toy_primeCurve
  exact ⟨ready_inv.1, ready_inv.2.1, by decide +kernel, by decide +kernel, h, by decide +kernel⟩

theorem witness_SignAttempt : 2 ≤ toy.n ∧ inScalarRange toy 7 ∧ inScalarRange toy 3 ∧ inScalarRange toy 18 ∧
    scalarMultiply toy (.aff toy.gx toy.gy) 3 = .ok (.aff 10 6) ∧ 10 % toy.n ≠ 0 ∧ Nat.gcd 3 toy.n = 1 ∧
    scalarMultiply toy (.aff toy.gx toy.gy) 7 = .ok (.aff 0 6) ∧ 0 % toy.n = 0 := by decide +kernel

/-- A curve whose base point has order 2 while N = 4: every even nonce gives INF, and NOT_INVERTIBLE is reached too. -/
def toyFour : CurveVal := { a := 0, b := 12, p := 13, n := 4, gx := 1, gy := 0 }

theorem witness_SignAttempt_corners : curveOK toyFour = true ∧ 2 ≤ toyFour.n ∧ inScalarRange toyFour 1 ∧ inScalarRange toyFour 2 ∧
    scalarMultiply toyFour (.aff toyFour.gx toyFour.gy) 2 = .ok .inf ∧
    (curveOK toyEven = true ∧ inScalarRange toyEven 2 ∧ scalarMultiply toyEven (.aff 5 1) 2 = .ok (.aff 6 3) ∧
      6 % toyEven.n ≠ 0 ∧ Nat.gcd 2 toyEven.n ≠ 1) := by decide +kernel

theorem witness_SignResult : ready.CurveInv ∧ ready.cv = true ∧ ¬ inScalarRange ready.curve (ready.xVal 6) ∧
    inScalarRange ready.curve (ready.xVal 1) := by decide +kernel

theorem witness_SignkResult : ready.CurveInv ∧ ready.cv = true ∧ ¬ inScalarRange ready.curve (ready.xVal 6) ∧
    inScalarRange ready.curve (ready.xVal 1) ∧ inScalarRange ready.curve (ready.xVal 2) ∧
    signCore ready.curve (ready.xVal 0) (ready.xVal 1) (ready.xVal 2) = .ok (some (10, 14)) ∧
    signCore ready.curve (ready.xVal 0) (ready.xVal 1) (ready.xVal 1) = .ok none ∧
    ((loaded toyEven [(0, 1), (1, 7), (2, 2)]).CurveInv ∧
      signCore (loaded toyEven [(0, 1), (1, 7), (2, 2)]).curve 1 7 2 = .error .notInvertible) ∧
    ready.curve.p.Prime ∧ ready.curve.n.Prime := by
  have h : ready.curve.p.Prime ∧ ready.curve.n.Prime := by rw [ready_curve]; exact toy_prime
  exact ⟨ready_inv.1, ready_inv.2.1, by decide +kernel, by decide +kernel, by decide +kernel, by decide +kernel, by decide +kernel,
    by decide +kernel, h⟩

theorem witness_VerifyResult : ready.CurveInv ∧ ready.cv = true ∧ ¬ (ready.point 0).OnR163 ready.curve ∧
    (ready.point 3).OnR163 ready.curve ∧ inScalarRange ready.curve (ready.pairLo 2) ∧ inScalarRange ready.curve (ready.pairHi 2) ∧
    ¬ (inScalarRange ready.curve (ready.pairLo 3) ∧ inScalarRange ready.curve (ready.pairHi 3)) ∧
    Nat.gcd (ready.pairHi 2) ready.curve.n = 1 ∧ ready.verifyPoint 0 2 3 15 = .ok (.aff 10 6) ∧ 10 % ready.curve.n = ready.pairLo 2 ∧
    ready.curve.p.Prime ∧ ((loaded toyEven [(4, 10), (5, 14)]).CurveInv ∧
      Nat.gcd ((loaded toyEven [(4, 10), (5, 14)]).pairHi 2) (loaded toyEven [(4, 10), (5, 14)]).curve.n ≠ 1) := by
  have h : ready.curve.p.Prime := by rw [ready_curve]; exact toy_prime.1
  have h0 : ready.point 0 = .aff 10 7 := by decide +kernel
  have h3 : ready.point 3 = .aff 0 6 := by decide +kernel
  rw [h0, h3, ready_curve] at *
  refine ⟨ready_inv.1, ready_inv.2.1, ?_, ?_, by decide +kernel, by decide +kernel, by decide +kernel, by decide +kernel,
    by decide +kernel, by decide +kernel, h, by decide +kernel⟩ <;> unfold Point.OnR163 <;> decide

theorem witness_DigestActsModN : (29#384).toNat % ready.curve.n = ready.xVal 0 % ready.curve.n ∧
    ((0 : XReg) ≠ loReg 2 ∧ (0 : XReg) ≠ hiReg 2 ∧ (0 : XReg) ≠ loReg 3 ∧ (0 : XReg) ≠ hiReg 3) ∧
    ((0 : XReg) ≠ 1 ∧ (0 : XReg) ≠ 2 ∧ (0 : XReg) ≠ loReg 5 ∧ (0 : XReg) ≠ hiReg 5) := by decide +kernel

theorem witness_SigningIsDeterministic : ready.cr = (withX ready [(9, 10)]).cr ∧ ready.cv = (withX ready [(9, 10)]).cv ∧
    ready.xVal 0 = (withX ready [(9, 10)]).xVal 9 ∧ ready.xVal 1 = (withX ready [(9, 10)]).xVal 1 := by decide +kernel

theorem witness_NonceIsTheSigningNonce : ready.CurveInv ∧ ready.cv = true ∧ inScalarRange ready.curve (ready.xVal 1) ∧
    (9 : XReg) ≠ 0 ∧ (9 : XReg) ≠ 1 := by decide +kernel

theorem witness_PointAdditionIsAGroup : curveOK toy = true ∧ toy.p.Prime ∧ nonsingular toy ∧ onCurve toy (.aff 5 1) = true ∧
    onCurve toy (.aff 6 3) = true :=
  ⟨by decide +kernel, toy_prime.1, by decide, by decide +kernel, by decide +kernel⟩

theorem witness_SignatureVerifies : ready.cv = true ∧ PrimeCurve ready.curve ∧ inScalarRange ready.curve (ready.xVal 1) ∧
    inScalarRange ready.curve (ready.xVal 2) ∧ (∀ x ∈ [(0 : XReg), 1, 2], x ≠ loReg 7 ∧ x ≠ hiReg 7) ∧ (0 : XReg) ≠ loReg 6 ∧
    (0 : XReg) ≠ hiReg 6 ∧ (7 : PReg) ≠ 6 := by
  have h : PrimeCurve ready.curve := by rw [ready_curve]; exact toy_primeCurve
  exact ⟨ready_inv.2.1, h, by decide +kernel, by decide +kernel, by decide, by decide, by decide, by decide⟩

theorem witness_FieldNonceRandFrame : Instr.madd 3 1 2 .p ∈ [Instr.madd 3 1 2 .p] ∧
    exec (.madd 3 0 5 .p) ready = .next ((ready.putX 3 7).succeed false) ∧
    (0x130 % 4 = 0 ∧ 0x130 < 0x1000 ∧ 0x130 ≠ 0x008 ∧ ¬ inXReg 3 0x130) :=
  ⟨by decide, goesTo_eq (by decide +kernel), by decide +kernel⟩

theorem witness_PointFrame : exec (.padd 2 0 1) points = .next ((points.putPoint 2 (.aff 10 6)).succeed false) ∧
    ((8 : XReg) ≠ loReg 2 ∧ (8 : XReg) ≠ hiReg 2) ∧ (3 : PReg) ≠ 2 ∧
    (0x100 ≠ 0x008 ∧ 0x100 ≠ 0x010 ∧ ¬ inXReg (loReg 2) 0x100 ∧ ¬ inXReg (hiReg 2) 0x100) :=
  ⟨goesTo_eq (by decide +kernel), by decide +kernel⟩

theorem witness_SignatureFrame : exec (.signk 5 0 1 2) ready = .next ((ready.putPair 5 10 14).succeed false) ∧
    ((0 : XReg) ≠ loReg 5 ∧ (0 : XReg) ≠ hiReg 5) ∧ (0x100 ≠ 0x008 ∧ ¬ inXReg (loReg 5) 0x100 ∧ ¬ inXReg (hiReg 5) 0x100) :=
  ⟨goesTo_eq (by decide +kernel), by decide +kernel⟩

theorem witness_ControlFrame : exec (.verify 0 2 3) ready = .next (ready.succeed true) ∧
    exec (.cload .secp256k1) State.reset =
      .next (((State.reset.loadCurve (rom .secp256k1)).validate (rom .secp256k1)).succeed false) ∧
    (0x100 % 4 = 0 ∧ 0x100 < 0x1000 ∧ 0x100 ≠ 0x008 ∧ 0x100 ≠ 0x014) :=
  ⟨goesTo_eq (by decide +kernel), goesTo_eq (by decide +kernel), by decide +kernel⟩

end Sys2Proof.Tests
end

/-! ## Noninterference with the entropy source (00_scope.md R7, 43_random_nonce.md R194, R195) -/

namespace Sys2Proof.Machine

/-- The state with other contents of the entropy source. -/
def State.withEntropy (s : State) (bytes : List Byte) (n : Nat) : State := { s with entropy := bytes, entropyDrawn := n }

@[simp] theorem State.withEntropy_entropy (s : State) (bytes : List Byte) (n : Nat) : (s.withEntropy bytes n).entropy = bytes := rfl
@[simp] theorem State.withEntropy_entropyDrawn (s : State) (bytes : List Byte) (n : Nat) :
    (s.withEntropy bytes n).entropyDrawn = n := rfl
@[simp] theorem State.withEntropy_self (s : State) : s.withEntropy s.entropy s.entropyDrawn = s := rfl

theorem drawsEntropy_eq_false {i : Instr} (hi : ∀ d, i ≠ .rand d) : i.drawsEntropy = false := by
  cases i with
  | rand d => exact absurd rfl (hi d)
  | _ => rfl

/-- A command that draws no entropy carries any contents of the source along, and its outcome is otherwise the same. -/
theorem exec_withEntropy {i : Instr} {s t : State} (hd : i.drawsEntropy = false) (h : exec i s = .next t)
    (bytes : List Byte) (n : Nat) : exec i (s.withEntropy bytes n) = .next (t.withEntropy bytes n) := by
  have hinv : exec i (s.withEntropy bytes n) = mapNext (·.withEntropy bytes n) (exec i s) :=
    exec_invisible (invisible_entropy bytes n) i s hd
  rw [hinv, h]
  rfl

/-- That the source is left as it was is `exec_withEntropy` where the contents carried along are the state's own. -/
theorem exec_keeps_entropy {i : Instr} {s t : State} (hd : i.drawsEntropy = false) (h : exec i s = .next t) :
    t.entropy = s.entropy ∧ t.entropyDrawn = s.entropyDrawn := by
  have hself := exec_withEntropy hd h s.entropy s.entropyDrawn
  rw [s.withEntropy_self, h] at hself
  have ht : t = t.withEntropy s.entropy s.entropyDrawn := Host.Outcome.next.inj hself
  constructor <;> rw [ht] <;> simp

/-- Settles O28: the fields of the entropy source are invisible to every command but RAND. -/
theorem onlyRandReadsEntropy : Obligations.OnlyRandReadsEntropy := by
  intro i s t bytes n hi h
  have hd := drawsEntropy_eq_false hi
  obtain ⟨hbytes, hcount⟩ := exec_keeps_entropy hd h
  exact ⟨hbytes, hcount, exec_withEntropy hd h bytes n⟩

end Sys2Proof.Machine

/-! ## The invariant of the core's states, and who writes CV, PINF and TRUE (10_state.md R24, R26, R27, R30, R33) -/

namespace Sys2Proof.Machine

/-! ### The commands that write CV, PINF and TRUE -/

theorem loadsCurve_eq_false {i : Instr} (hv : i.validates = false) : i.loadsCurve = false :=
  (Bool.or_eq_false_iff.1 hv).2

theorem validates_iff {i : Instr} : i.validates = true ↔ i = .cset ∨ ∃ k, i = .cload k := by
  cases i <;> simp [Instr.validates, Instr.opcode]

theorem tests_iff {i : Instr} : i.tests = true ↔ (∃ a, i = .pchk a) ∨ ∃ a b c, i = .verify a b c := by
  cases i <;> simp [Instr.tests, Instr.opcode]

theorem mem_writesPinf_iff {i : Instr} {d : PReg} : d ∈ i.writesPinf ↔
    (∃ a b, i = .padd d a b) ∨ (∃ a, i = .pdbl d a) ∨ (∃ a b, i = .pmul d a b) ∨ i = .pldg d ∨ ∃ a, i = .pubk d a := by
  cases i <;> simp [Instr.writesPinf, eq_comm]

/-! ### Everything a host write can do -/

/-- What a host write of the value v to location l may make of s (20_memory.md R61, 70_reset_and_hazards.md R271). -/
inductive HostWrote (s : State) (l : Location) (v : Word) : State → Prop
  | lost (hb : s.busy = true) : HostWrote s l v s.lostWrite
  | ignored : HostWrote s l v s
  | reset (hl : l = .ctrl) (hv : v.getLsbD 1 = true) : HostWrote s l v s.coreReset
  | ie (hl : l = .ctrl) (hv : v.getLsbD 1 = false) : HostWrote s l v { s with ie := v.getLsbD 0 }
  | status (hl : l = .status) : HostWrote s l v (s.writeStatus v)
  | accepted (hl : l = .cmd) (hb : s.busy = false) : HostWrote s l v (s.accept v)
  | pinf (hl : l = .pinf) (hb : s.busy = false) : HostWrote s l v (s.writePinf v)
  | operand (i : XReg) (j : Fin 12) (hl : l = .xWord i j) (hb : s.busy = false) : HostWrote s l v (s.writeX i j v)
  | curve (c : CurveReg) (j : Fin 12) (hl : l = .crWord c j) (hb : s.busy = false) : HostWrote s l v (s.writeCurve c j v)

theorem State.writeCtrl_wrote (s : State) (v : Word) : HostWrote s .ctrl v (s.writeCtrl v) := by
  cases hv : v.getLsbD 1
  · rw [s.writeCtrl_ie hv]
    exact .ie rfl hv
  · rw [s.writeCtrl_reset hv]
    exact .reset rfl hv

theorem State.hostWrite_wrote (s : State) (l : Location) (v : Word) : HostWrote s l v (s.hostWrite l v) := by
  unfold State.hostWrite
  split
  · next hlocked =>
    rw [Bool.and_eq_true] at hlocked
    exact .lost hlocked.1
  · next hfree =>
    have idle (hl : l.busyLocked = true) : s.busy = false := by simpa [hl] using hfree
    cases l with
    | id => exact .ignored
    | ctrl => exact s.writeCtrl_wrote v
    | status => exact .status rfl
    | cmd => exact .accepted rfl (idle rfl)
    | pinf => exact .pinf rfl (idle rfl)
    | clen => exact .ignored
    | xWord i j => exact .operand i j rfl (idle rfl)
    | crWord c j => exact .curve c j rfl (idle rfl)
    | slotReserved => exact .ignored
    | reserved => exact .ignored

/-! ### What keeps the invariant -/

/-- A command's writes keep the curve's part: either it validates a curve, or it touches neither the curve nor CV and CLEN. -/
theorem Effect.curveInv {i : Instr} {s s' : State} {b : Bool} (he : Effect i s s' b) (h : s.CurveInv) : s'.CurveInv := by
  cases hv : i.validates
  · have hcurve : s'.curve = s.curve := congrArg CurveRegs.val (he.cr (loadsCurve_eq_false hv))
    simpa only [State.CurveInv, he.cv hv, he.clen hv, hcurve] using h
  · obtain ⟨hok, hcv, hclen⟩ := he.valid hv
    exact ⟨fun _ => ⟨hok, hclen⟩, fun h0 => absurd (hcv.symm.trans h0) nofun⟩

/-- The flags of success agree: BUSY, ERR and ERRCODE are 0, whatever TRUE is. -/
theorem State.succeed_inv {s : State} (b : Bool) (h : s.CurveInv) : (s.succeed b).Inv := by
  refine ⟨h, ?_, ?_⟩
  · simp [State.BusyInv]
  · simp [State.ErrInv]

/-- The flags of failure agree: BUSY is 0, ERR is 1, ERRCODE is one of the nine codes, TRUE is 0. -/
theorem State.takeError_inv {s : State} (e : ErrCode) (h : s.CurveInv) : (s.takeError e).Inv := by
  refine ⟨h, ?_, ?_⟩
  · simp [State.BusyInv]
  · simp [State.ErrInv, e.code_ne_zero, e.code_le]

theorem State.complete_inv {s t : State} (h : s.CurveInv) (hc : s.complete = .next t) : t.Inv := by
  rcases s.complete_cases with ⟨k, e, he⟩ | ⟨k, i, s', b, _, heff, he⟩
  · obtain rfl := Host.Outcome.next.inj (he.symm.trans hc)
    exact State.takeError_inv (s := s.drawn k) e h
  · obtain rfl := Host.Outcome.next.inj (he.symm.trans hc)
    exact State.succeed_inv b (heff.curveInv h)

theorem State.hostRead_inv {s : State} (h : s.Inv) (l : Location) : (s.hostRead l).Inv := by
  rw [s.hostRead_eq]
  exact h

/-- Acceptance clears every flag the invariant speaks of (30_encoding.md R95). -/
theorem State.accept_inv {s : State} (w : Word) (h : s.CurveInv) : (s.accept w).Inv := by
  refine ⟨h, ?_, ?_⟩
  · simp [State.BusyInv]
  · simp [State.ErrInv]

/-- A STATUS write only lowers DONE and BUSYWR (R33). -/
theorem State.writeStatus_inv {s : State} (v : Word) (h : s.Inv) : (s.writeStatus v).Inv := by
  obtain ⟨hcurve, hbusy, herr⟩ := h
  refine ⟨hcurve, fun hb => ?_, herr⟩
  obtain ⟨hdone, hrest⟩ := hbusy hb
  exact ⟨by simp [hdone], hrest⟩

/-- A write of a curve register clears CV and CLEN (R57). -/
theorem State.writeCurve_inv {s : State} (c : CurveReg) (j : Fin 12) (v : Word) (h : s.Inv) : (s.writeCurve c j v).Inv := by
  obtain ⟨_, hbusy, herr⟩ := h
  exact ⟨⟨nofun, fun _ => rfl⟩, hbusy, herr⟩

/-- Settles O24: at reset CV, CLEN, BUSY, ERR, ERRCODE and TRUE are all 0. -/
theorem invariantAtReset : Obligations.InvariantAtReset := by
  refine ⟨⟨nofun, fun _ => rfl⟩, nofun, ?_⟩
  simp [State.ErrInv, State.reset]

theorem State.coreReset_inv (s : State) : s.coreReset.Inv := invariantAtReset

theorem HostWrote.inv {s t : State} {l : Location} {v : Word} (hw : HostWrote s l v t) (h : s.Inv) : t.Inv := by
  cases hw with
  | lost => exact h
  | ignored => exact h
  | reset => exact s.coreReset_inv
  | ie => exact h
  | status => exact State.writeStatus_inv v h
  | accepted => exact State.accept_inv v h.1
  | pinf => exact h
  | operand => exact h
  | curve c j => exact State.writeCurve_inv c j v h

/-- Settles O25, by the five things a step can do. -/
theorem stepKeepsInvariant : Obligations.StepKeepsInvariant := by
  intro s t h hstep
  have hpop : s.popped.Inv := h
  rcases step_cases hstep with ⟨_, rfl⟩ | ⟨_, hc, _⟩ | ⟨off, _, _, _, _, rfl⟩ | ⟨off, _, v, _, _, _, rfl⟩ | ⟨_, _, rfl⟩
  · exact hpop
  · exact State.complete_inv hpop.1 hc
  · exact State.hostRead_inv hpop _
  · exact (s.popped.hostWrite_wrote (locate off) v).inv hpop
  · exact s.popped.coreReset_inv

/-! ### Who raises CV -/

/-- A completion with CV = 1 after it left the curve alone or was a CSET or CLOAD that passed CurveOK. -/
theorem State.complete_cv (s : State) {t : State} (hc : s.complete = .next t) (hcv : t.cv = true) :
    (s.cv = true ∧ t.cr = s.cr) ∨
      ((decode s.lastcmd = .command .cset ∨ ∃ k, decode s.lastcmd = .command (.cload k)) ∧ curveOK t.curve = true) := by
  rcases s.complete_cases with ⟨k, e, he⟩ | ⟨k, i, s', b, hi, heff, he⟩
  · obtain rfl := Host.Outcome.next.inj (he.symm.trans hc)
    exact .inl ⟨hcv, rfl⟩
  · obtain rfl := Host.Outcome.next.inj (he.symm.trans hc)
    cases hv : i.validates
    · exact .inl ⟨(heff.cv hv).symm.trans hcv, heff.cr (loadsCurve_eq_false hv)⟩
    · refine .inr ⟨?_, (heff.valid hv).1⟩
      rcases validates_iff.1 hv with rfl | ⟨k, rfl⟩
      · exact .inl hi
      · exact .inr ⟨k, hi⟩

/-- No host write raises CV, and one that leaves it set leaves the curve alone. -/
theorem HostWrote.cv {s t : State} {l : Location} {v : Word} (hw : HostWrote s l v t) (hcv : t.cv = true) :
    s.cv = true ∧ t.cr = s.cr := by
  cases hw with
  | reset => cases hcv
  | curve => cases hcv
  | _ => exact ⟨hcv, rfl⟩

/-- Settles O26: of what a step can do only a completion raises CV. -/
theorem curveValidOnlyByValidation : Obligations.CurveValidOnlyByValidation := by
  intro s t hstep hcv
  rcases step_cases hstep with ⟨_, rfl⟩ | ⟨hs, hc, hb⟩ | ⟨off, _, _, _, _, rfl⟩ | ⟨off, _, v, _, _, _, rfl⟩ | ⟨_, _, rfl⟩
  · exact .inl ⟨hcv, rfl⟩
  · exact (s.popped.complete_cv hc hcv).imp_right fun ⟨hi, hok⟩ => ⟨hs, hb, hi, hok⟩
  · rw [State.hostRead_eq] at hcv ⊢
    exact .inl ⟨hcv, rfl⟩
  · exact .inl ((s.popped.hostWrite_wrote (locate off) v).cv hcv)
  · cases hcv

/-! ### Who writes PINF and TRUE -/

/-- A completion that changes PINF[d] is that of a command which writes it. -/
theorem State.complete_pinf (s : State) {t : State} {d : PReg} (hc : s.complete = .next t) (hne : t.getPinf d ≠ s.getPinf d) :
    ∃ i, decode s.lastcmd = .command i ∧ d ∈ i.writesPinf := by
  rcases s.complete_cases with ⟨k, e, he⟩ | ⟨k, i, s', b, hi, heff, he⟩
  · obtain rfl := Host.Outcome.next.inj (he.symm.trans hc)
    exact absurd rfl hne
  · obtain rfl := Host.Outcome.next.inj (he.symm.trans hc)
    exact ⟨i, hi, by_contra fun hd => hne (heff.pinf d hd)⟩

/-- A completion with TRUE = 1 after it is that of a command whose result is TRUE. -/
theorem State.complete_truth (s : State) {t : State} (hc : s.complete = .next t) (ht : t.truth = true) :
    ∃ i, decode s.lastcmd = .command i ∧ i.tests = true := by
  rcases s.complete_cases with ⟨k, e, he⟩ | ⟨k, i, s', b, hi, heff, he⟩
  · obtain rfl := Host.Outcome.next.inj (he.symm.trans hc)
    cases ht
  · obtain rfl := Host.Outcome.next.inj (he.symm.trans hc)
    exact ⟨i, hi, heff.truth ht⟩

/-- A host write that changes an infinity flag is a PINF write to an idle core or a soft reset. -/
theorem HostWrote.pinf_ne {s t : State} {l : Location} {v : Word} {d : PReg} (hw : HostWrote s l v t)
    (hne : t.getPinf d ≠ s.getPinf d) : (s.busy = false ∧ l = .pinf) ∨ (l = .ctrl ∧ v.getLsbD 1 = true) := by
  cases hw with
  | reset hl hv => exact .inr ⟨hl, hv⟩
  | pinf hl hb => exact .inl ⟨hb, hl⟩
  | _ => exact absurd rfl hne

/-- No host write raises TRUE. -/
theorem HostWrote.truth {s t : State} {l : Location} {v : Word} (hw : HostWrote s l v t) (ht : t.truth = true) :
    s.truth = true := by
  cases hw with
  | reset => cases ht
  | accepted => cases ht
  | _ => exact ht

theorem step_pinf_ne {s t : State} {d : PReg} (hstep : step s = .next t) (hne : t.getPinf d ≠ s.getPinf d) :
    (s.Completing ∧ t.busy = false ∧ ∃ i, decode s.lastcmd = .command i ∧ d ∈ i.writesPinf) ∨
    (s.busy = false ∧ ∃ v rest, s.schedule = .write 0x010 4 v :: rest) ∨
    (∃ v rest, s.schedule = .write 0x004 4 v :: rest ∧ v.getLsbD 1 = true) ∨ (∃ rest, s.schedule = .reset :: rest) := by
  rcases step_cases hstep with ⟨_, rfl⟩ | ⟨hs, hc, hb⟩ | ⟨off, _, _, _, _, rfl⟩ | ⟨off, width, v, rest, hsch, hr, rfl⟩ |
    ⟨rest, hsch, _⟩
  · exact absurd rfl hne
  · exact .inl ⟨hs, hb, s.popped.complete_pinf hc hne⟩
  · rw [State.hostRead_eq] at hne
    exact absurd rfl hne
  · obtain ⟨rfl, _⟩ := accessRefusal_eq_none_iff.1 hr
    rcases (s.popped.hostWrite_wrote (locate off) v).pinf_ne hne with ⟨hb, hl⟩ | ⟨hl, hv⟩
    · obtain rfl := locate_eq_pinf.1 hl
      exact .inr (.inl ⟨hb, v, rest, hsch⟩)
    · obtain rfl := locate_eq_ctrl.1 hl
      exact .inr (.inr (.inl ⟨v, rest, hsch, hv⟩))
  · exact .inr (.inr (.inr ⟨rest, hsch⟩))

theorem step_truth_rises {s t : State} (hstep : step s = .next t) (h0 : s.truth = false) (h1 : t.truth = true) :
    s.Completing ∧ t.busy = false ∧ ∃ i, decode s.lastcmd = .command i ∧ i.tests = true := by
  have kept {u : State} (hu : u.truth = true → s.truth = true) (h : u.truth = true) : False := by
    rw [hu h] at h0
    cases h0
  rcases step_cases hstep with ⟨_, rfl⟩ | ⟨hs, hc, hb⟩ | ⟨off, _, _, _, _, rfl⟩ | ⟨off, _, v, _, _, _, rfl⟩ | ⟨_, _, rfl⟩
  · exact (kept id h1).elim
  · exact ⟨hs, hb, s.popped.complete_truth hc h1⟩
  · rw [State.hostRead_eq] at h1
    exact (kept id h1).elim
  · exact (kept (s.popped.hostWrite_wrote (locate off) v).truth h1).elim
  · cases h1

/-- Settles O27: of what a step can do, by the commands that write PINF[i] and those whose result is TRUE. -/
theorem pinfAndTrueWriters : Obligations.PinfAndTrueWriters := by
  intro s t hstep
  refine ⟨fun d hne => ?_, fun h0 h1 => ?_⟩
  · refine (step_pinf_ne hstep hne).imp_left ?_
    rintro ⟨hs, hb, i, hi, hd⟩
    simpa only [hi, Decoded.command.injEq] using ⟨hs, hb, mem_writesPinf_iff.1 hd⟩
  · obtain ⟨hs, hb, i, hi, ht⟩ := step_truth_rises hstep h0 h1
    simpa only [hi, Decoded.command.injEq] using ⟨hs, hb, tests_iff.1 ht⟩

end Sys2Proof.Machine

/-! ## Point and pair registers as views, and the reset values (10_state.md R23, R24, R41) -/

namespace Sys2Proof.Machine

theorem State.point_inf {s : State} {i : PReg} (h : s.getPinf i = true) : s.point i = .inf := if_pos h

theorem State.point_aff {s : State} {i : PReg} (h : s.getPinf i = false) :
    s.point i = .aff (s.xVal (loReg i)) (s.xVal (hiReg i)) := if_neg (by simp [h])

/-- Writing a point is writing a pair and the infinity flag (R23). -/
theorem State.putPoint_inf (s : State) (i : PReg) : s.putPoint i .inf = (s.putPair i 0 0).setPinf i true := rfl
theorem State.putPoint_aff (s : State) (i : PReg) (px py : Nat) :
    s.putPoint i (.aff px py) = (s.putPair i px py).setPinf i false := rfl

@[simp] theorem State.xVal_setPinf (s : State) (i : PReg) (b : Bool) (j : XReg) : (s.setPinf i b).xVal j = s.xVal j := rfl

theorem State.xVal_putPair_lo (s : State) (i : SReg) {r : Nat} (t : Nat) (h : r < 2 ^ 384) :
    (s.putPair i r t).xVal (loReg i) = r := s.pairLo_putPair_self i t h

theorem State.xVal_putPair_hi (s : State) (i : SReg) (r : Nat) {t : Nat} (h : t < 2 ^ 384) :
    (s.putPair i r t).xVal (hiReg i) = t := s.pairHi_putPair_self i r h

/-- A pair written with an infinity flag, as putPoint does, reads back. -/
theorem State.putPair_setPinf_reads (s : State) (i : PReg) {r t : Nat} (hr : r < 2 ^ 384) (ht : t < 2 ^ 384) (b : Bool) :
    ((s.putPair i r t).setPinf i b).xVal (loReg i) = r ∧ ((s.putPair i r t).setPinf i b).xVal (hiReg i) = t ∧
      ((s.putPair i r t).setPinf i b).getPinf i = b := by
  simp only [State.xVal_setPinf, s.xVal_putPair_lo i t hr, s.xVal_putPair_hi i r ht, State.getPinf_setPinf_self, and_self]

/-- Settles O37, by read after write for the two halves and the infinity flag. -/
theorem pointRegisterViews : Obligations.PointRegisterViews := by
  intro s i
  refine ⟨State.point_inf, State.point_aff, ⟨rfl, rfl, rfl, rfl⟩, ?_, fun px py hx hy => ⟨?_, ?_, fun p _ => ⟨?_, ?_⟩⟩⟩
  · have hpos : 0 < 2 ^ 384 := by positivity
    rw [s.putPoint_inf i]
    exact s.putPair_setPinf_reads i hpos hpos true
  · rw [s.putPoint_aff i px py]
    exact s.putPair_setPinf_reads i hx hy false
  · exact ⟨s.xVal_putPair_lo i py hx, s.xVal_putPair_hi i px hy, rfl⟩
  · intro j hl hh
    exact ⟨congrArg BitVec.toNat (s.getX_putPoint_ne p hl hh), congrArg BitVec.toNat (s.getX_putPair_ne px py hl hh)⟩
  · intro j hj
    exact s.getPinf_putPoint_ne p hj

theorem State.reset_getPinf (i : PReg) : State.reset.getPinf i = false := by simp [State.getPinf, State.reset]

theorem State.reset_xVal (i : XReg) : State.reset.xVal i = 0 := by
  rw [State.xVal, State.reset_getX, BitVec.toNat_zero]

theorem State.reset_point (i : PReg) : State.reset.point i = .aff 0 0 := by
  rw [State.point_aff (State.reset_getPinf i), State.reset_xVal, State.reset_xVal]

/-- Settles O21: the operand registers and points by the lemmas on the reset state, the rest by its definition. -/
theorem resetValues : Obligations.ResetValues :=
  ⟨State.reset_getX, rfl, State.reset_point, fun c => by cases c <;> rfl, rfl, rfl, rfl, rfl, rfl, rfl, rfl, rfl, rfl, rfl, rfl, rfl⟩

end Sys2Proof.Machine

/-! ## Frames of the commands that write a point or a pair (10_state.md R23, R24, 30_encoding.md R100) -/

namespace Sys2Proof.Machine

theorem exec_pinf_eq {i : Instr} {s t : State} (hv : i.validates = false) (hp : i.writesPinf = []) (h : exec i s = .next t) :
    t.pinf = s.pinf := by
  obtain ⟨_, hpinf, _⟩ := exec_frame hv h
  exact State.pinf_ext fun j => hpinf j (by simp [hp])

/-- The window reads as before a command that does not validate a curve, outside STATUS, the command's operand registers and, for a
command that writes an infinity flag, PINF. -/
theorem exec_windowWord {i : Instr} {s t : State} (hv : i.validates = false) (h : exec i s = .next t) {off : Nat}
    (h4 : off % 4 = 0) (hs : off ≠ 0x008) (hp : off = 0x010 → i.writesPinf = []) (hx : ∀ j ∈ i.writesX, ¬ inXReg j off) :
    t.windowWord off = s.windowWord off := by
  obtain ⟨hgetX, _, ⟨hcr, _, hclen, hie, hlast, _⟩, _⟩ := exec_frame hv h
  exact State.windowWord_congr h4 hs hie hlast (fun e => exec_pinf_eq hv (hp e) h) (fun _ => hclen)
    (fun j hlo hhi => hgetX j fun hj => hx j hj ⟨hlo, hhi⟩) fun _ => hcr

/-- The commands whose only result is written to x[2d] and x[2d+1], and to the given infinity flags. -/
structure WritesPairOnly (i : Instr) (d : PReg) (flags : List PReg) : Prop where
  x : i.writesX = [loReg d, hiReg d]
  pinf : i.writesPinf = flags
  validates : i.validates = false
  tests : i.tests = false
  drawsEntropy : i.drawsEntropy = false

theorem pointCommand_writesPairOnly {d a b : PReg} {k : XReg} {i : Instr}
    (hi : i ∈ [Instr.padd d a b, .pdbl d a, .pmul d a k, .pldg d, .pubk d k]) : WritesPairOnly i d [d] := by
  simp only [List.mem_cons, List.not_mem_nil, or_false] at hi
  rcases hi with rfl | rfl | rfl | rfl | rfl <;> exact ⟨rfl, rfl, rfl, rfl, rfl⟩

theorem signCommand_writesPairOnly {d : SReg} {a b c : XReg} {i : Instr}
    (hi : i ∈ [Instr.sign d a b, .signk d a b c]) : WritesPairOnly i d [] := by
  simp only [List.mem_cons, List.not_mem_nil, or_false] at hi
  rcases hi with rfl | rfl <;> exact ⟨rfl, rfl, rfl, rfl, rfl⟩

/-- What every such command leaves alone. -/
theorem WritesPairOnly.frame {i : Instr} {d : PReg} {flags : List PReg} {s t : State} (hw : WritesPairOnly i d flags)
    (h : exec i s = .next t) :
    (∀ j, j ≠ loReg d → j ≠ hiReg d → t.getX j = s.getX j) ∧ (∀ j, j ∉ flags → t.getPinf j = s.getPinf j) ∧ s.keepsRest t ∧
      t.truth = false ∧ t.entropy = s.entropy ∧ t.entropyDrawn = s.entropyDrawn := by
  obtain ⟨hgetX, hgetPinf, hrest, htruth, hentropy⟩ := exec_frame hw.validates h
  rw [hw.x] at hgetX
  rw [hw.pinf] at hgetPinf
  exact ⟨fun j hl hh => hgetX j (by simp [hl, hh]), hgetPinf, hrest, htruth hw.tests, hentropy hw.drawsEntropy⟩

theorem WritesPairOnly.windowWord {i : Instr} {d : PReg} {flags : List PReg} {s t : State} (hw : WritesPairOnly i d flags)
    (h : exec i s = .next t) {off : Nat} (h4 : off % 4 = 0) (hs : off ≠ 0x008) (hp : off = 0x010 → flags = [])
    (hlo : ¬ inXReg (loReg d) off) (hhi : ¬ inXReg (hiReg d) off) : t.windowWord off = s.windowWord off := by
  refine exec_windowWord hw.validates h h4 hs (fun e => hw.pinf.trans (hp e)) fun j hj => ?_
  rw [hw.x] at hj
  rcases List.mem_pair.1 hj with rfl | rfl
  · exact hlo
  · exact hhi

/-- Settles O57: these commands write the two halves of p[D] and its infinity flag. -/
theorem pointFrame : Obligations.PointFrame := by
  intro d a b k s t i hi h
  have hw := pointCommand_writesPairOnly hi
  obtain ⟨hgetX, hgetPinf, hrest, htruth, hentropy, hdrawn⟩ := hw.frame h
  refine ⟨hgetX, fun j hj => hgetPinf j (by simpa using hj), hrest, htruth, hentropy, hdrawn, ?_⟩
  intro off h4 _ hs hp hlo hhi
  exact hw.windowWord h h4 hs (fun e => absurd e hp) hlo hhi

/-- Settles O58: SIGN and SIGNK write the two halves of s[D] and no infinity flag. -/
theorem signatureFrame : Obligations.SignatureFrame := by
  intro d a b c s t i hi h
  have hw := signCommand_writesPairOnly hi
  obtain ⟨hgetX, hgetPinf, hrest, htruth, hentropy, hdrawn⟩ := hw.frame h
  refine ⟨hgetX, State.pinf_ext fun j => hgetPinf j List.not_mem_nil, hrest, htruth, hentropy, hdrawn, ?_⟩
  intro off h4 _ hs hlo hhi
  exact hw.windowWord h h4 hs (fun _ => rfl) hlo hhi

end Sys2Proof.Machine

/-! ## The register window: which accesses are served, and what each reads and writes (10_state.md, 20_memory.md) -/

namespace Sys2Proof.Machine

/-! ### Service and refusal (R51) -/

theorem stepOn_read_refused (s : State) {off width : Nat} {r : Refusal} (h : accessRefusal off width = some r) :
    stepOn (.read off width) s = .refused r := by
  simp only [stepOn_eq, State.take, State.memRead, h]

theorem stepOn_write_refused (s : State) {off width : Nat} {r : Refusal} (v : Word) (h : accessRefusal off width = some r) :
    stepOn (.write off width v) s = .refused r := by
  simp only [stepOn_eq, State.take, State.memWrite, h]

/-- Settles O23: an access is served iff it has no reason to be refused. -/
theorem accessesRefused : Obligations.AccessesRefused := by
  intro s off width v
  refine ⟨fun hbad => ?_, ?_⟩
  · have hrefusal : accessRefusal off width ≠ none := by
      rw [Ne, accessRefusal_eq_none_iff]
      omega
    obtain ⟨r, hr⟩ := Option.ne_none_iff_exists'.1 hrefusal
    exact ⟨⟨r, stepOn_read_refused s hr⟩, r, stepOn_write_refused s v hr⟩
  · rintro rfl h4 hoff
    have hlt : off < 0x1000 := by omega
    exact ⟨⟨_, stepOn_read s h4 hlt⟩, _, stepOn_write s v h4 hlt⟩

/-! ### Reads (R60, R272) -/

/-- By the map's branches: the offsets whose read is unspecified while BUSY = 1: PINF, CLEN and words 0..11 of every slot. -/
theorem locate_busyUnspecified_iff (off : Nat) : (locate off).busyUnspecified = true ↔
    off = 0x010 ∨ off = 0x014 ∨ (0x100 ≤ off ∧ off < 0x680 ∧ off % 0x40 < 0x30) := by
  by_cases hdata : 0x100 ≤ off
  · rw [locate_data hdata]
    split_ifs <;> simp only [Location.busyUnspecified, Bool.false_eq_true, true_iff, false_iff] <;> omega
  · have hx : ¬ (0x100 ≤ off ∧ off < 0x500) := by omega
    have hcr : ¬ (0x500 ≤ off ∧ off < 0x680) := by omega
    rw [locate, if_neg hx, if_neg hcr]
    split_ifs <;> simp only [Location.busyUnspecified, Bool.false_eq_true, true_iff, false_iff] <;> omega

/-- A read that the spec defines returns the word at the offset. -/
theorem stepOn_read_word {s : State} {off : Nat} (h4 : off % 4 = 0) (hlt : off < 0x1000)
    (hdef : s.busy = false ∨ (locate off).busyUnspecified = false) :
    stepOn (.read off 4) s = .next { s with rdata := s.windowWord off } := by
  rw [stepOn_read s h4 hlt, State.hostRead_word hdef, State.windowWord]

/-- Settles O15, by which offsets hold an unspecified word while busy. -/
theorem readsHaveNoSideEffects : Obligations.ReadsHaveNoSideEffects := by
  intro s off h4 hlt
  rw [← locate_busyUnspecified_iff off]
  refine ⟨fun ⟨hbusy, hfree⟩ => ?_, fun hdef => ?_⟩
  · rw [stepOn_read s h4 hlt, State.hostRead_free hbusy hfree]
  · rw [not_and_or, Bool.not_eq_true, Bool.not_eq_true] at hdef
    exact stepOn_read_word h4 hlt hdef

/-! ### The operand and curve registers while idle (R55, R57) -/

/-- Bit k of word j is bit 32j + k of the register (R55). -/
theorem getLsbD_getWord (r : Reg) (j : Fin 12) {k : Nat} (hk : k < 32) :
    (getWord r j).getLsbD k = r.getLsbD (32 * j.val + k) := by
  simp [getWord, hk]

theorem xOffset_served (i : XReg) (j : Fin 12) : xOffset i j % 4 = 0 ∧ xOffset i j < 0x1000 := by
  unfold xOffset
  omega

theorem crOffset_served (c : CurveReg) (j : Fin 12) : crOffset c j % 4 = 0 ∧ crOffset c j < 0x1000 := by
  have hc := c.slot_lt
  unfold crOffset
  omega

section
variable {s : State} (hidle : s.busy = false)
include hidle

/-- Words 12..15 of a slot are RAZ/WI (R55, R59). -/
theorem stepOn_slotReserved {off : Nat} (v : Word) (h4 : off % 4 = 0) (hlo : 0x100 ≤ off) (hhi : off < 0x680)
    (hword : 12 ≤ off % 0x40 / 4) :
    stepOn (.read off 4) s = .next { s with rdata := 0#32 } ∧ stepOn (.write off 4 v) s = .next s := by
  have hloc := locate_slotReserved hlo hhi hword
  have hlt : off < 0x1000 := by omega
  rw [stepOn_read_word h4 hlt (.inl hidle), stepOn_write s v h4 hlt, State.windowWord, hloc, State.hostWrite_slotReserved v hidle]
  exact ⟨rfl, rfl⟩

theorem stepOn_read_xOffset (i : XReg) (j : Fin 12) :
    stepOn (.read (xOffset i j) 4) s = .next { s with rdata := getWord (s.getX i) j } := by
  obtain ⟨h4, hlt⟩ := xOffset_served i j
  rw [stepOn_read_word h4 hlt (.inl hidle), State.windowWord, locate_xOffset, State.wordAt]

theorem stepOn_write_xOffset (i : XReg) (j : Fin 12) (v : Word) :
    stepOn (.write (xOffset i j) 4 v) s = .next (s.writeX i j v) := by
  obtain ⟨h4, hlt⟩ := xOffset_served i j
  rw [stepOn_write s v h4 hlt, locate_xOffset, State.hostWrite_xWord i j v hidle]

theorem stepOn_read_crOffset (c : CurveReg) (j : Fin 12) :
    stepOn (.read (crOffset c j) 4) s = .next { s with rdata := getWord (s.cr.get c) j } := by
  obtain ⟨h4, hlt⟩ := crOffset_served c j
  rw [stepOn_read_word h4 hlt (.inl hidle), State.windowWord, locate_crOffset, State.wordAt]

theorem stepOn_write_crOffset (c : CurveReg) (j : Fin 12) (v : Word) :
    stepOn (.write (crOffset c j) 4 v) s = .next (s.writeCurve c j v) := by
  obtain ⟨h4, hlt⟩ := crOffset_served c j
  rw [stepOn_write s v h4 hlt, locate_crOffset, State.hostWrite_crWord c j v hidle]

end

/-- Settles O16: words 0..11 by where the map puts them, words 12..15 as reserved words of a slot. -/
theorem operandRegisterWindow : Obligations.OperandRegisterWindow := by
  intro s i j v hidle hj
  refine ⟨fun hword => ?_, fun hres => stepOn_slotReserved hidle v (by omega) (by omega) (by omega) (by omega)⟩
  obtain ⟨w, rfl⟩ : ∃ w : Fin 12, w.val = j := ⟨⟨j, hword⟩, rfl⟩
  exact ⟨⟨getWord (s.getX i) w, stepOn_read_xOffset hidle i w, fun k hk => getLsbD_getWord _ w hk⟩,
    setWord (s.getX i) w v, stepOn_write_xOffset hidle i w v, fun k _ => getLsbD_setWord _ w v k⟩

/-- Settles O17, as for the operand registers. -/
theorem curveRegisterWindow : Obligations.CurveRegisterWindow := by
  intro s c j v hidle hj
  have hc := c.slot_lt
  refine ⟨fun hword => ?_, fun hres => stepOn_slotReserved hidle v (by omega) (by omega) (by omega) (by omega)⟩
  obtain ⟨w, rfl⟩ : ∃ w : Fin 12, w.val = j := ⟨⟨j, hword⟩, rfl⟩
  exact ⟨⟨getWord (s.cr.get c) w, stepOn_read_crOffset hidle c w, fun k hk => getLsbD_getWord _ w hk⟩,
    setWord (s.cr.get c) w v, stepOn_write_crOffset hidle c w v, fun k _ => getLsbD_setWord _ w v k⟩

/-! ### The control registers (R31 to R36, R59, R61) -/

theorem State.toNat_ctrlWord (s : State) : s.ctrlWord.toNat = s.ie.toNat := by
  rw [State.ctrlWord, toNat_append_flagBit]
  simp

theorem State.toNat_pinfWord (s : State) : s.pinfWord.toNat = s.pinf.toNat := by
  rw [State.pinfWord, BitVec.toNat_append]
  simp

theorem State.toNat_clenWord (s : State) : s.clenWord.toNat = s.clen.toNat := by
  rw [State.clenWord, BitVec.toNat_append]
  simp

/-- STATUS as a sum of its fields: the six flags below two zero bits, ERRCODE above them (R33). -/
theorem State.toNat_statusWord (s : State) : s.statusWord.toNat =
    s.busy.toNat + 2 * s.done.toNat + 4 * s.err.toNat + 8 * s.truth.toNat + 16 * s.cv.toNat + 32 * s.busywr.toNat +
      256 * s.errcode.toNat := by
  have hcode : (0#16 ++ s.errcode ++ 0#2).toNat = 4 * s.errcode.toNat := by
    rw [BitVec.toNat_append, BitVec.toNat_append]
    simp [Nat.shiftLeft_eq, Nat.mul_comm]
  simp only [State.statusWord, toNat_append_flagBit, hcode]
  omega

/-- A read that the spec defines reads as the number its word is. -/
theorem State.readsAs_of_toNat {s : State} {off n : Nat} (h4 : off % 4 = 0) (hlt : off < 0x1000)
    (hdef : s.busy = false ∨ (locate off).busyUnspecified = false) (hn : (s.windowWord off).toNat = n) : s.readsAs off n := by
  subst hn
  refine ⟨?_, (s.windowWord off).isLt⟩
  rw [stepOn_read_word h4 hlt hdef, BitVec.ofNat_toNat, BitVec.setWidth_eq]

theorem State.readsAs_reserved (s : State) {off : Nat} (h4 : off % 4 = 0)
    (h : (0x018 ≤ off ∧ off < 0x100) ∨ (0x680 ≤ off ∧ off < 0x1000)) : s.readsAs off 0 := by
  have hloc : locate off = .reserved := locate_reserved h4 (by omega)
  exact State.readsAs_of_toNat h4 (by omega) (.inr (by rw [hloc]; rfl)) (by rw [State.windowWord, hloc]; rfl)

/-- Settles O18, by the number each control word is. -/
theorem controlRegisterReads : Obligations.ControlRegisterReads := by
  intro s
  refine ⟨?_, ?_, ?_, ?_, fun hidle => ⟨?_, ?_⟩, fun off h4 h => s.readsAs_reserved h4 h⟩
  · exact State.readsAs_of_toNat rfl (by omega) (.inr rfl) rfl
  · exact State.readsAs_of_toNat rfl (by omega) (.inr rfl) s.toNat_ctrlWord
  · exact State.readsAs_of_toNat rfl (by omega) (.inr rfl) s.toNat_statusWord
  · exact State.readsAs_of_toNat rfl (by omega) (.inr rfl) rfl
  · exact State.readsAs_of_toNat rfl (by omega) (.inl hidle) s.toNat_pinfWord
  · exact State.readsAs_of_toNat rfl (by omega) (.inl hidle) s.toNat_clenWord

/-- ID, CLEN and the reserved offsets ignore writes, busy or idle. -/
theorem stepOn_write_ignored (s : State) {off : Nat} (v : Word) (h4 : off % 4 = 0)
    (h : off = 0x000 ∨ off = 0x014 ∨ (0x018 ≤ off ∧ off < 0x100) ∨ (0x680 ≤ off ∧ off < 0x1000)) :
    stepOn (.write off 4 v) s = .next s := by
  rw [stepOn_write s v h4 (by omega)]
  rcases h with rfl | rfl | h
  · exact congrArg _ (s.hostWrite_id v)
  · exact congrArg _ (s.hostWrite_clen v)
  · rw [locate_reserved h4 (by omega), State.hostWrite_reserved]

/-- Settles O19, location by location. -/
theorem controlRegisterWrites : Obligations.ControlRegisterWrites := by
  intro s v
  refine ⟨fun hsrst => ?_, ?_, fun hidle => ?_, fun off h4 h => stepOn_write_ignored s v h4 h⟩
  · calc stepOn (.write 0x004 4 v) s = .next (s.hostWrite .ctrl v) := stepOn_write s v rfl (by omega)
      _ = .next { s with ie := v.getLsbD 0 } := by rw [State.hostWrite_ctrl, s.writeCtrl_ie hsrst]
  · calc stepOn (.write 0x008 4 v) s = .next (s.hostWrite .status v) := stepOn_write s v rfl (by omega)
      _ = .next (s.writeStatus v) := by rw [State.hostWrite_status]
  · have hlow : v.extractLsb' 0 8 = v.setWidth 8 := rfl
    calc stepOn (.write 0x010 4 v) s = .next (s.hostWrite .pinf v) := stepOn_write s v rfl (by omega)
      _ = .next { s with pinf := v.setWidth 8 } := by rw [State.hostWrite_pinf v hidle, State.writePinf, hlow]

end Sys2Proof.Machine

/-! ## The encoder and the decoder (30_encoding.md R81 to R90) -/

namespace Sys2Proof

open Laws

/-! ### Well-formed words -/

/-- A command's fields are legal for its opcode: constructor by constructor (R82, R83). -/
theorem Instr.wellFormed_fields : ∀ i : Instr, i.fields.wellFormed i.opcode = true
  | .nop => FieldsLegal.nop
  | .madd d a b m => FieldsLegal.madd d a b m
  | .msub d a b m => FieldsLegal.msub d a b m
  | .mmul d a b m => FieldsLegal.mmul d a b m
  | .mmont d a b m => FieldsLegal.mmont d a b m
  | .minv d a m => FieldsLegal.minv d a m
  | .mred d a m => FieldsLegal.mred d a m
  | .mrr d m => FieldsLegal.mrr d m
  | .padd d a b => FieldsLegal.padd d a b
  | .pdbl d a => FieldsLegal.pdbl d a
  | .pmul d a b => FieldsLegal.pmul d a b
  | .pchk a => FieldsLegal.pchk a
  | .pldg d => FieldsLegal.pldg d
  | .pubk d a => FieldsLegal.pubk d a
  | .rand d => FieldsLegal.rand d
  | .nonce d a b => FieldsLegal.nonce d a b
  | .sign d a b => FieldsLegal.sign d a b
  | .signk d a b c => FieldsLegal.signk d a b c
  | .verify a b c => FieldsLegal.verify a b c
  | .cset => FieldsLegal.cset
  | .cload k => FieldsLegal.cload k

theorem Fields.ofWord_encode (i : Instr) : Fields.ofWord (encode i) = i.fields := i.fields.ofWord_toWord

/-- A word that matches a row of R88's table has the row's OP: the mask covers the OP field. -/
theorem op_of_and_mask {o : Opcode} {w : Word} (h : w &&& o.maskMatch.mask = o.maskMatch.value) :
    w.extractLsb' 0 8 = o.code := by
  rw [Opcode.mask_eq, Opcode.value_eq] at h
  have hfields := congrArg Fields.ofWord h
  rw [Fields.ofWord_and, Fields.ofWord_toWord, Fields.ofWord_toWord] at hfields
  have hop : w.extractLsb' 0 8 &&& 0xFF#8 = o.code := congrArg Fields.op hfields
  exact BitVec.and_allOnes.symm.trans hop

theorem Opcode.matches_iff_and_mask {o : Opcode} {w : Word} : o.matches w = true ↔
    (w &&& o.maskMatch.mask = o.maskMatch.value ∧ (o = .cload → (w.extractLsb' 8 4).toNat ≤ 2)) := by
  rw [Opcode.matches, Bool.and_eq_true, beq_iff_eq]
  by_cases hc : o = .cload <;> simp [hc]

/-- R88's words say the same as the decoder's check: the OP is the opcode's, and the fields are well-formed for it. -/
theorem Opcode.matches_iff_wellFormed {o : Opcode} {w : Word} : o.matches w = true ↔
    (w.extractLsb' 0 8 = o.code ∧ (Fields.ofWord w).wellFormed o = true) := by
  rw [Opcode.matches_iff_and_mask]
  constructor
  · intro h
    have hop := op_of_and_mask h.1
    exact ⟨hop, (o.match_iff_wellFormed w hop).1 h⟩
  · rintro ⟨hop, hwf⟩
    exact (o.match_iff_wellFormed w hop).2 hwf

/-! ### The decoder inverts the encoder -/

theorem decode_encode (i : Instr) : decode (encode i) = .command i := by
  simp [decode, Fields.ofWord_encode, Instr.wellFormed_fields]

theorem encode_of_decode {w : Word} {i : Instr} (h : decode w = .command i) : encode i = w := by
  rcases decode_cases w with ⟨o, ho, hwf, hd⟩ | ⟨_, hd⟩ | ⟨_, _, _, hd⟩
  · obtain rfl : (Fields.ofWord w).toInstr o = i := Decoded.command.inj (hd.symm.trans h)
    rw [encode, Fields.fields_toInstr (Opcode.code_of_ofCode ho) hwf, Fields.toWord_ofWord]
  · rw [hd] at h
    cases h
  · rw [hd] at h
    cases h

/-- A word is a command's exactly when it is the word the encoder writes. -/
theorem decode_eq_command_iff {w : Word} {i : Instr} : decode w = .command i ↔ encode i = w :=
  ⟨encode_of_decode, fun h => h ▸ decode_encode i⟩

theorem matches_encode (i : Instr) : i.opcode.matches (encode i) = true := by
  refine Opcode.matches_iff_wellFormed.2 ⟨?_, ?_⟩
  · exact (congrArg Fields.op (Fields.ofWord_encode i)).trans i.fields_op
  · rw [Fields.ofWord_encode]
    exact i.wellFormed_fields

/-- A word is well-formed for an opcode exactly when it decodes to a command of that opcode (R88, R90). -/
theorem Opcode.matches_iff_decode {o : Opcode} {w : Word} :
    o.matches w = true ↔ ∃ i, decode w = .command i ∧ i.opcode = o := by
  constructor
  · intro h
    obtain ⟨hop, hwf⟩ := Opcode.matches_iff_wellFormed.1 h
    have hcode : Opcode.ofCode (Fields.ofWord w).op = some o := (congrArg Opcode.ofCode hop).trans o.ofCode_code
    exact ⟨(Fields.ofWord w).toInstr o, by simp [decode, hcode, hwf], Fields.opcode_toInstr _ o⟩
  · rintro ⟨i, hd, rfl⟩
    rw [← encode_of_decode hd]
    exact matches_encode i

theorem Opcode.matches_eq_false {w : Word} (h : ∀ i, decode w ≠ .command i) (o : Opcode) : o.matches w = false := by
  rw [← Bool.not_eq_true, Opcode.matches_iff_decode]
  rintro ⟨i, hd, _⟩
  exact h i hd

/-- Settles O1: a command's own fields are legal for its opcode, and the decoder reads back the fields the encoder writes. -/
theorem decodeEncodeRoundTrip : Obligations.DecodeEncodeRoundTrip :=
  fun i => ⟨matches_encode i, decode_encode i⟩

/-- Settles O2: legal fields are those of the command they name, so the encoder writes every bit of the word again. -/
theorem encodeDecodeRoundTrip : Obligations.EncodeDecodeRoundTrip :=
  fun _ _ h => encode_of_decode h

/-! ### The mask and match table -/

/-- R88's table is the model's, row by row. -/
theorem tableR88_eq : tableR88 = Opcode.all.map fun o => (o, o.maskMatch.value, o.maskMatch.mask) := rfl

theorem mem_tableR88_iff {o : Opcode} {v m : Word} : (o, v, m) ∈ tableR88 ↔ v = o.maskMatch.value ∧ m = o.maskMatch.mask := by
  rw [tableR88_eq, List.mem_map]
  constructor
  · rintro ⟨o', _, h⟩
    cases h
    exact ⟨rfl, rfl⟩
  · rintro ⟨rfl, rfl⟩
    exact ⟨o, o.mem_all, rfl⟩

theorem Opcode.maskMatch_value (o : Opcode) : o.maskMatch.value = o.code.setWidth 32 := by cases o <;> rfl

/-- Settles O3: the table's rows are the model's, and a word matches a row exactly when it decodes to a command of the opcode. -/
theorem maskMatchDecides : Obligations.MaskMatchDecides := by
  intro o
  refine ⟨o.maskMatch.value, o.maskMatch.mask, mem_tableR88_iff.2 ⟨rfl, rfl⟩, fun _ _ h => mem_tableR88_iff.1 h,
    o.maskMatch_value, o.mask_eq, fun w _ => ?_⟩
  rw [← Opcode.matches_iff_decode, Opcode.matches_iff_and_mask]

/-- Settles O4: by what the decoder answers; a word of two opcodes decodes to one command, which has one opcode. -/
theorem decoderTotalAndDisjoint : Obligations.DecoderTotalAndDisjoint := by
  refine ⟨fun w => ?_, fun w o o' h h' => ?_⟩
  · cases hd : decode w with
    | command i => exact .inl ⟨i, rfl, Opcode.matches_iff_decode.2 ⟨i, hd, rfl⟩⟩
    | illegalOpcode => exact .inr (.inl ⟨rfl, Opcode.matches_eq_false (by simp [hd])⟩)
    | illegalOperand => exact .inr (.inr ⟨rfl, Opcode.matches_eq_false (by simp [hd])⟩)
  · obtain ⟨i, hd, rfl⟩ := Opcode.matches_iff_decode.1 h
    obtain ⟨i', hd', rfl⟩ := Opcode.matches_iff_decode.1 h'
    obtain rfl : i = i' := Decoded.command.inj (hd.symm.trans hd')
    rfl

/-! ### Illegal words -/

/-- R87's list holds exactly the OP values that no opcode has. -/
theorem reservedOp_iff (v : BitVec 8) : reservedOp v.toNat ↔ Opcode.ofCode v = none := by
  unfold reservedOp
  revert v
  decide

theorem decode_eq_illegalOpcode_iff {w : Word} : decode w = .illegalOpcode ↔ reservedOp (w.extractLsb' 0 8).toNat := by
  have hop : w.extractLsb' 0 8 = (Fields.ofWord w).op := rfl
  rw [reservedOp_iff, hop]
  rcases decode_cases w with ⟨o, ho, _, hd⟩ | ⟨ho, hd⟩ | ⟨o, ho, _, hd⟩ <;> simp [ho, hd]

theorem decode_eq_illegalOperand {w : Word} (hop : ¬ reservedOp (w.extractLsb' 0 8).toNat)
    (hm : ∀ o : Opcode, o.matches w = false) : decode w = .illegalOperand := by
  cases hd : decode w with
  | command i => exact absurd (Opcode.matches_iff_decode.2 ⟨i, hd, rfl⟩) (by simp [hm])
  | illegalOpcode => exact absurd (decode_eq_illegalOpcode_iff.1 hd) hop
  | illegalOperand => rfl

/-- Settles O6: ten words are those the encoder writes, and the fields of the last two are illegal. -/
theorem specWordsDecode : Obligations.SpecWordsDecode := by
  refine ⟨?_, ?_, ?_, ?_, ?_, ?_, ?_, ?_, ?_, ?_, by decide, decode_eq_illegalOpcode_iff.2 (.inl (by decide))⟩ <;>
    exact decode_eq_command_iff.2 rfl

end Sys2Proof

/-! ## The life of a command: acceptance, host accesses while it is in flight, completion, reset (30_encoding.md R95 to R99) -/

namespace Sys2Proof.Machine

/-! ### Acceptance and the core's turn -/

/-- Settles O7: a CMD write is accepted while idle and lost while busy. -/
theorem cmdWriteIsAccepted : Obligations.CmdWriteIsAccepted := by
  intro s w
  have hwrite : stepOn (.write 0x00C 4 w) s = .next (s.hostWrite .cmd w) := stepOn_write s w rfl (by omega)
  refine ⟨fun hidle => ?_, fun hbusy => ?_⟩
  · rw [hwrite, State.hostWrite_cmd w hidle, State.accept]
  · rw [hwrite, State.hostWrite_locked w hbusy rfl, State.lostWrite]

theorem step_eq_stepOn_complete {s : State} (hs : s.schedule = []) : step s = stepOn .complete s := step_nil hs

theorem step_cons {s : State} {e : Event} {rest : List Event} (hs : s.schedule = e :: rest) : step s = s.popped.take e := by
  simp only [step, hs, State.popped, List.tail_cons]

/-- withFetchWord is the acceptance of a word with the core's turn due. -/
theorem step_withFetchWord (s : State) (w : Word) : step (s.withFetchWord 32 w.toNat) = stepOn .complete (s.accept w) := by
  have hw : w.toNat % Nat.pow 2 32 = w.toNat := Nat.mod_eq_of_lt w.isLt
  rw [State.withFetchWord, hw, BitVec.ofNat_toNat, BitVec.setWidth_eq]
  rfl

theorem stepOn_complete_command {s : State} {i : Instr} (hbusy : s.busy = true) (hi : decode s.lastcmd = .command i) :
    stepOn .complete s = exec i s := by
  rw [stepOn_complete hbusy, State.complete_command hi]

/-- Settles O8: the core's turn of a busy core, whichever way the turn comes. -/
theorem stepRunsDecodedCommand : Obligations.StepRunsDecodedCommand := by
  intro s i
  refine ⟨fun hbusy hi => ?_, fun w hi => ?_⟩
  · have hturn := stepOn_complete_command hbusy hi
    exact ⟨hturn, fun hs => (step_eq_stepOn_complete hs).trans hturn⟩
  · rw [step_withFetchWord, stepOn_complete_command (s.accept_busy w) hi, State.accept]

/-- Settles O5: a word that decodes to no command is rejected with its decode error. -/
theorem illegalWordsFail : Obligations.IllegalWordsFail := by
  rintro s w hbusy rfl
  rw [stepOn_complete hbusy]
  exact ⟨fun hop => State.complete_illegalOpcode (decode_eq_illegalOpcode_iff.2 hop),
    fun hop hm => State.complete_illegalOperand (decode_eq_illegalOperand hop hm)⟩

/-! ### Completion -/

theorem State.complete_schedule {s t : State} (h : s.complete = .next t) : t.schedule = s.schedule := by
  rcases s.complete_cases with ⟨k, e, he⟩ | ⟨k, i, s', b, _, heff, he⟩
  · obtain rfl := Host.Outcome.next.inj (he.symm.trans h)
    rfl
  · obtain rfl := Host.Outcome.next.inj (he.symm.trans h)
    exact heff.schedule

/-- Every completion sets DONE, with one success or one error, never both (R99, 60_exceptions.md R230). -/
theorem State.complete_flags {s t : State} (h : s.complete = .next t) :
    t.done = true ∧ ((t.err = false ∧ t.errcode = 0#8) ∨ (t.err = true ∧ t.errcode ≠ 0#8 ∧ t.truth = false)) := by
  rcases s.complete_cases with ⟨k, e, he⟩ | ⟨k, i, s', b, _, _, he⟩
  · obtain rfl := Host.Outcome.next.inj (he.symm.trans h)
    exact ⟨rfl, .inr ⟨rfl, e.code_ne_zero, rfl⟩⟩
  · obtain rfl := Host.Outcome.next.inj (he.symm.trans h)
    exact ⟨rfl, .inl ⟨rfl, rfl⟩⟩

/-- Settles O9: the completion step always answers a next state, and leaves an idle core and the schedule it found. -/
theorem everyCommandCompletes : Obligations.EveryCommandCompletes := by
  intro s hbusy
  obtain ⟨t, ht⟩ := s.complete_next
  have hturn : stepOn .complete s = .next t := (stepOn_complete hbusy).trans ht
  have hidle := State.complete_busy ht
  have hagain : stepOn .complete t = .next t := stepOn_complete_idle hidle
  obtain ⟨hdone, herr⟩ := State.complete_flags ht
  refine ⟨t, hturn, hidle, hdone, herr, hagain, fun hs => ?_⟩
  have hover : t.schedule = [] := (State.complete_schedule ht).trans hs
  exact ⟨(step_eq_stepOn_complete hs).trans hturn, ⟨hover, hidle⟩, (step_eq_stepOn_complete hover).trans hagain⟩

/-! ### What the host does while a command is in flight (R97, 70_reset_and_hazards.md R271, R272) -/

/-- t is s but for the fields that a host access may change while a command is in flight, and the schedule. -/
def State.SameInFlight (s t : State) : Prop := t = t.outsideBusy s

theorem State.SameInFlight.busy {s t : State} (h : s.SameInFlight t) : t.busy = s.busy :=
  (congrArg State.busy h : t.busy = (t.outsideBusy s).busy)

theorem State.SameInFlight.trans {s t u : State} (hst : s.SameInFlight t) (htu : t.SameInFlight u) : s.SameInFlight u :=
  calc u = u.outsideBusy t := htu
    _ = u.outsideBusy (t.outsideBusy s) := congrArg u.outsideBusy hst
    _ = u.outsideBusy s := rfl

theorem State.hostRead_sameInFlight (s : State) (l : Location) : s.SameInFlight (s.hostRead l) := by
  rw [s.hostRead_eq]
  rfl

theorem HostWrote.schedule {s t : State} {l : Location} {v : Word} (hw : HostWrote s l v t) : t.schedule = s.schedule := by
  cases hw <;> rfl

/-- A host write while busy, but a soft reset: it is lost or ignored, or it writes CTRL.IE or STATUS. -/
theorem HostWrote.sameInFlight {s t : State} {l : Location} {v : Word} (hw : HostWrote s l v t) (hbusy : s.busy = true)
    (hsrst : l = .ctrl → v.getLsbD 1 = false) : s.SameInFlight t := by
  have notIdle (h : s.busy = false) : False := nomatch hbusy.symm.trans h
  cases hw with
  | lost => rfl
  | ignored => rfl
  | reset hl hv => nomatch hv.symm.trans (hsrst hl)
  | ie => rfl
  | status => rfl
  | accepted _ hb => exact (notIdle hb).elim
  | pinf _ hb => exact (notIdle hb).elim
  | operand _ _ _ hb => exact (notIdle hb).elim
  | curve _ _ _ hb => exact (notIdle hb).elim

/-- A spectator's access is served and leaves the command in flight, and the events still to come, alone. -/
theorem State.take_spectator {s : State} {e : Event} (hbusy : s.busy = true) (he : e.spectator = true) :
    ∃ t, s.take e = .next t ∧ s.SameInFlight t ∧ t.schedule = s.schedule := by
  cases e with
  | read off width =>
    have hserved : accessRefusal off width = none := Option.isNone_iff_eq_none.1 he
    refine ⟨s.hostRead (locate off), by simp only [State.take, State.memRead, hserved], s.hostRead_sameInFlight _, ?_⟩
    rw [s.hostRead_eq]
  | write off width v =>
    simp only [Event.spectator, Bool.and_eq_true, Option.isNone_iff_eq_none] at he
    obtain ⟨hserved, hsrst⟩ := he
    have hw := s.hostWrite_wrote (locate off) v
    refine ⟨s.hostWrite (locate off) v, by simp only [State.take, State.memWrite, hserved], hw.sameInFlight hbusy ?_, ?_⟩
    · intro hl
      simpa [locate_eq_ctrl.1 hl] using hsrst
    · exact hw.schedule
  | reset => cases he
  | complete => cases he
  | nonCoherentAccess => cases he

/-- A run through a list of spectators' accesses comes out with the same command in flight. -/
theorem core_run_spectators {s : State} (hbusy : s.busy = true) (rest : List Event) (k : Nat) :
    ∀ accesses : List Event, (∀ e ∈ accesses, e.spectator = true) → s.schedule = accesses ++ rest →
    ∃ t, Host.Core.run Sys2Proof.core (accesses.length + k) s = Host.Core.run Sys2Proof.core k t ∧ s.SameInFlight t ∧
      t.schedule = rest := by
  intro accesses
  induction accesses generalizing s with
  | nil => exact fun _ hs => ⟨s, by rw [List.length_nil, Nat.zero_add], rfl, hs⟩
  | cons e es ih =>
    intro hspec hs
    obtain ⟨u, hu, hsame, husched⟩ := State.take_spectator (s := s.popped) hbusy (hspec e List.mem_cons_self)
    have hpop : s.popped.schedule = es ++ rest := by simp [State.popped, hs]
    have hstep : step s = .next u := (step_cons hs).trans hu
    have hsu : s.SameInFlight u := hsame -- taking an event off the schedule is outside what is compared
    obtain ⟨t, hrun, hut, htsched⟩ := ih (hsu.busy.trans hbusy) (fun e' he' => hspec e' (List.mem_cons_of_mem e he'))
      (husched.trans hpop)
    refine ⟨t, ?_, hsu.trans hut, htsched⟩
    rw [List.length_cons, Nat.add_right_comm, core_run_next hstep, hrun]

/-- The completion of a word does not depend on what a command in flight does not read (R97). -/
theorem State.complete_outsideBusy (o s : State) : (o.outsideBusy s).complete = mapNext o.outside s.complete := by
  have hlast : (o.outsideBusy s).lastcmd = s.lastcmd := rfl
  cases hd : decode s.lastcmd with
  | command i => rw [State.complete_command hd, State.complete_command (hlast ▸ hd), exec_outsideBusy]
  | illegalOpcode =>
    rw [State.complete_illegalOpcode hd, State.complete_illegalOpcode (hlast ▸ hd)]
    rfl
  | illegalOperand =>
    rw [State.complete_illegalOperand hd, State.complete_illegalOperand (hlast ▸ hd)]
    rfl

/-- Settles O13: the accesses leave the command in flight alone, by induction over their list, and its completion does not read what
they change. -/
theorem outcomeIsThatOfAcceptance : Obligations.OutcomeIsThatOfAcceptance := by
  intro s accesses hbusy hspec
  obtain ⟨u, hu⟩ := s.complete_next
  obtain ⟨r, hrun, hsame, hsched⟩ := core_run_spectators (s := { s with schedule := accesses ++ .complete :: s.schedule }) hbusy
    (.complete :: s.schedule) 1 accesses hspec rfl
  have hpop : r.popped = r.popped.outsideBusy s := congrArg State.popped hsame
  have hr : r.popped.complete = .next (r.popped.outside u) := by
    rw [hpop, State.complete_outsideBusy, hu]
    rfl
  have hstep : step r = .next (r.popped.outside u) := by
    rw [step_cons hsched]
    exact (stepOn_complete (s := r.popped) (hsame.busy.trans hbusy)).trans hr
  refine ⟨r.popped.outside u, u, ?_, (stepOn_complete hbusy).trans hu, ?_⟩
  · rw [hrun, core_run_next hstep, core_run_zero]
  · have hkept : r.popped.schedule = u.schedule := by
      simp [State.complete_schedule hu, State.popped, hsched]
    rw [State.outside, hkept]

/-! ### Reset -/

/-- Settles O20: a soft reset and the reset input are the one reset, which leaves an idle core. -/
theorem softResetIsReset : Obligations.SoftResetIsReset := by
  intro s v
  have hwrite : stepOn (.write 0x004 4 v) s = .next (s.writeCtrl v) := by
    rw [← s.hostWrite_ctrl v]
    exact stepOn_write s v rfl (by omega)
  refine ⟨fun hsrst => ⟨s.coreReset, ?_, rfl, rfl, stepOn_complete_idle s.coreReset_busy⟩, fun hsrst => ?_, ?_⟩
  · rw [hwrite, s.writeCtrl_reset hsrst]
  · rw [hwrite, s.writeCtrl_ie hsrst]
  · have hword : s.windowWord 0x004 = s.ctrlWord := rfl
    rw [hword, BitVec.getLsbD, s.toNat_ctrlWord]
    cases s.ie <;> rfl

end Sys2Proof.Machine

/-! ## Identities of the modular arithmetic (41_field.md R130 to R141) -/

namespace Sys2Proof.Machine

/-! ### In the integers -/

/-- A sum less one summand is the other (R141). -/
theorem imod_add_sub {a M : Nat} (b : Nat) (ha : a < M) : imod (Int.ofNat ((a + b) % M) - Int.ofNat b) M = a := by
  have hM : 0 < M := by omega
  obtain ⟨hlt, hsum⟩ := imod_sub_spec (b := b) hM (Nat.mod_lt (a + b) hM)
  have hcongr : imod (Int.ofNat ((a + b) % M) - Int.ofNat b) M + b ≡ a + b [MOD M] := hsum
  exact (Nat.ModEq.add_right_cancel' b hcongr).eq_of_lt_of_lt hlt ha

theorem radixSquared_odd {M : Nat} (hodd : M % 2 = 1) : radixSquared M = .ok (radix M * radix M % M) :=
  if_neg (by omega)

/-- Into Montgomery form by R², out of it by 1 (R141): q·R·R ≡ r·R ≡ a·R·R, and R is prime to an odd M. -/
theorem montgomery_round_trip {M a : Nat} (hM : 2 ≤ M) (hodd : M % 2 = 1) (ha : a < M) :
    ∃ r, montgomery a (radix M * radix M % M) M = .ok r ∧ r < M ∧ montgomery r 1 M = .ok a := by
  obtain ⟨r, hr, hrlt, hrR⟩ := montgomery_ok hM hodd a (radix M * radix M % M)
  obtain ⟨q, hq, hqlt, hqR⟩ := montgomery_ok hM hodd r 1
  have hcop : Nat.gcd M (radix M) = 1 := (Nat.gcd_rec M (radix M)).trans (radix_coprime hodd)
  have hin : r * radix M ≡ a * radix M * radix M [MOD M] :=
    calc r * radix M ≡ a * (radix M * radix M % M) [MOD M] := hrR
      _ ≡ a * (radix M * radix M) [MOD M] := (Nat.mod_modEq _ _).mul_left a
      _ = a * radix M * radix M := (Nat.mul_assoc _ _ _).symm
  have hout : q * radix M ≡ r [MOD M] := by simpa [Nat.ModEq] using hqR
  have hqa : q * radix M ≡ a * radix M [MOD M] := hout.trans (Nat.ModEq.cancel_right_of_coprime hcop hin)
  obtain rfl : q = a := (Nat.ModEq.cancel_right_of_coprime hcop hqa).eq_of_lt_of_lt hqlt ha
  exact ⟨r, hr, hrlt, hq⟩

/-! ### A command whose checks pass -/

section
variable {s : State} {m : ModSel} (hcv : s.cv = true)
include hcv

/-- R139, for an odd M. -/
theorem exec_mrr_odd (d : XReg) (hodd : s.modulus m % 2 = 1) :
    exec (.mrr d m) s = .next ((s.putX d (radix (s.modulus m) * radix (s.modulus m) % s.modulus m)).succeed false) := by
  simp [exec, execMrr, State.curveCommand_loaded hcv, radixSquared_odd hodd]

variable {a : XReg} (ha : s.xVal a < s.modulus m)
include ha

theorem exec_minv_ok (d : XReg) {t : Nat} (ht : inv (s.xVal a) (s.modulus m) = .ok t) :
    exec (.minv d a m) s = .next ((s.putX d t).succeed false) := by
  simp [exec, execMinv, State.curveCommand_loaded hcv, State.canon_ok ha, ht]

variable {b : XReg} (hb : s.xVal b < s.modulus m)
include hb

theorem exec_madd_ok (d : XReg) :
    exec (.madd d a b m) s = .next ((s.putX d ((s.xVal a + s.xVal b) % s.modulus m)).succeed false) := by
  simp [exec, execMadd, State.curveCommand_loaded hcv, State.canon_ok ha, State.canon_ok hb]

theorem exec_msub_ok (d : XReg) : exec (.msub d a b m) s =
    .next ((s.putX d (imod (Int.ofNat (s.xVal a) - Int.ofNat (s.xVal b)) (s.modulus m))).succeed false) := by
  simp [exec, execMsub, State.curveCommand_loaded hcv, State.canon_ok ha, State.canon_ok hb]

theorem exec_mmul_ok (d : XReg) :
    exec (.mmul d a b m) s = .next ((s.putX d (s.xVal a * s.xVal b % s.modulus m)).succeed false) := by
  simp [exec, execMmul, State.curveCommand_loaded hcv, State.canon_ok ha, State.canon_ok hb]

theorem exec_mmont_ok (d : XReg) {r : Nat} (hr : montgomery (s.xVal a) (s.xVal b) (s.modulus m) = .ok r) :
    exec (.mmont d a b m) s = .next ((s.putX d r).succeed false) := by
  simp [exec, execMmont, State.curveCommand_loaded hcv, State.canon_ok ha, State.canon_ok hb, hr]

end

/-! ### On the machine (R92, R141) -/

/-- A residue of a modulus fits a register. -/
theorem State.fits_of_lt_modulus {s : State} {m : ModSel} {v : Nat} (h : v < s.modulus m) : v < 2 ^ 384 := h.trans (s.modulus_lt m)

theorem exec_to_from_montgomery {s : State} {m : ModSel} {a one t : XReg} (d e : XReg) (hcv : s.cv = true)
    (hM : 2 ≤ s.modulus m) (hodd : s.modulus m % 2 = 1) (ha : s.xVal a < s.modulus m) (hone : s.xVal one = 1)
    (hta : t ≠ a) (hot : one ≠ t) (hod : one ≠ d) :
    ∃ s1 s2 s3, exec (.mrr t m) s = .next s1 ∧ exec (.mmont d a t m) s1 = .next s2 ∧ exec (.mmont e d one m) s2 = .next s3 ∧
      s1.err = false ∧ s2.err = false ∧ s3.err = false ∧ s3.xVal e = s.xVal a := by
  obtain ⟨r, hin, hr, hout⟩ := montgomery_round_trip hM hodd ha
  have hR2 : radix (s.modulus m) * radix (s.modulus m) % s.modulus m < s.modulus m := Nat.mod_lt _ (by omega)
  obtain ⟨ht1, hx1, hm1, _, hcv1, _⟩ := s.wrote t (State.fits_of_lt_modulus hR2) false
  have ha1 := hx1 a hta.symm
  have hone1 := (hx1 one hot).trans hone
  have hmont := exec_mmont_ok (m := m) (hcv1.trans hcv) (by rwa [ha1, hm1]) (by rwa [ht1, hm1]) d (by rwa [ha1, ht1, hm1])
  obtain ⟨hd2, hx2, hm2, _, hcv2, _⟩ := State.wrote _ d (State.fits_of_lt_modulus hr) false
  have hm2 := (hm2 m).trans (hm1 m)
  have hone2 := (hx2 one hod).trans hone1
  have hback := exec_mmont_ok (m := m) (hcv2.trans (hcv1.trans hcv)) (by rwa [hd2, hm2]) (by rwa [hone2, hm2]) e
    (by rwa [hd2, hone2, hm2])
  exact ⟨_, _, _, exec_mrr_odd hcv t hodd, hmont, hback, rfl, rfl, rfl, State.xVal_putX_self _ e (State.fits_of_lt_modulus ha)⟩

theorem exec_add_sub {s : State} {m : ModSel} {a b d : XReg} (e : XReg) (hcv : s.cv = true) (ha : s.xVal a < s.modulus m)
    (hb : s.xVal b < s.modulus m) (hdb : d ≠ b) :
    ∃ s1 s2, exec (.madd d a b m) s = .next s1 ∧ exec (.msub e d b m) s1 = .next s2 ∧ s1.err = false ∧ s2.err = false ∧
      s2.xVal e = s.xVal a := by
  have hsum : (s.xVal a + s.xVal b) % s.modulus m < s.modulus m := Nat.mod_lt _ (by omega)
  obtain ⟨hd1, hx1, hm1, _, hcv1, _⟩ := s.wrote d (State.fits_of_lt_modulus hsum) false
  have hb1 := hx1 b hdb.symm
  have hsub := exec_msub_ok (hcv1.trans hcv) (by rwa [hd1, hm1]) (by rwa [hb1, hm1]) e
  rw [hd1, hb1, hm1, imod_add_sub _ ha] at hsub
  exact ⟨_, _, exec_madd_ok hcv ha hb d, hsub, rfl, rfl, State.xVal_putX_self _ e (State.fits_of_lt_modulus ha)⟩

theorem exec_inv_mul {s : State} {m : ModSel} {a d : XReg} (e : XReg) (hcv : s.cv = true) (hM : 2 ≤ s.modulus m)
    (ha : s.xVal a < s.modulus m) (hgcd : Nat.gcd (s.xVal a) (s.modulus m) = 1) (hda : d ≠ a) :
    ∃ s1 s2, exec (.minv d a m) s = .next s1 ∧ exec (.mmul e a d m) s1 = .next s2 ∧ s1.err = false ∧ s2.err = false ∧
      s2.xVal e = 1 := by
  obtain ⟨t, hinv, ht, hmul⟩ := inv_ok hM ha hgcd
  obtain ⟨hd1, hx1, hm1, _, hcv1, _⟩ := s.wrote d (State.fits_of_lt_modulus ht) false
  have ha1 := hx1 a hda.symm
  have hprod := exec_mmul_ok (hcv1.trans hcv) (by rwa [ha1, hm1]) (by rwa [hd1, hm1]) e
  rw [hd1, ha1, hm1, hmul] at hprod
  exact ⟨_, _, exec_minv_ok hcv ha d hinv, hprod, rfl, rfl, State.xVal_putX_self _ e (by omega)⟩

/-- Settles O36: each sequence, from the integers' identity and read after write. -/
theorem arithmeticIdentities : Obligations.ArithmeticIdentities := by
  intro a b d e one t m s hinv hcv ha
  have hM := State.two_le_modulus hinv hcv m
  exact ⟨fun hodd hone hta hot hod => exec_to_from_montgomery d e hcv hM hodd ha hone hta hot hod,
    fun hb hdb => exec_add_sub e hcv ha hb hdb,
    fun hgcd hda => exec_inv_mul e hcv hM ha hgcd hda⟩

end Sys2Proof.Machine

/-! ## Frame of the commands that write one operand register (30_encoding.md R99, R100) -/

namespace Sys2Proof.Machine

/-- The commands whose only result is written to x[d]. -/
structure WritesRegOnly (i : Instr) (d : XReg) : Prop where
  x : i.writesX = [d]
  pinf : i.writesPinf = []
  validates : i.validates = false
  tests : i.tests = false
  drawsEntropy : i ≠ .rand d → i.drawsEntropy = false

theorem fieldNonceRand_writesRegOnly {d a b : XReg} {m : ModSel} {i : Instr}
    (hi : i ∈ [Instr.madd d a b m, .msub d a b m, .mmul d a b m, .mmont d a b m, .minv d a m, .mred d a m, .mrr d m, .nonce d a b,
      .rand d]) : WritesRegOnly i d := by
  simp only [List.mem_cons, List.not_mem_nil, or_false] at hi
  rcases hi with rfl | rfl | rfl | rfl | rfl | rfl | rfl | rfl | rfl <;>
    exact ⟨rfl, rfl, rfl, rfl, by simp [Instr.drawsEntropy, Instr.opcode]⟩

/-- Settles O56: these commands write x[D], no infinity flag and no curve register, and TRUE is none's result. -/
theorem fieldNonceRandFrame : Obligations.FieldNonceRandFrame := by
  intro d a b m s t i hi h
  have hw := fieldNonceRand_writesRegOnly hi
  obtain ⟨hgetX, _, hrest, htruth, hentropy⟩ := exec_frame hw.validates h
  refine ⟨fun j hj => hgetX j (by simpa [hw.x] using hj), exec_pinf_eq hw.validates hw.pinf h, hrest, htruth hw.tests,
    fun hrand => hentropy (hw.drawsEntropy hrand), ?_⟩
  intro off h4 _ hs hx
  exact exec_windowWord hw.validates h h4 hs (fun _ => hw.pinf) (by simpa [hw.x] using hx)

end Sys2Proof.Machine

/-! ## Curve configuration: NOP, CSET, CLOAD, and what needs a curve (40_curve.md R110 to R118) -/

namespace Sys2Proof

/-- A word with an assigned OP that is not well-formed for that opcode is well-formed for none (R89, R90). -/
theorem decode_eq_illegalOperand_of_op {o : Opcode} {w : Word} (hop : w.extractLsb' 0 8 = o.code) (hm : ¬ o.matches w = true) :
    decode w = .illegalOperand := by
  refine decode_eq_illegalOperand ?_ fun o' => ?_
  · rw [hop, reservedOp_iff, Opcode.ofCode_code]
    nofun
  · rw [← Bool.not_eq_true]
    intro hm'
    obtain rfl : o = o' := Opcode.code_injective (hop.symm.trans (Opcode.matches_iff_wellFormed.1 hm').1)
    exact hm hm'

/-- NOP's mask covers the whole word (R88). -/
theorem matches_nop_iff {w : Word} : Opcode.nop.matches w = true ↔ w = 0#32 := by
  rw [Opcode.matches_iff_and_mask]
  have hmask : w &&& 0xFFFFFFFF#32 = w := BitVec.and_allOnes
  simp [Opcode.maskMatch, hmask]

/-- The `curve needed` column of R86. -/
theorem Instr.needsCurve_iff {i : Instr} : i.needsCurve = true ↔ (i ≠ .nop ∧ i ≠ .cset ∧ ∀ k, i ≠ .cload k) := by
  cases i <;> simp [Instr.needsCurve, Instr.opcode, Opcode.form]

/-- The commands R230 lists for NO_CURVE are those of R86's column. -/
theorem Instr.noCurve_mem_raises_iff {i : Instr} : Machine.ErrCode.noCurve ∈ i.raises ↔ i.needsCurve = true := by
  cases i <;> simp [Instr.raises, Instr.needsCurve, Instr.opcode, Opcode.form]

end Sys2Proof

namespace Sys2Proof.Machine

/-! ### Without a validated curve (R118) -/

theorem exec_unloaded {i : Instr} {s : State} (hn : i.needsCurve = true) (hcv : s.cv = false) :
    exec i s = .next (s.takeError .noCurve) := by
  cases hd : i.drawsEntropy
  · obtain ⟨r, _, hr⟩ := exec_answers i s hd
    rw [hr, if_pos hn, State.curveCommand_unloaded hcv]
  · cases i with
    | rand d => exact exec_rand_unloaded d hcv
    | _ => cases hd

/-- Settles O12: the curve check precedes whatever the command's own checks answer, and R230 lists NO_CURVE for no other command. -/
theorem noCurveComesFirst : Obligations.NoCurveComesFirst := by
  refine fun i s => ⟨i.needsCurve_iff, exec_unloaded, fun t hn ht hcode => ?_⟩
  obtain ⟨k, _, ⟨e, he, hexec⟩ | ⟨s', b, _, hexec⟩⟩ := exec_cases i s
  · obtain rfl := Host.Outcome.next.inj (hexec.symm.trans ht)
    obtain rfl : e = .noCurve := ErrCode.code_injective hcode
    exact nomatch hn.symm.trans (i.noCurve_mem_raises_iff.1 he)
  · obtain rfl := Host.Outcome.next.inj (hexec.symm.trans ht)
    cases hcode

/-! ### CurveOK and the curve length (R27, R112) -/

theorem curveOK_iff_passesR112 {c : CurveVal} : curveOK c = true ↔ c.PassesR112 := by
  constructor
  · intro h
    obtain ⟨hp, hodd, ha, hb, hgx, hgy, hn, heq⟩ := curveOK_spec h
    exact ⟨hp, hodd, ha, hb, hgx, hgy, hn, (curveEq_int (by omega) _ _).1 heq⟩
  · rintro ⟨hp, hodd, ha, hb, hgx, hgy, hn, heq⟩
    have hG : curveEq c c.gx c.gy = true := (curveEq_int (by omega) _ _).2 heq
    simp [curveOK, hp, hodd, ha, hb, hgx, hgy, hn, hG]

theorem bitlen_le_eight_mul_iff (v L : Nat) : bitlen v ≤ 8 * L ↔ v < 256 ^ L := by
  rw [bitlen_le_iff, pow_mul]
  norm_num

theorem lengthOf_curveLen {c : CurveVal} (hn : 0 < c.n) : lengthOf c.n (curveLen c) := by
  have hpos := bitlen_pos hn
  have hlen : curveLen c = (bitlen c.n + 7) / 8 := rfl
  constructor
  · rw [← bitlen_le_eight_mul_iff]
    omega
  · rw [← not_lt, ← bitlen_le_eight_mul_iff]
    omega

theorem State.curveLen_le (s : State) : curveLen s.curve ≤ 48 := by
  have hbits : bitlen s.curve.n ≤ 384 := (bitlen_le_iff _ _).2 (s.modulus_lt .n)
  have hlen : curveLen s.curve = (bitlen s.curve.n + 7) / 8 := rfl
  omega

/-! ### CSET (R111) -/

theorem exec_cset_ok {s : State} (h : curveOK s.curve = true) :
    exec .cset s = .next ((s.validate s.curve).succeed false) := by
  simp [exec, execCset, h]

theorem exec_cset_invalid {s : State} (h : ¬ curveOK s.curve = true) : exec .cset s = .next (s.takeError .invalidCurve) := by
  simp [exec, execCset, h]

/-- Settles O30: R112 in the integers is the model's CurveOK, and the curve length is the least number of bytes that holds N. -/
theorem csetValidates : Obligations.CsetValidates := by
  refine ⟨rfl, fun s => ⟨fun h => ?_, fun h => ?_⟩⟩
  · have hok := curveOK_iff_passesR112.2 h
    obtain ⟨_, _, _, _, _, _, hn, _⟩ := h
    exact ⟨curveLen s.curve, lengthOf_curveLen (by omega), s.curveLen_le, exec_cset_ok hok⟩
  · exact exec_cset_invalid (mt curveOK_iff_passesR112.1 h)

/-! ### CLOAD (R113, R117) -/

theorem exec_cload (s : State) (k : CurveId) :
    exec (.cload k) s = .next (((s.loadCurve (rom k)).validate (rom k)).succeed false) := by
  simp [exec, execCload, rom_ok k]

/-- Settles O31: the preset curves pass CurveOK, and each curve length is computed from the N of the table. -/
theorem cloadLoadsPreset : Obligations.CloadLoadsPreset := by
  refine ⟨fun w hop hd => ?_, ⟨rfl, rfl, rfl⟩, fun k => curveOK_iff_passesR112.1 (rom_ok k), fun s k => ?_⟩
  · refine decode_eq_illegalOperand_of_op (o := .cload) hop fun hm => ?_
    have hle := (Opcode.matches_iff_and_mask.1 hm).2 rfl
    omega
  · refine ⟨CurveRegs.ofVal (rom k), CurveRegs.val_ofVal (rom_fits k), (exec_cload s k).trans ?_⟩
    cases k <;> rfl

/-! ### NOP (R110) -/

theorem exec_nop (s : State) : exec .nop s = .next (s.succeed false) := rfl

/-- A command issued on an idle core: the host's CMD write, then the core's turn (30_encoding.md R95, R99). -/
theorem core_run_issue {s t : State} {w : Word} {i : Instr} (hidle : s.busy = false) (hi : decode w = .command i)
    (ht : exec i (State.accept { s with schedule := [] } w) = .next t) :
    Host.Core.run Sys2Proof.core 2 { s with schedule := [.write 0x00C 4 w, .complete] } = .next t := by
  have haccept : step { s with schedule := [.write 0x00C 4 w, .complete] } =
      .next (State.accept { s with schedule := [.complete] } w) :=
    (cmdWriteIsAccepted { s with schedule := [.complete] } w).1 hidle
  have hturn : step (State.accept { s with schedule := [.complete] } w) = .next t :=
    (stepOn_complete_command (State.accept_busy _ w) hi).trans ht
  rw [core_run_next haccept, core_run_next hturn, core_run_zero]

/-- Settles O29: NOP's only word is 0, and its completion sets the flags of success and writes nothing. -/
theorem nopEffect : Obligations.NopEffect := by
  have hzero : decode 0x00000000#32 = .command .nop := decode_eq_command_iff.2 rfl
  refine ⟨hzero, fun w hop hw => ?_, fun s => ⟨exec_nop s, fun hidle => ?_⟩⟩
  · exact decode_eq_illegalOperand_of_op (o := .nop) hop (mt matches_nop_iff.1 hw)
  · refine ⟨_, core_run_issue hidle hzero (exec_nop _), ?_, rfl⟩
    refine (State.toNat_statusWord _).trans ?_
    simp [State.succeed, State.accept]

end Sys2Proof.Machine

/-! ## Results of the modular arithmetic (41_field.md R130 to R139) -/

namespace Sys2Proof.Machine

/-- Two source checks in a row end in RANGE where either source is not canonical: RANGE is the only error they have (R130). -/
theorem State.canon_canon_range {s : State} {m : ModSel} {a b : XReg} (h : s.modulus m ≤ s.xVal a ∨ s.modulus m ≤ s.xVal b)
    (f : Nat → Nat → Result) : (s.canon m a >>= fun av => s.canon m b >>= f av) = .error .range := by
  rcases s.canon_spec m a with ⟨ha, hok⟩ | ⟨_, herr⟩
  · rw [hok, ok_bind, State.canon_range (h.resolve_left (by omega)), error_bind]
  · rw [herr, error_bind]

theorem radixSquared_even {M : Nat} (heven : M % 2 = 0) : radixSquared M = .error .notInvertible := if_pos heven

section
variable {s : State} {m : ModSel} (hcv : s.cv = true)
include hcv

/-- R130: the commands with two canonical sources check both before anything else. -/
theorem exec_two_sources_range {a b : XReg} (d : XReg) (h : s.modulus m ≤ s.xVal a ∨ s.modulus m ≤ s.xVal b) :
    ∀ i ∈ [Instr.madd d a b m, .msub d a b m, .mmul d a b m, .mmont d a b m], exec i s = .next (s.takeError .range) := by
  simp [exec, execMadd, execMsub, execMmul, execMmont, State.curveCommand_loaded hcv, State.canon_canon_range h]

theorem exec_mmont_even {a b : XReg} (d : XReg) (ha : s.xVal a < s.modulus m) (hb : s.xVal b < s.modulus m)
    (heven : s.modulus m % 2 = 0) : exec (.mmont d a b m) s = .next (s.takeError .notInvertible) := by
  simp [exec, execMmont, State.curveCommand_loaded hcv, State.canon_ok ha, State.canon_ok hb, montgomery_even heven]

theorem exec_minv_range {a : XReg} (d : XReg) (ha : s.modulus m ≤ s.xVal a) :
    exec (.minv d a m) s = .next (s.takeError .range) := by
  simp [exec, execMinv, State.curveCommand_loaded hcv, State.canon_range ha]

theorem exec_minv_notInvertible {a : XReg} (d : XReg) (ha : s.xVal a < s.modulus m)
    (hgcd : Nat.gcd (s.xVal a) (s.modulus m) ≠ 1) : exec (.minv d a m) s = .next (s.takeError .notInvertible) := by
  simp [exec, execMinv, State.curveCommand_loaded hcv, State.canon_ok ha, inv_error hgcd]

/-- R138: no source check. -/
theorem exec_mred (d a : XReg) : exec (.mred d a m) s = .next ((s.putX d (s.xVal a % s.modulus m)).succeed false) := by
  simp [exec, execMred, State.curveCommand_loaded hcv]

theorem exec_mrr_even (d : XReg) (heven : s.modulus m % 2 = 0) :
    exec (.mrr d m) s = .next (s.takeError .notInvertible) := by
  simp [exec, execMrr, State.curveCommand_loaded hcv, radixSquared_even heven]

end

/-- Settles O32: canonical sources give sum, difference and product, the difference fixed by what gives the minuend back; any other
source fails the first check that reads it. -/
theorem addSubMulResults : Obligations.AddSubMulResults := by
  intro d a b m s
  refine ⟨⟨encode_and_mask (.madd d a b m), encode_and_mask (.msub d a b m), encode_and_mask (.mmul d a b m)⟩,
    fun hcv ha hb => ?_, fun hcv hout => ?_⟩
  · obtain ⟨hlt, hdiff⟩ := imod_sub_spec (b := s.xVal b) (by omega) ha
    exact ⟨exec_madd_ok hcv ha hb d, ⟨_, hlt, hdiff, exec_msub_ok hcv ha hb d⟩, exec_mmul_ok hcv ha hb d⟩
  · have hrange := exec_two_sources_range hcv d hout
    exact ⟨hrange _ (by simp), hrange _ (by simp), hrange _ (by simp)⟩

/-- Settles O33: R is prime to an odd M, so the Montgomery product exists; R131's least number of limbs gives the model's R. -/
theorem mmontResult : Obligations.MmontResult := by
  intro d a b m s hinv hcv
  have hM := State.two_le_modulus hinv hcv m
  refine ⟨encode_and_mask (.mmont d a b m), fun ha hb hodd => ?_, fun hout => exec_two_sources_range hcv d hout _ (by simp),
    fun ha hb heven => exec_mmont_even hcv d ha hb heven⟩
  obtain ⟨r, hr, hlt, hprod⟩ := montgomery_ok hM hodd (s.xVal a) (s.xVal b)
  refine ⟨r, hlt, fun L ⟨hfits, hleast⟩ => ?_, exec_mmont_ok hcv ha hb d hr⟩
  rwa [← radix_eq (by omega) hfits hleast]

/-- Settles O34: Euclid's algorithm gives the inverse where the gcd is 1, and gcd(0, M) = M is not 1. -/
theorem minvResult : Obligations.MinvResult := by
  intro d a m s hinv hcv
  have hM := State.two_le_modulus hinv hcv m
  refine ⟨encode_and_mask (.minv d a m), fun ha hgcd => ?_, fun ha hgcd => exec_minv_notInvertible hcv d ha hgcd, fun hzero => ?_,
    fun ha => exec_minv_range hcv d ha⟩
  · obtain ⟨t, ht, hlt, hmul⟩ := inv_ok hM ha hgcd
    exact ⟨t, hlt, hmul, fun u hu hu1 => inverse_unique hu hlt hu1 hmul, exec_minv_ok hcv ha d ht⟩
  · have hgcd : Nat.gcd (s.xVal a) (s.modulus m) = s.modulus m := by rw [hzero, Nat.gcd_zero_left]
    exact exec_minv_notInvertible hcv d (by omega) (by omega)

/-- Settles O35: MRED checks no source, and MRR's constant is R² for the R of R131's least number of limbs. -/
theorem mredMrrResults : Obligations.MredMrrResults := by
  intro d a m s hinv hcv
  have hM := State.two_le_modulus hinv hcv m
  refine ⟨⟨encode_and_mask (.mred d a m), encode_and_mask (.mrr d m)⟩, exec_mred hcv d a, fun hodd => ?_,
    fun heven => exec_mrr_even hcv d heven⟩
  refine ⟨_, Nat.mod_lt _ (by omega), fun L ⟨hfits, hleast⟩ => ?_, exec_mrr_odd hcv d hodd⟩
  rw [radix_eq (by omega) hfits hleast]

end Sys2Proof.Machine

/-! ## Point addition as a group law (42_point.md R161, R170) -/

namespace Sys2Proof.Machine

section
variable {c : CurveVal}

theorem Point.isPoint_of_inf_or_onCurve [Fact c.p.Prime] (ho : c.p % 2 = 1) (hn : nonsingular c) {p : Point}
    (h : p = .inf ∨ onCurve c p = true) : ∃ P, p.IsPoint c P := by
  rcases h with rfl | h
  · exact ⟨0, Point.isPoint_inf⟩
  · exact Point.isPoint_of_onCurve ho hn h

theorem Point.inf_or_onCurve_of_isPoint {p : Point} {P : (weierstrass c).Point} (h : p.IsPoint c P) :
    p = .inf ∨ onCurve c p = true :=
  or_iff_not_imp_left.2 (Point.onCurve_of_isPoint h)

/-- The point value that stands for the group's sum is what pointAdd answers. -/
theorem pointAdd_eq_ok_of_isPoint [Fact c.p.Prime] (ho : c.p % 2 = 1) {p q r : Point} {P Q : (weierstrass c).Point}
    (hp : p.IsPoint c P) (hq : q.IsPoint c Q) (hr : r.IsPoint c (P + Q)) : pointAdd c p q = .ok r := by
  obtain ⟨r', hadd, hr'⟩ := pointAdd_group ho hp hq
  rw [hadd, Point.isPoint_unique hr' hr]

theorem pointAdd_comm_assoc [Fact c.p.Prime] (ho : c.p % 2 = 1) {p q r : Point} {P Q R : (weierstrass c).Point}
    (hp : p.IsPoint c P) (hq : q.IsPoint c Q) (hr : r.IsPoint c R) :
    ∃ pq qr t, (pq = .inf ∨ onCurve c pq = true) ∧ pointAdd c p q = .ok pq ∧ pointAdd c q p = .ok pq ∧
      pointAdd c q r = .ok qr ∧ pointAdd c pq r = .ok t ∧ pointAdd c p qr = .ok t := by
  obtain ⟨pq, hpq, hpqP⟩ := pointAdd_group ho hp hq
  obtain ⟨qr, hqr, hqrP⟩ := pointAdd_group ho hq hr
  obtain ⟨t, ht, htP⟩ := pointAdd_group ho hpqP hr
  exact ⟨pq, qr, t, Point.inf_or_onCurve_of_isPoint hpqP, hpq, pointAdd_eq_ok_of_isPoint ho hq hp (add_comm P Q ▸ hpqP), hqr, ht,
    pointAdd_eq_ok_of_isPoint ho hp hqrP (add_assoc P Q R ▸ htP)⟩

/-- (x, y) and (x, −y) are one above the other, for any P that is odd: −y = y only for y = 0. -/
theorem pointAdd_negated (ho : c.p % 2 = 1) {py : Nat} (hy : py < c.p) (px : Nat) :
    pointAdd c (.aff px py) (.aff px ((c.p - py) % c.p)) = .ok .inf := by
  refine pointAdd_vertical c ⟨rfl, ?_⟩
  rcases Nat.eq_zero_or_pos py with h0 | hpos
  · exact .inr h0
  · rw [Nat.mod_eq_of_lt (by omega)]
    exact .inl (by omega)

theorem scalarMultiply_eq_multiple [Fact c.p.Prime] (ho : c.p % 2 = 1) {p : Point} {P : (weierstrass c).Point}
    (hp : p.IsPoint c P) (k : Nat) : scalarMultiply c p k = multiple c p (k % c.n) := by
  obtain ⟨r, hr, hrP⟩ := scalarMultiply_group ho hp k
  obtain ⟨t, ht, htP⟩ := multiple_group ho hp (k % c.n)
  rw [hr, ht, Point.isPoint_unique hrP htP]

end

/-- Settles O54: the points of the core's curve are those of Mathlib's Weierstrass curve, and one point value stands for each. -/
theorem pointAdditionIsAGroup : Obligations.PointAdditionIsAGroup := by
  intro c hc hprime hn p q r hp hq hr
  have : Fact c.p.Prime := ⟨hprime⟩
  obtain ⟨_, ho, _⟩ := curveOK_spec hc
  obtain ⟨P, hP⟩ := Point.isPoint_of_inf_or_onCurve ho hn hp
  obtain ⟨Q, hQ⟩ := Point.isPoint_of_inf_or_onCurve ho hn hq
  obtain ⟨R, hR⟩ := Point.isPoint_of_inf_or_onCurve ho hn hr
  refine ⟨pointAdd_comm_assoc ho hP hQ hR, ⟨pointAdd_inf_left c p, pointAdd_inf_right c p⟩, ?_, scalarMultiply_eq_multiple ho hP⟩
  rintro px py rfl
  exact pointAdd_negated ho (Point.isPoint_canonical hP).2 px

end Sys2Proof.Machine

/-! ## Results of the point commands (42_point.md R160 to R169) -/

namespace Sys2Proof.Machine

/-! ### The slopes and the coordinates over any P (R160) -/

/-- A numerator times the inverse of a denominator prime to m is their quotient modulo m. -/
theorem inv_quotient {m : Nat} (hm : 2 ≤ m) {den : Int} (hg : Int.gcd den m = 1) :
    ∃ t, inv (imod den m) m = .ok t ∧ ∀ num : Nat, ((num * t % m : Nat) : Int) * den % m = num % m := by
  have hpos : 0 < m := by omega
  obtain ⟨t, ht, _, hmul⟩ := inv_ok hm (imod_lt den hpos) ((gcd_imod den hpos).trans hg)
  refine ⟨t, ht, fun num => ?_⟩
  have hone : (den : ZMod m) * t = 1 := by
    have h : ((imod den m * t % m : Nat) : ZMod m) = (1 : Nat) := congrArg Nat.cast hmul
    simpa [imod_zmod den hpos] using h
  refine (ZMod.intCast_eq_intCast_iff' _ _ m).1 ?_
  push_cast
  calc (num : ZMod m) * t * den = num * (den * t) := by ring
    _ = num := by rw [hone, mul_one]

section
variable {c : CurveVal}

theorem thirdX_cast (hP : 0 < c.p) (l px qx : Nat) : (thirdX c l px qx : Int) = ((l : Int) ^ 2 - px - qx) % c.p := by
  rw [thirdX, imod_cast _ hP, pow_two]
  rfl

theorem thirdY_cast (hP : 0 < c.p) (l px py x3 : Nat) :
    (thirdY c l px py x3 : Int) = (l * ((px : Int) - x3) - py) % c.p :=
  imod_cast _ hP

theorem tangentSlope_quotient (hP : 2 ≤ c.p) (px : Nat) {py : Nat} (hg : Nat.gcd (2 * py % c.p) c.p = 1) :
    ∃ l, tangentSlope c px py = .ok l ∧ l < c.p ∧ ((l : Int) * (2 * py)) % c.p = (3 * (px : Int) ^ 2 + c.a) % c.p := by
  have hg' : Int.gcd (Int.ofNat (2 * py)) c.p = 1 := (gcd_imod _ (by omega)).symm.trans hg
  obtain ⟨t, ht, hquot⟩ := inv_quotient hP hg'
  refine ⟨(3 * (px * px) + c.a) % c.p * t % c.p, ?_, Nat.mod_lt _ (by omega), (hquot _).trans ?_⟩
  · rw [imod_natCast] at ht
    rw [tangentSlope, ht, ok_bind, pure_eq_ok]
  · push_cast
    rw [Int.emod_emod, pow_two]

theorem chordSlope_quotient (hP : 2 ≤ c.p) {px qx : Nat} (py qy : Nat) (hg : Int.gcd ((qx : Int) - px) c.p = 1) :
    ∃ l, chordSlope c px py qx qy = .ok l ∧ l < c.p ∧ ((l : Int) * ((qx : Int) - px)) % c.p = ((qy : Int) - py) % c.p := by
  obtain ⟨t, ht, hquot⟩ := inv_quotient hP hg
  refine ⟨imod (Int.ofNat qy - Int.ofNat py) c.p * t % c.p, ?_, Nat.mod_lt _ (by omega), (hquot _).trans ?_⟩
  · exact congrArg (· >>= fun t => pure (imod (Int.ofNat qy - Int.ofNat py) c.p * t % c.p)) ht
  · rw [imod_cast _ (by omega), Int.emod_emod]
    rfl

theorem tangentSlope_notInvertible (px : Nat) {py : Nat} (hg : Nat.gcd (2 * py % c.p) c.p ≠ 1) :
    tangentSlope c px py = .error .notInvertible := by
  rw [tangentSlope, inv_error hg, error_bind]

theorem chordSlope_notInvertible (hP : 0 < c.p) {px qx : Nat} (py qy : Nat) (hg : Int.gcd ((qx : Int) - px) c.p ≠ 1) :
    chordSlope c px py qx qy = .error .notInvertible := by
  have hg' : Nat.gcd (imod (Int.ofNat qx - Int.ofNat px) c.p) c.p ≠ 1 := by rwa [gcd_imod _ hP]
  rw [chordSlope, inv_error hg', error_bind]

variable {px py qx qy : Nat}

theorem sumSlope_double (hx : px = qx) (hy : py = qy) : sumSlope c px py qx qy = tangentSlope c px py := if_pos ⟨hx, hy⟩

theorem sumSlope_chord (hx : px ≠ qx) : sumSlope c px py qx qy = chordSlope c px py qx qy := if_neg fun h => hx h.1

theorem pointAdd_slope_error (hv : ¬ (px = qx ∧ (py ≠ qy ∨ py = 0))) {e : ErrCode} (h : sumSlope c px py qx qy = .error e) :
    pointAdd c (.aff px py) (.aff qx qy) = .error e := by
  rw [pointAdd_finite c hv, h]
  rfl

/-- Where the slope num / den exists, the sum has the coordinates of R160. -/
theorem pointAdd_slope_ok (hP : 0 < c.p) (hv : ¬ (px = qx ∧ (py ≠ qy ∨ py = 0))) {num den : Int}
    (h : ∃ l, sumSlope c px py qx qy = .ok l ∧ l < c.p ∧ ((l : Int) * den) % c.p = num % c.p) :
    ∃ l x3 y3 : Nat, l < c.p ∧ x3 < c.p ∧ y3 < c.p ∧ ((l : Int) * den) % c.p = num % c.p ∧
      (x3 : Int) = ((l : Int) ^ 2 - px - qx) % c.p ∧ (y3 : Int) = (l * ((px : Int) - x3) - py) % c.p ∧
      pointAdd c (.aff px py) (.aff qx qy) = .ok (.aff x3 y3) := by
  obtain ⟨l, hslope, hl, hquot⟩ := h
  refine ⟨l, thirdX c l px qx, thirdY c l px py (thirdX c l px qx), hl, imod_lt _ hP, imod_lt _ hP, hquot, thirdX_cast hP _ _ _,
    thirdY_cast hP _ _ _ _, ?_⟩
  rw [pointAdd_finite c hv, hslope]
  rfl

end

/-- Settles O38: INF, points one above the other, the tangent, the chord; over a prime P no slope fails. -/
theorem pointAddCases : Obligations.PointAddCases := by
  intro c p q hP hp hq
  refine ⟨pointAdd_inf_left c q, pointAdd_inf_right c p, fun hprime => ?_, ?_⟩
  · have ho : c.p % 2 = 1 := hprime.eq_two_or_odd.resolve_left (by omega)
    obtain ⟨r, hadd, hr⟩ := pointAdd_ok hprime ho hp hq
    exact ⟨r, hr, hadd⟩
  · rintro px py qx qy rfl rfl
    refine ⟨fun hx hy => pointAdd_vertical c ⟨hx, hy⟩, fun hx hy hy0 => ?_, fun hx => ?_⟩
    · have hv : ¬ (px = qx ∧ (py ≠ qy ∨ py = 0)) := by omega
      have hslope : sumSlope c px py qx qy = tangentSlope c px py := sumSlope_double hx hy
      refine ⟨fun hg => pointAdd_slope_error hv (hslope.trans (tangentSlope_notInvertible px hg)), fun hg => ?_⟩
      exact pointAdd_slope_ok (by omega) hv (hslope ▸ tangentSlope_quotient (by omega) px hg)
    · have hv : ¬ (px = qx ∧ (py ≠ qy ∨ py = 0)) := fun h => hx h.1
      have hslope : sumSlope c px py qx qy = chordSlope c px py qx qy := sumSlope_chord hx
      refine ⟨fun hg => pointAdd_slope_error hv (hslope.trans (chordSlope_notInvertible (by omega) py qy hg)), fun hg => ?_⟩
      exact pointAdd_slope_ok (by omega) hv (hslope ▸ chordSlope_quotient (by omega) py qy hg)

/-! ### The multiplier (R162) -/

/-- Settles O40: the scan of k's bits ends with bit 0, and the rest is the scan of k / 2. -/
theorem scalarMultiplySteps : Obligations.ScalarMultiplySteps := by
  intro c pt k _
  refine ⟨scalarMultiply_zero c pt, scalarMultiply_mod c pt k, fun hpos hlt => ?_⟩
  have hhalf : k / 2 % c.n = k / 2 := Nat.mod_eq_of_lt (by omega)
  rw [scalarMultiply, scalarMultiply, Nat.mod_eq_of_lt hlt, hhalf, bitlen_half hpos]
  exact doubleAndAdd_half c pt k _ _

/-! ### PADD, PDBL and PMUL (R165 to R167) -/

/-- The completion that writes a computed point to p[d], or fails with the computation's error. -/
def State.finishPoint (s : State) (d : PReg) (r : Except ErrCode Point) : Answer :=
  s.finish (r >>= fun pt => .ok (s.putPoint d pt, false))

@[simp] theorem State.finishPoint_ok (s : State) (d : PReg) (pt : Point) :
    s.finishPoint d (.ok pt) = .next ((s.putPoint d pt).succeed false) := rfl
@[simp] theorem State.finishPoint_error (s : State) (d : PReg) (e : ErrCode) : s.finishPoint d (.error e) = .next (s.takeError e) := rfl

/-- PDBL reads one register where PADD reads it twice, and a source check answers the same twice. -/
theorem exec_pdbl_eq_padd (d a : PReg) (s : State) : exec (.pdbl d a) s = exec (.padd d a a) s := by
  simp only [exec, execPdbl, execPadd]
  cases s.pcanon a <;> rfl

section
variable {s : State} (hcv : s.cv = true)
include hcv

theorem exec_padd_canonical {a b : PReg} (d : PReg) (ha : (s.point a).canonical s.curve) (hb : (s.point b).canonical s.curve) :
    exec (.padd d a b) s = s.finishPoint d (pointAdd s.curve (s.point a) (s.point b)) := by
  simp only [exec, execPadd, State.curveCommand_loaded hcv, State.pcanon_ok ha, State.pcanon_ok hb, ok_bind]
  rfl

theorem exec_padd_range {a b : PReg} (d : PReg) (h : ¬ (s.point a).canonical s.curve ∨ ¬ (s.point b).canonical s.curve) :
    exec (.padd d a b) s = .next (s.takeError .range) := by
  simp only [exec, execPadd, State.curveCommand_loaded hcv]
  rcases s.pcanon_spec a with ⟨ha, hok⟩ | ⟨_, herr⟩
  · rw [hok, ok_bind, State.pcanon_range (h.resolve_left (not_not_intro ha)), error_bind, State.finish_error]
  · rw [herr, error_bind, State.finish_error]

theorem exec_pmul_canonical {a : PReg} (d : PReg) (b : XReg) (ha : (s.point a).canonical s.curve) :
    exec (.pmul d a b) s = s.finishPoint d (scalarMultiply s.curve (s.point a) (s.xVal b)) := by
  simp only [exec, execPmul, State.curveCommand_loaded hcv, State.pcanon_ok ha, ok_bind]
  rfl

theorem exec_pmul_range {a : PReg} (d : PReg) (b : XReg) (ha : ¬ (s.point a).canonical s.curve) :
    exec (.pmul d a b) s = .next (s.takeError .range) := by
  simp only [exec, execPmul, State.curveCommand_loaded hcv, State.pcanon_range ha, error_bind, State.finish_error]

end

/-- Over a prime P, PADD succeeds on canonical points. -/
theorem exec_padd_prime {s : State} {a b : PReg} (d : PReg) (hinv : s.CurveInv) (hcv : s.cv = true) (hprime : s.curve.p.Prime)
    (ha : (s.point a).canonical s.curve) (hb : (s.point b).canonical s.curve) :
    ∃ r, r.canonical s.curve ∧ pointAdd s.curve (s.point a) (s.point b) = .ok r ∧
      exec (.padd d a b) s = .next ((s.putPoint d r).succeed false) := by
  obtain ⟨_, ho, _⟩ := curveOK_spec (hinv.1 hcv).1
  obtain ⟨r, hadd, hr⟩ := pointAdd_ok hprime ho ha hb
  exact ⟨r, hr, hadd, by rw [exec_padd_canonical hcv d ha hb, hadd, State.finishPoint_ok]⟩

/-- Settles O39: the source checks come first, then pointAdd's answer decides; PDBL is PADD of one register. -/
theorem paddPdblResults : Obligations.PaddPdblResults := by
  intro d a b s hinv hcv
  refine ⟨⟨encode_and_mask (.padd d a b), encode_and_mask (.pdbl d a)⟩, exec_padd_range hcv d, fun ha hb => ⟨?_, ?_, ?_⟩,
    exec_pdbl_eq_padd d a s, fun hprime ha => ?_⟩
  · intro r hr
    rw [exec_padd_canonical hcv d ha hb, hr, State.finishPoint_ok]
  · intro e he
    rw [exec_padd_canonical hcv d ha hb, he, State.finishPoint_error]
  · exact fun hprime => exec_padd_prime d hinv hcv hprime ha hb
  · rw [exec_pdbl_eq_padd]
    exact exec_padd_prime d hinv hcv hprime ha ha

/-- Settles O41: the source check comes first, then scalarMultiply's answer decides; no check reads the scalar. -/
theorem pmulResult : Obligations.PmulResult := by
  intro d a b s hinv hcv
  refine ⟨encode_and_mask (.pmul d a b), exec_pmul_range hcv d b, fun ha => ?_⟩
  have hok {r : Point} (hr : scalarMultiply s.curve (s.point a) (s.xVal b) = .ok r) :
      exec (.pmul d a b) s = .next ((s.putPoint d r).succeed false) := by
    rw [exec_pmul_canonical hcv d b ha, hr, State.finishPoint_ok]
  refine ⟨fun hzero => hok (scalarMultiply_zero _ _ hzero), fun r hr => hok hr, fun e he => ?_, fun hprime => ?_⟩
  · rw [exec_pmul_canonical hcv d b ha, he, State.finishPoint_error]
  · obtain ⟨_, ho, _⟩ := curveOK_spec (hinv.1 hcv).1
    obtain ⟨r, hr, hcanon⟩ := scalarMultiply_ok hprime ho ha (s.xVal b)
    exact ⟨r, hcanon, hr, hok hr⟩

/-! ### PCHK and PLDG (R163, R168, R169) -/

theorem onCurve_iff_onR163 {c : CurveVal} {pt : Point} : onCurve c pt = true ↔ pt.OnR163 c := by
  cases pt with
  | inf => simp [onCurve, Point.OnR163]
  | aff px py =>
    simp only [onCurve, Point.OnR163, Bool.and_eq_true, decide_eq_true_eq, and_assoc]
    exact and_congr_right fun hx => and_congr_right fun _ => curveEq_int (by omega) px py

theorem Point.canonical.fits {s : State} {pt : Point} (h : pt.canonical s.curve) : pt.fits := by
  cases pt with
  | inf => trivial
  | aff px py =>
    obtain ⟨hx, hy⟩ := h
    have hP := s.modulus_lt .p
    exact ⟨hx.trans hP, hy.trans hP⟩

theorem exec_pchk {s : State} (hcv : s.cv = true) (a : PReg) :
    exec (.pchk a) s = .next (s.succeed (onCurve s.curve (s.point a))) := by
  simp only [exec, execPchk, State.curveCommand_loaded hcv]
  rfl

theorem exec_pldg {s : State} (hcv : s.cv = true) (d : PReg) :
    exec (.pldg d) s = .next ((s.putPoint d (basePoint s.curve)).succeed false) := by
  simp only [exec, execPldg, State.curveCommand_loaded hcv]
  rfl

@[simp] theorem State.point_succeed (s : State) (b : Bool) (i : PReg) : (s.succeed b).point i = s.point i := rfl

/-- The base point that PLDG has written passes PCHK on a validated curve. -/
theorem exec_pchk_base {s : State} (hcv : s.cv = true) (hok : curveOK s.curve = true) (d : PReg) :
    exec (.pchk d) ((s.putPoint d (basePoint s.curve)).succeed false) =
      .next (((s.putPoint d (basePoint s.curve)).succeed false).succeed true) := by
  have hpoint : (s.putPoint d (basePoint s.curve)).point d = basePoint s.curve :=
    s.point_putPoint_self d (canonical_base hok).fits
  rw [exec_pchk (by simpa using hcv), State.curve_succeed, State.curve_putPoint, State.point_succeed, hpoint, onCurve_base hok]

/-- Settles O42: PCHK answers the predicate of R163 whatever p[A] holds; a validated curve has its base point on it. -/
theorem pchkPldgResults : Obligations.PchkPldgResults := by
  intro d a s hinv hcv
  refine ⟨⟨encode_and_mask (.pchk a), encode_and_mask (.pldg d)⟩, fun hon => ?_, fun hoff => ?_, _, rfl, exec_pldg hcv d,
    exec_pchk_base hcv (hinv.1 hcv).1 d⟩
  · rw [exec_pchk hcv, onCurve_iff_onR163.2 hon]
  · rw [exec_pchk hcv, Bool.eq_false_iff.2 (mt onCurve_iff_onR163.1 hoff)]

end Sys2Proof.Machine

/-! ## Frames of the commands that write no operand register (30_encoding.md R99, R100, 40_curve.md, 42_point.md R168, 44_ecdsa.md R217) -/

namespace Sys2Proof.Machine

theorem exec_truth_eq_false {i : Instr} {s t : State} (ht : i.tests = false) (h : exec i s = .next t) : t.truth = false := by
  obtain ⟨k, _, ⟨e, _, h'⟩ | ⟨s', b, he, h'⟩⟩ := exec_cases i s
  · obtain rfl := Host.Outcome.next.inj (h'.symm.trans h)
    rfl
  · obtain rfl := Host.Outcome.next.inj (h'.symm.trans h)
    exact Bool.eq_false_iff.2 fun hb => nomatch ht.symm.trans (he.truth hb)

theorem exec_keeps_cr {i : Instr} {s t : State} (hl : i.loadsCurve = false) (h : exec i s = .next t) : t.cr = s.cr := by
  obtain ⟨k, _, ⟨e, _, h'⟩ | ⟨s', b, he, h'⟩⟩ := exec_cases i s
  · obtain rfl := Host.Outcome.next.inj (h'.symm.trans h)
    rfl
  · obtain rfl := Host.Outcome.next.inj (h'.symm.trans h)
    exact he.cr hl

/-- The commands without a destination among the operand registers and the infinity flags. -/
structure WritesNoOperand (i : Instr) : Prop where
  x : i.writesX = []
  pinf : i.writesPinf = []
  drawsEntropy : i.drawsEntropy = false

/-- Such a command changes nothing but STATUS, CV, CLEN and the curve registers. -/
theorem WritesNoOperand.frame {i : Instr} {s t : State} (hw : WritesNoOperand i) (h : exec i s = .next t) :
    t = { s with busy := t.busy, done := t.done, err := t.err, errcode := t.errcode, truth := t.truth, cv := t.cv, clen := t.clen
                 cr := t.cr } := by
  obtain ⟨k, hk, ⟨e, _, h'⟩ | ⟨s', b, he, h'⟩⟩ := exec_cases i s
  all_goals
    obtain rfl := Host.Outcome.next.inj (h'.symm.trans h)
    obtain rfl := hk hw.drawsEntropy
  · rfl
  · have hx : s'.x = s.x := State.x_ext fun j => he.x j (by simp [hw.x])
    have hp : s'.pinf = s.pinf := State.pinf_ext fun j => he.pinf j (by simp [hw.pinf])
    have hrest := he.rest
    rw [hx, hp] at hrest
    rw [hrest]
    rfl

/-- The window of such a command: beside STATUS only CLEN and the curve registers may read differently. -/
theorem WritesNoOperand.windowWord {i : Instr} {s t : State} (hw : WritesNoOperand i) (h : exec i s = .next t) {off : Nat}
    (h4 : off % 4 = 0) (hs : off ≠ 0x008) (hclen : off = 0x014 → t.clen = s.clen)
    (hcr : 0x500 ≤ off ∧ off < 0x680 → t.cr = s.cr) : t.windowWord off = s.windowWord off := by
  have ht := hw.frame h
  exact State.windowWord_congr h4 hs (by rw [ht]) (by rw [ht]) (fun _ => by rw [ht]) hclen (fun _ _ _ => by rw [ht]; rfl) hcr

/-- Settles O59: none of these commands writes an operand register or an infinity flag, and only CSET and CLOAD validate a curve. -/
theorem controlFrame : Obligations.ControlFrame := by
  refine ⟨fun p c b a s t i hi h => ?_, fun k s t i hi h => ?_⟩
  · simp only [List.mem_cons, List.not_mem_nil, or_false] at hi
    have hw : WritesNoOperand i := by rcases hi with rfl | rfl | rfl <;> exact ⟨rfl, rfl, rfl⟩
    have hv : i.validates = false := by rcases hi with rfl | rfl | rfl <;> rfl
    obtain ⟨_, _, ⟨hcr, hcv, hclen, _⟩, _⟩ := exec_frame hv h
    have ht := hw.frame h
    rw [hcv, hclen, hcr] at ht
    exact ⟨ht, fun off h4 _ hs => hw.windowWord h h4 hs (fun _ => hclen) fun _ => hcr⟩
  · simp only [List.mem_cons, List.not_mem_nil, or_false] at hi
    have hw : WritesNoOperand i := by rcases hi with rfl | rfl <;> exact ⟨rfl, rfl, rfl⟩
    have ht : i.tests = false := by rcases hi with rfl | rfl <;> rfl
    have hcr : i = .cset → t.cr = s.cr := by
      rintro rfl
      exact exec_keeps_cr rfl h
    refine ⟨hw.frame h, hcr, exec_truth_eq_false ht h, fun off h4 _ hs h14 hcset => ?_⟩
    exact hw.windowWord h h4 hs (fun e => absurd e h14) fun hoff => hcr (hcset hoff)

end Sys2Proof.Machine

/-! ## The random scalar and the deterministic nonce (43_random_nonce.md R190 to R198, 44_ecdsa.md R213) -/

namespace Sys2Proof.Machine

/-! ### Draws of the entropy source (R191) -/

theorem bigEndian_eq_sum (byte : Nat → Byte) (start : Nat) : ∀ nb, bigEndian byte start nb =
    ((List.range nb).map fun k => (byte (start + k)).toNat * 256 ^ (nb - 1 - k)).sum
  | 0 => rfl
  | n + 1 => by
    have hshift : ((List.range n).map fun k => (byte (start + k)).toNat * 256 ^ (n - k)).sum = bigEndian byte start n * 256 := by
      rw [bigEndian_eq_sum byte start n, ← List.sum_map_mul_right]
      congr 1
      refine List.map_congr_left fun k hk => ?_
      have hexp : n - k = n - 1 - k + 1 := by have := List.mem_range.1 hk; omega
      rw [hexp, pow_succ, mul_assoc]
    simp [bigEndian, List.range_succ, hshift]

/-- The sampling's attempts are the draws of the least width. -/
theorem State.attempt_eq_drawValue (s : State) (range t : Nat) :
    attempt s.entropyAt range t = s.drawValue (sampleBytes range) t :=
  bigEndian_eq_sum _ _ _

theorem bytesCovering_sampleBytes {range : Nat} (h : 1 ≤ range) : bytesCovering range (sampleBytes range) := by
  obtain ⟨hpos, hleast⟩ := sampleBytes_minimal h
  exact ⟨hpos, range_le_sampleBytes h, hleast⟩

/-- A queue that holds the nb bytes of a value draws that value first. -/
theorem State.drawValue_bytesOf {s : State} {v nb : Nat} (hs : s.entropy = bytesOf v nb) (hv : v < 256 ^ nb) :
    s.drawValue nb 0 = v := by
  have hbytes : ∀ k < nb, s.entropyAt k = BitVec.ofNat 8 (v / 256 ^ (nb - 1 - k)) := fun k hk => by
    rw [State.entropyAt, hs, bytesOf_get v hk]
  calc s.drawValue nb 0 = bigEndian s.entropyAt (0 * nb) nb := (bigEndian_eq_sum _ _ _).symm
    _ = v % 256 ^ nb := by rw [Nat.zero_mul, bigEndian_bytes _ _ _ hbytes]
    _ = v := Nat.mod_eq_of_lt hv

theorem bigEndian_ones {byte : Nat → Byte} {start : Nat} : ∀ {nb}, (∀ k < nb, byte (start + k) = 0xFF#8) →
    bigEndian byte start nb + 1 = 256 ^ nb
  | 0, _ => rfl
  | n + 1, h => by
    have hn : bigEndian byte start n + 1 = 256 ^ n := bigEndian_ones fun k hk => h k (by omega)
    have hlast : (byte (start + n)).toNat = 255 := congrArg BitVec.toNat (h n (by omega))
    rw [bigEndian, hlast, pow_succ, ← hn]
    omega

/-- A queue of 0xFF bytes draws the greatest value of its width, as often as it is long enough for. -/
theorem State.drawValue_ones {s : State} {nb t tries : Nat} (hs : s.entropy = List.replicate (tries * nb) 0xFF#8)
    (ht : t < tries) : s.drawValue nb t + 1 = 256 ^ nb := by
  rw [State.drawValue, ← bigEndian_eq_sum]
  refine bigEndian_ones fun k hk => ?_
  have hlt : t * nb + k < tries * nb := by
    calc t * nb + k < (t + 1) * nb := by rw [Nat.succ_mul]; omega
      _ ≤ tries * nb := Nat.mul_le_mul_right nb ht
  simp [State.entropyAt, hs, List.getD, hlt]

/-! ### RAND (R197) -/

/-- Draw t of a RAND: of the least width that covers 0 .. N − 2 (R191). -/
abbrev State.randDraw (s : State) (t : Nat) : Nat := s.drawValue (sampleBytes (s.curve.n - 1)) t

section
variable {s : State} (hcv : s.cv = true)
include hcv

/-- Everything RAND can answer with the curve loaded, by its draws. -/
theorem exec_rand_draws (d : XReg) :
    (∃ t < 256, s.randDraw t < s.curve.n - 1 ∧ (∀ u < t, s.curve.n - 1 ≤ s.randDraw u) ∧
      exec (.rand d) s =
        .next (((s.drawn ((t + 1) * sampleBytes (s.curve.n - 1))).putX d (1 + s.randDraw t)).succeed false)) ∨
    ((∀ t < 256, s.curve.n - 1 ≤ s.randDraw t) ∧
      exec (.rand d) s = .next ((s.drawn (256 * sampleBytes (s.curve.n - 1))).takeError .retryExhausted)) := by
  simpa only [State.attempt_eq_drawValue, Config.maxTries] using exec_rand_loaded d hcv

theorem exec_rand_accepted (d : XReg) {t : Nat} (ht : t < 256) (hacc : s.randDraw t < s.curve.n - 1)
    (hrej : ∀ u < t, s.curve.n - 1 ≤ s.randDraw u) :
    exec (.rand d) s =
      .next (((s.drawn ((t + 1) * sampleBytes (s.curve.n - 1))).putX d (1 + s.randDraw t)).succeed false) := by
  rcases exec_rand_draws hcv d with ⟨u, _, hu, hbefore, hexec⟩ | ⟨hnone, _⟩
  · obtain hlt | rfl | hgt := Nat.lt_trichotomy u t
    · exact absurd hu (hrej u hlt).not_gt
    · exact hexec
    · exact absurd hacc (hbefore t hgt).not_gt
  · exact absurd hacc (hnone t ht).not_gt

theorem exec_rand_exhausted (d : XReg) (hrej : ∀ t < 256, s.curve.n - 1 ≤ s.randDraw t) :
    exec (.rand d) s = .next ((s.drawn (256 * sampleBytes (s.curve.n - 1))).takeError .retryExhausted) := by
  rcases exec_rand_draws hcv d with ⟨t, ht, hacc, _⟩ | ⟨_, hexec⟩
  · exact absurd hacc (hrej t ht).not_gt
  · exact hexec

end

/-- Settles O43: RAND samples with the least width, and its first accepted draw is the only one that can be. -/
theorem randResult : Obligations.RandResult := by
  intro d s hinv hcv
  have hn : 2 ≤ s.curve.n := State.two_le_modulus hinv hcv .n
  exact ⟨encode_and_mask (.rand d), sampleBytes (s.curve.n - 1), bytesCovering_sampleBytes (by omega),
    fun _ ht hacc hrej => exec_rand_accepted hcv d ht hacc hrej, exec_rand_exhausted hcv d⟩

theorem State.fits_of_inScalarRange (s : State) {v : Nat} (hv : inScalarRange s.curve v) : v < 2 ^ 384 := by
  have hlt : v < s.curve.n := by omega
  exact State.fits_of_lt_modulus (m := .n) hlt

/-- An accepted draw reads back from the destination as 1 plus it. -/
theorem State.xVal_put_draw (s : State) (d : XReg) (k : Nat) {v : Nat} (hv : v < s.curve.n - 1) :
    (((s.drawn k).putX d (1 + v)).succeed false).xVal d = 1 + v :=
  State.xVal_putX_self _ d (s.fits_of_inScalarRange ⟨by omega, by omega⟩)

theorem exec_rand_outcome {s t : State} (hcv : s.cv = true) {d : XReg} (h : exec (.rand d) s = .next t) :
    (t.err = false ∧ 1 ≤ t.xVal d ∧ t.xVal d ≤ s.curve.n - 1) ∨ (t.err = true ∧ t.errcode = 8#8) := by
  rcases exec_rand_draws hcv d with ⟨u, _, hacc, _, hexec⟩ | ⟨_, hexec⟩
  · obtain rfl := Host.Outcome.next.inj (hexec.symm.trans h)
    rw [s.xVal_put_draw d _ hacc]
    exact .inl ⟨rfl, by omega, by omega⟩
  · obtain rfl := Host.Outcome.next.inj (hexec.symm.trans h)
    exact .inr ⟨rfl, rfl⟩

/-- The bytes of v − 1 make RAND draw v (R196). -/
theorem exec_rand_bytesOf {s : State} (hcv : s.cv = true) (d : XReg) {v : Nat} (h1 : 1 ≤ v) (hv : v ≤ s.curve.n - 1)
    (hs : s.entropy = bytesOf (v - 1) (sampleBytes (s.curve.n - 1))) :
    ∃ t, exec (.rand d) s = .next t ∧ t.err = false ∧ t.xVal d = v := by
  have hcover := range_le_sampleBytes (range := s.curve.n - 1) (by omega)
  have hdraw : s.randDraw 0 = v - 1 := State.drawValue_bytesOf hs (by omega)
  have hacc : s.randDraw 0 < s.curve.n - 1 := by omega
  refine ⟨_, exec_rand_accepted hcv d (by omega) hacc nofun, rfl, ?_⟩
  rw [s.xVal_put_draw d _ hacc]
  omega

/-- 256 draws of 0xFF bytes are all rejected, unless N − 1 fills the width (R196). -/
theorem exec_rand_ones {s : State} (hcv : s.cv = true) (d : XReg) (hn : 2 ≤ s.curve.n)
    (hpow : ∀ n, 1 ≤ n → s.curve.n - 1 ≠ 256 ^ n)
    (hs : s.entropy = List.replicate (256 * sampleBytes (s.curve.n - 1)) 0xFF#8) :
    ∃ t, exec (.rand d) s = .next t ∧ t.err = true ∧ t.errcode = 8#8 := by
  obtain ⟨hpos, hcover, _⟩ := bytesCovering_sampleBytes (range := s.curve.n - 1) (by omega)
  refine ⟨_, exec_rand_exhausted hcv d fun t ht => ?_, rfl, rfl⟩
  have hmax : s.randDraw t + 1 = _ := State.drawValue_ones hs ht
  have hne := hpow _ hpos
  omega

/-- Settles O44: the entropy queue can hold any draw, and a draw of 0xFF bytes is accepted only where N − 1 is 256 to the width. -/
theorem randOutcomeSet : Obligations.RandOutcomeSet := by
  intro d s hinv hcv
  refine ⟨fun v h1 hv => ?_, fun t => exec_rand_outcome hcv, fun hpow => ?_⟩
  · exact ⟨_, exec_rand_bytesOf (s := { s with entropy := bytesOf (v - 1) (sampleBytes (s.curve.n - 1)) }) hcv d h1 hv rfl⟩
  · have hn : 2 ≤ s.curve.n := State.two_le_modulus hinv hcv .n
    exact ⟨_, exec_rand_ones (s := { s with entropy := List.replicate (256 * sampleBytes (s.curve.n - 1)) 0xFF#8 }) hcv d hn hpow
      rfl⟩

/-! ### NONCE (R193, R198) -/

section
variable {s : State} (hcv : s.cv = true)
include hcv

theorem exec_nonce_invalidKey (d a : XReg) {b : XReg} (hkey : ¬ inScalarRange s.curve (s.xVal b)) :
    exec (.nonce d a b) s = .next (s.takeError .invalidKey) := by
  simp only [exec, execNonce, State.curveCommand_loaded hcv, State.secret, State.scalarIn_out hkey, error_bind, State.finish_error]

/-- With a valid key the nonce search decides. -/
theorem exec_nonce_key (d a : XReg) {b : XReg} (hkey : inScalarRange s.curve (s.xVal b)) :
    exec (.nonce d a b) s = s.finish ((firstNonce (s.candidate a b) s.curve.n 0).bind fun k => .ok (s.putX d k.1, false)) := by
  simp only [exec, execNonce, State.curveCommand_loaded hcv, State.secret, State.scalarIn_ok hkey, ok_bind]
  rfl

end

/-- Settles O45: the key check comes first, then the search through the candidates. -/
theorem nonceResult : Obligations.NonceResult := by
  intro d a b s hcv
  refine ⟨encode_and_mask (.nonce d a b), exec_nonce_invalidKey hcv d a, fun hkey => ?_⟩
  rw [exec_nonce_key hcv d a hkey]
  rcases firstNonce_spec (s.candidate a b) s.curve.n 0 with ⟨i, _, hi, hin, hbefore, hfirst⟩ | ⟨hnone, hfirst⟩
  · rw [hfirst]
    exact ⟨_, rfl, .inl ⟨i, hi, hin, fun j => hbefore j (Nat.zero_le j), rfl⟩⟩
  · rw [hfirst]
    exact ⟨_, rfl, .inr ⟨fun i => hnone i (Nat.zero_le i), rfl⟩⟩

/-! ### SIGN (R194, R213) -/

theorem exec_sign_ok {d : SReg} {a b : XReg} {s : State} {rs : Nat × Nat}
    (h : signResult s.curve s.cv (s.xVal a) (s.xVal b) = .ok rs) :
    exec (.sign d a b) s = .next ((s.putPair d rs.1 rs.2).succeed false) := by
  rw [exec_sign_eq, h]
  rfl

theorem exec_sign_error {d : SReg} {a b : XReg} {s : State} {e : ErrCode}
    (h : signResult s.curve s.cv (s.xVal a) (s.xVal b) = .error e) : exec (.sign d a b) s = .next (s.takeError e) := by
  rw [exec_sign_eq, h]
  rfl

/-- A signature that SIGN computes is in [1, N − 1] (R212). -/
theorem signResult_range {c : CurveVal} {cv : Bool} {e d r t : Nat} (h : signResult c cv e d = .ok (r, t)) :
    inScalarRange c r ∧ inScalarRange c t := by
  unfold signResult at h
  split at h
  · split at h
    · next hkey =>
      rcases signWith_spec c (nonceCandidate c d e) e d with ⟨u, rs, _, _, hcore, _, hw⟩ | ⟨_, _, _, _, _, hw⟩ | ⟨_, hw⟩
      · obtain rfl := Except.ok.inj (hw.symm.trans h)
        exact signCore_range (by omega) hcore
      · cases hw.symm.trans h
      · cases hw.symm.trans h
    · cases h
  · cases h

/-- Settles O52: what SIGN computes is a function of the curve, CV, the digest and the key, and a signature reads back from any pair
register. -/
theorem signingIsDeterministic : Obligations.SigningIsDeterministic := by
  intro d d' a b a' b' s s' hcr hcv ha hb
  have hcurve : s.curve = s'.curve := congrArg CurveRegs.val hcr
  rcases h : signResult s.curve s.cv (s.xVal a) (s.xVal b) with e | ⟨r, u⟩
  all_goals
    have h' := h
    rw [hcurve, hcv, ha, hb] at h'
  · exact ⟨_, _, exec_sign_error h, exec_sign_error h', rfl, rfl, rfl, rfl, nofun⟩
  · refine ⟨_, _, exec_sign_ok h, exec_sign_ok h', rfl, rfl, rfl, rfl, fun _ => ?_⟩
    obtain ⟨hr, hu⟩ := signResult_range h
    have hr := s.fits_of_inScalarRange hr
    have hu := s.fits_of_inScalarRange hu
    exact ⟨(State.pairLo_putPair_self s d u hr).trans (State.pairLo_putPair_self s' d' u hr).symm,
      (State.pairHi_putPair_self s d r hu).trans (State.pairHi_putPair_self s' d' r hu).symm⟩

end Sys2Proof.Machine

/-! ## Results of the ECDSA commands, and the round trip (44_ecdsa.md R210 to R218) -/

namespace Sys2Proof.Machine

/-! ### PUBK (R210) -/

section
variable {s : State} (hcv : s.cv = true)
include hcv

theorem exec_pubk_invalidKey (d : PReg) {a : XReg} (hkey : ¬ inScalarRange s.curve (s.xVal a)) :
    exec (.pubk d a) s = .next (s.takeError .invalidKey) := by
  simp only [exec, execPubk, State.curveCommand_loaded hcv, State.secret, State.scalarIn_out hkey, error_bind, State.finish_error]

theorem exec_pubk_key (d : PReg) {a : XReg} (hkey : inScalarRange s.curve (s.xVal a)) :
    exec (.pubk d a) s = s.finishPoint d (scalarMultiply s.curve (basePoint s.curve) (s.xVal a)) := by
  simp only [exec, execPubk, State.curveCommand_loaded hcv, State.secret, State.scalarIn_ok hkey, ok_bind]
  rfl

theorem exec_pubk_ok (d : PReg) {a : XReg} (hkey : inScalarRange s.curve (s.xVal a)) {r : Point}
    (hr : scalarMultiply s.curve (basePoint s.curve) (s.xVal a) = .ok r) :
    exec (.pubk d a) s = .next ((s.putPoint d r).succeed false) := by
  rw [exec_pubk_key hcv d hkey, hr, State.finishPoint_ok]

end

/-- Settles O46: the key check comes first, then scalarMultiply's answer decides; G and a public key are points of the curve. -/
theorem pubkResult : Obligations.PubkResult := by
  intro d a s hinv hcv
  refine ⟨encode_and_mask (.pubk d a), exec_pubk_invalidKey hcv d, fun hkey => ?_⟩
  refine ⟨fun r hr => exec_pubk_ok hcv d hkey hr, fun e he => ?_, fun hprime => ?_, fun hcurve => ?_⟩
  · exact (exec_pubk_key hcv d hkey).trans (congrArg _ he)
  · have hok := (hinv.1 hcv).1
    obtain ⟨_, ho, _⟩ := curveOK_spec hok
    obtain ⟨r, hr, _⟩ := scalarMultiply_ok hprime ho (canonical_base hok) (s.xVal a)
    exact ⟨r, hr, exec_pubk_ok hcv d hkey hr⟩
  · have : Fact s.curve.p.Prime := ⟨hcurve.primeP⟩
    obtain ⟨r, hr, hon⟩ := hcurve.publicKey hkey
    exact ⟨r, hr, onCurve_iff_onR163.1 hon⟩

/-! ### One signing attempt (R212) -/

section
variable {c : CurveVal} {e d k : Nat}

theorem signCore_multiply_error {err : ErrCode} (h : scalarMultiply c (basePoint c) k = .error err) :
    signCore c e d k = .error err := by
  rw [signCore, h, error_bind]

theorem signCore_inf (h : scalarMultiply c (basePoint c) k = .ok .inf) : signCore c e d k = .ok none := by
  rw [signCore, h, ok_bind]
  rfl

variable {px py : Nat} (h : scalarMultiply c (basePoint c) k = .ok (.aff px py))
include h

theorem signCore_zero (hr : px % c.n = 0) : signCore c e d k = .ok none := by
  rw [signCore, h, ok_bind]
  exact if_pos hr

variable (hr : px % c.n ≠ 0)
include hr

theorem signCore_notInvertible (hg : Nat.gcd k c.n ≠ 1) : signCore c e d k = .error .notInvertible := by
  rw [signCore, h, ok_bind]
  refine (if_neg hr).trans ?_
  rw [inv_error hg, error_bind]

/-- With r ≠ 0 and the nonce's inverse, s decides. -/
theorem signCore_inverse {kinv t : Nat} (hinv : inv k c.n = .ok kinv) (ht : kinv * ((e + px % c.n * d) % c.n) % c.n = t) :
    signCore c e d k = if t = 0 then .ok none else .ok (some (px % c.n, t)) := by
  rw [signCore, h, ok_bind]
  refine (if_neg hr).trans ?_
  rw [hinv, ok_bind, ht]
  rfl

end

/-- Multiplying by the inverse, then by k, gives the residue back. -/
theorem inverse_mul_cancel {n k kinv : Nat} (hinv : k * kinv % n = 1) (v : Nat) : kinv * (v % n) % n * k % n = v % n := by
  calc kinv * (v % n) % n * k % n = k * kinv % n * v % n := by
        simp only [Nat.mod_mul_mod, Nat.mul_mod_mod]
        congr 1
        ring
    _ = v % n := by rw [hinv, Nat.one_mul]

/-- Settles O47: k·G decides, then r, then the inverse of k, then s. -/
theorem signAttempt : Obligations.SignAttempt := by
  intro c e d k hn _ hk
  refine ⟨fun err => signCore_multiply_error, signCore_inf, fun px py h => ⟨signCore_zero h, signCore_notInvertible h, fun hr hg => ?_⟩⟩
  obtain ⟨kinv, hkinv, _, hmul⟩ := inv_ok hn (by omega) hg
  have hcore := signCore_inverse (e := e) (d := d) h hr hkinv rfl
  exact ⟨_, Nat.mod_lt _ (by omega), inverse_mul_cancel hmul _, fun ht => hcore.trans (if_pos ht),
    fun ht => hcore.trans (if_neg ht)⟩

/-- Over primes P and N an attempt with a nonce in range is no error (R212). -/
theorem signCore_ne_error {c : CurveVal} (hok : curveOK c = true) (hp : c.p.Prime) (hN : c.n.Prime) {e d k : Nat}
    (hk : inScalarRange c k) (err : ErrCode) : signCore c e d k ≠ .error err := by
  obtain ⟨o, ho⟩ := signCore_prime (e := e) (d := d) hok hp hN hk
  rw [ho]
  nofun

/-! ### SIGN (R213) -/

theorem signResult_invalidKey {c : CurveVal} {e d : Nat} (hkey : ¬ inScalarRange c d) :
    signResult c true e d = .error .invalidKey := if_neg hkey

theorem signResult_key {c : CurveVal} {e d : Nat} (hkey : inScalarRange c d) :
    signResult c true e d = signWith c (nonceCandidate c d e) e d := if_pos hkey

section
variable {s : State} (hcv : s.cv = true)
include hcv

theorem exec_sign_invalidKey (d : SReg) (a : XReg) {b : XReg} (hkey : ¬ inScalarRange s.curve (s.xVal b)) :
    exec (.sign d a b) s = .next (s.takeError .invalidKey) :=
  exec_sign_error (by rw [hcv, signResult_invalidKey hkey])

variable {a b : XReg} (hkey : inScalarRange s.curve (s.xVal b))
include hkey

theorem exec_sign_signature (d : SReg) {r u : Nat}
    (h : signWith s.curve (s.candidate a b) (s.xVal a) (s.xVal b) = .ok (r, u)) :
    exec (.sign d a b) s = .next ((s.putPair d r u).succeed false) :=
  exec_sign_ok (by rw [hcv, signResult_key hkey]; exact h)

theorem exec_sign_fails (d : SReg) {e : ErrCode}
    (h : signWith s.curve (s.candidate a b) (s.xVal a) (s.xVal b) = .error e) :
    exec (.sign d a b) s = .next (s.takeError e) :=
  exec_sign_error (by rw [hcv, signResult_key hkey]; exact h)

end

end Sys2Proof.Machine

namespace Sys2Proof

open Machine

/-- Settles O48: the key check comes first, then the loop through the candidates; over primes no attempt is an error. The name is
that of the model's `Machine.signResult`, so the theorem stands outside that namespace. -/
theorem signResult : Obligations.SignResult := by
  intro d a b s hinv hcv
  have hok := (hinv.1 hcv).1
  have hn : 2 ≤ s.curve.n := State.two_le_modulus hinv hcv .n
  refine ⟨encode_and_mask (.sign d a b), exec_sign_invalidKey hcv d a, fun hkey => ?_⟩
  rcases signWith_spec s.curve (s.candidate a b) (s.xVal a) (s.xVal b) with ⟨i, ⟨r, u⟩, hi, hin, hcore, hbefore, hsig⟩ |
    ⟨i, hi, hin, hcore, hbefore, herr⟩ | ⟨hnone, herr⟩
  · obtain ⟨hr, hu⟩ := signCore_range (by omega) hcore
    exact ⟨_, exec_sign_signature hcv hkey d hsig, .inl ⟨i, hi, r, u, hin, hcore, hbefore, hr, hu, rfl⟩⟩
  · exact ⟨_, exec_sign_fails hcv hkey d herr, .inr (.inl ⟨⟨i, hi, hin, hcore, hbefore⟩, rfl,
      fun ⟨hp, hN⟩ => signCore_ne_error hok hp hN hin _ hcore⟩)⟩
  · exact ⟨_, exec_sign_fails hcv hkey d herr, .inr (.inr ⟨hnone, rfl⟩)⟩

end Sys2Proof

namespace Sys2Proof.Machine

/-! ### SIGNK (R214) -/

/-- The completion that writes an attempt's signature to s[d]; a failed attempt is INVALID_NONCE. -/
def State.finishAttempt (s : State) (d : SReg) : Except ErrCode (Option (Nat × Nat)) → Answer
  | .error e => .next (s.takeError e)
  | .ok none => .next (s.takeError .invalidNonce)
  | .ok (some rs) => .next ((s.putPair d rs.1 rs.2).succeed false)

section
variable {s : State} (hcv : s.cv = true)
include hcv

theorem exec_signk_invalidKey (d : SReg) (a c : XReg) {b : XReg} (hkey : ¬ inScalarRange s.curve (s.xVal b)) :
    exec (.signk d a b c) s = .next (s.takeError .invalidKey) := by
  simp only [exec, execSignk, State.curveCommand_loaded hcv, State.secret, State.scalarIn_out hkey, error_bind, State.finish_error]

variable {b c : XReg} (hkey : inScalarRange s.curve (s.xVal b))
include hkey

theorem exec_signk_invalidNonce (d : SReg) (a : XReg) (hnonce : ¬ inScalarRange s.curve (s.xVal c)) :
    exec (.signk d a b c) s = .next (s.takeError .invalidNonce) := by
  simp only [exec, execSignk, State.curveCommand_loaded hcv, State.secret, State.scalarIn_ok hkey, State.scalarIn_out hnonce, ok_bind,
    error_bind, State.finish_error]

theorem exec_signk_attempt (d : SReg) (a : XReg) (hnonce : inScalarRange s.curve (s.xVal c)) :
    exec (.signk d a b c) s = s.finishAttempt d (signCore s.curve (s.xVal a) (s.xVal b) (s.xVal c)) := by
  simp only [exec, execSignk, State.curveCommand_loaded hcv, State.secret, State.scalarIn_ok hkey, State.scalarIn_ok hnonce, ok_bind]
  rcases signCore s.curve (s.xVal a) (s.xVal b) (s.xVal c) with e | _ | rs <;> rfl

end

/-- Settles O49: the key check, the nonce check, then the attempt; over primes the attempt is no error. -/
theorem signkResult : Obligations.SignkResult := by
  intro d a b c s hinv hcv
  have hok := (hinv.1 hcv).1
  have hn : 2 ≤ s.curve.n := State.two_le_modulus hinv hcv .n
  refine ⟨encode_and_mask (.signk d a b c), exec_signk_invalidKey hcv d a c, fun hkey => exec_signk_invalidNonce hcv hkey d a,
    fun hkey hnonce => ?_⟩
  have hexec := exec_signk_attempt hcv hkey d a hnonce
  refine ⟨fun r u hcore => ?_, fun hcore => ?_, fun e hcore => ?_, fun hp hN => signCore_prime hok hp hN hnonce⟩
  · obtain ⟨hr, hu⟩ := signCore_range (by omega) hcore
    exact ⟨hr, hu, hexec.trans (congrArg _ hcore)⟩
  · exact hexec.trans (congrArg _ hcore)
  · exact hexec.trans (congrArg _ hcore)

/-! ### VERIFY (R216, R217) -/

section
variable {s : State} (hcv : s.cv = true)
include hcv

theorem exec_verify_invalidKey (a : XReg) (b : SReg) {c : PReg} (hkey : ¬ onCurve s.curve (s.point c) = true) :
    exec (.verify a b c) s = .next (s.takeError .invalidKey) := by
  simp only [exec, execVerify, State.curveCommand_loaded hcv, if_neg hkey, State.finish_error]

variable {a : XReg} {b : SReg} {c : PReg} (hkey : onCurve s.curve (s.point c) = true)
include hkey

theorem exec_verify_ok {t : Bool} (h : verifyCore s.curve (s.xVal a) (s.pairLo b) (s.pairHi b) (s.point c) = .ok t) :
    exec (.verify a b c) s = .next (s.succeed t) := by
  simp only [exec, execVerify, State.curveCommand_loaded hcv, if_pos hkey, h, ok_bind, pure_eq_ok, State.finish_ok]

theorem exec_verify_error {e : ErrCode} (h : verifyCore s.curve (s.xVal a) (s.pairLo b) (s.pairHi b) (s.point c) = .error e) :
    exec (.verify a b c) s = .next (s.takeError e) := by
  simp only [exec, execVerify, State.curveCommand_loaded hcv, if_pos hkey, h, error_bind, State.finish_error]

end

section
variable {s : State} {b : SReg} (hr : inScalarRange s.curve (s.pairLo b)) (hu : inScalarRange s.curve (s.pairHi b))
include hr hu

theorem verifyCore_notInvertible (hg : Nat.gcd (s.pairHi b) s.curve.n ≠ 1) (e : Nat) (q : Point) :
    verifyCore s.curve e (s.pairLo b) (s.pairHi b) q = .error .notInvertible := by
  rw [verifyCore, if_pos ⟨hr.1, hr.2, hu⟩, inv_error hg, error_bind]

/-- A signature in range, with w the inverse of s: the point u1·G + u2·Q decides. -/
theorem verifyCore_eq_verifyPoint {w : Nat} (hw : inv (s.pairHi b) s.curve.n = .ok w) (a : XReg) (c : PReg) :
    verifyCore s.curve (s.xVal a) (s.pairLo b) (s.pairHi b) (s.point c) =
      (s.verifyPoint a b c w).bind fun pt => .ok (xModN s.curve pt == some (s.pairLo b)) := by
  rw [verifyCore, if_pos ⟨hr.1, hr.2, hu⟩, hw, ok_bind, State.verifyPoint, ← basePoint]
  cases scalarMultiply s.curve (basePoint s.curve) (s.xVal a * w % s.curve.n) with
  | error e => rfl
  | ok p1 =>
    cases scalarMultiply s.curve (s.point c) (s.pairLo b * w % s.curve.n) with
    | error e => rfl
    | ok p2 => rfl

end

/-- Over a prime P no step to u1·G + u2·Q fails. -/
theorem State.verifyPoint_ok {s : State} (hok : curveOK s.curve = true) (hprime : s.curve.p.Prime) {c : PReg}
    (hkey : onCurve s.curve (s.point c) = true) (a : XReg) (b : SReg) (w : Nat) : ∃ pt, s.verifyPoint a b c w = .ok pt := by
  obtain ⟨_, ho, _⟩ := curveOK_spec hok
  obtain ⟨p1, hp1, hc1⟩ := scalarMultiply_ok hprime ho (canonical_base hok) (s.xVal a * w % s.curve.n)
  obtain ⟨p2, hp2, hc2⟩ := scalarMultiply_ok hprime ho (onCurve_canonical hkey) (s.pairLo b * w % s.curve.n)
  obtain ⟨pt, hpt, _⟩ := pointAdd_ok hprime ho hc1 hc2
  refine ⟨pt, ?_⟩
  rw [State.verifyPoint, ← basePoint, hp1, Except.bind, hp2]
  exact hpt

/-- Settles O50: the key check, the range check, the inverse of s, then the point's x modulo N. -/
theorem verifyResult : Obligations.VerifyResult := by
  intro a b c s hinv hcv
  have hok := (hinv.1 hcv).1
  have hn : 2 ≤ s.curve.n := State.two_le_modulus hinv hcv .n
  refine ⟨encode_and_mask (.verify a b c), fun hkey => exec_verify_invalidKey hcv a b (mt onCurve_iff_onR163.1 hkey), fun hon => ?_⟩
  have hkey := onCurve_iff_onR163.2 hon
  refine ⟨fun hout => exec_verify_ok hcv hkey (verifyCore_range hout), fun hr hu => ⟨fun hg => ?_, fun hg => ?_⟩⟩
  · exact exec_verify_error hcv hkey (verifyCore_notInvertible hr hu hg _ _)
  · obtain ⟨w, hw, hlt, hmul⟩ := inv_ok hn (by omega) hg
    have hcore := verifyCore_eq_verifyPoint hr hu hw a c
    have decided {pt : Point} (hpt : s.verifyPoint a b c w = .ok pt) :
        exec (.verify a b c) s = .next (s.succeed (xModN s.curve pt == some (s.pairLo b))) :=
      exec_verify_ok hcv hkey (by rw [hcore, hpt]; rfl)
    refine ⟨w, hlt, hmul, fun e he => ?_, fun hinf => decided hinf, fun px py hpt => ⟨fun hx => ?_, fun hx => ?_⟩,
      fun hprime => State.verifyPoint_ok hok hprime hkey a b w⟩
    · exact exec_verify_error hcv hkey (by rw [hcore, he]; rfl)
    · rw [decided hpt, xModN, hx, beq_self_eq_true]
    · rw [decided hpt, xModN, beq_false_of_ne (by simpa using hx)]

/-! ### A signature verifies (R218) -/

theorem State.xVal_putPoint_ne (s : State) {i : PReg} (p : Point) {j : XReg} (hl : j ≠ loReg i) (hh : j ≠ hiReg i) :
    (s.putPoint i p).xVal j = s.xVal j := congrArg BitVec.toNat (s.getX_putPoint_ne p hl hh)

theorem State.xVal_putPair_ne (s : State) {i : SReg} (r t : Nat) {j : XReg} (hl : j ≠ loReg i) (hh : j ≠ hiReg i) :
    (s.putPair i r t).xVal j = s.xVal j := congrArg BitVec.toNat (s.getX_putPair_ne r t hl hh)

theorem State.point_putPair_ne (s : State) {i : SReg} {j : PReg} (r t : Nat) (h : j ≠ i) : (s.putPair i r t).point j = s.point j := by
  have hlo : (s.putPair i r t).xVal (loReg j) = s.xVal (loReg j) := s.xVal_putPair_ne r t (mt loReg_inj.1 h) (loReg_ne_hiReg j i)
  have hhi : (s.putPair i r t).xVal (hiReg j) = s.xVal (hiReg j) := s.xVal_putPair_ne r t (loReg_ne_hiReg i j).symm (mt hiReg_inj.1 h)
  rw [State.point, State.point, s.getPinf_putPair, hlo, hhi]

/-- VERIFY is true of an attempt's signature and the key's public key, wherever they are read from. -/
theorem exec_verify_signature {s : State} {xe : XReg} {sd : SReg} {q : PReg} {d k : Nat} (hcv : s.cv = true)
    (hcurve : PrimeCurve s.curve) (hd : inScalarRange s.curve d) (hk : inScalarRange s.curve k)
    (hQ : scalarMultiply s.curve (basePoint s.curve) d = .ok (s.point q))
    (hcore : signCore s.curve (s.xVal xe) d k = .ok (some (s.pairLo sd, s.pairHi sd))) :
    exec (.verify xe sd q) s = .next (s.succeed true) := by
  have : Fact s.curve.p.Prime := ⟨hcurve.primeP⟩
  obtain ⟨Q, hQ', hon⟩ := hcurve.publicKey hd
  obtain rfl : s.point q = Q := Except.ok.inj (hQ.symm.trans hQ')
  exact exec_verify_ok hcv hon (hcurve.verify_signCore hd hk hQ hcore)

/-- On a curve of R218, x[xd] holds a secret and p[q] its public key. -/
structure State.HoldsKeyPair (s : State) (q : PReg) (xd : XReg) : Prop where
  cv : s.cv = true
  curve : PrimeCurve s.curve
  secret : inScalarRange s.curve (s.xVal xd)
  publicKey : scalarMultiply s.curve (basePoint s.curve) (s.xVal xd) = .ok (s.point q)

/-- PUBK makes a key pair of a secret in range. -/
theorem exec_pubk_holdsKeyPair {s : State} {q : PReg} {xd : XReg} (hcv : s.cv = true) (hcurve : PrimeCurve s.curve)
    (hkey : inScalarRange s.curve (s.xVal xd)) (hlo : xd ≠ loReg q) (hhi : xd ≠ hiReg q) :
    ∃ Q, exec (.pubk q xd) s = .next ((s.putPoint q Q).succeed false) ∧ ((s.putPoint q Q).succeed false).HoldsKeyPair q xd := by
  have : Fact s.curve.p.Prime := ⟨hcurve.primeP⟩
  obtain ⟨Q, hQ, hon⟩ := hcurve.publicKey hkey
  have hx : ((s.putPoint q Q).succeed false).xVal xd = s.xVal xd := s.xVal_putPoint_ne Q hlo hhi
  have hpoint : ((s.putPoint q Q).succeed false).point q = Q := s.point_putPoint_self q (onCurve_canonical hon).fits
  have hc : ((s.putPoint q Q).succeed false).curve = s.curve := s.curve_putPoint q Q
  refine ⟨Q, exec_pubk_ok hcv q hkey hQ, by simpa using hcv, by rwa [hc], by rwa [hc, hx], by rwa [hc, hx, hpoint]⟩

section
variable {s : State} {q : PReg} {xd : XReg} (hpair : s.HoldsKeyPair q xd)
include hpair

variable {sd : SReg} {xe : XReg} (hlo : xe ≠ loReg sd) (hhi : xe ≠ hiReg sd) (hq : q ≠ sd)
include hlo hhi hq

/-- The signature of an attempt verifies where the command has written it. -/
theorem State.HoldsKeyPair.exec_verify {k r t : Nat} (hk : inScalarRange s.curve k)
    (hcore : signCore s.curve (s.xVal xe) (s.xVal xd) k = .ok (some (r, t))) :
    exec (.verify xe sd q) ((s.putPair sd r t).succeed false) = .next (((s.putPair sd r t).succeed false).succeed true) := by
  have hn := hpair.curve.primeN.two_le
  obtain ⟨hr, ht⟩ := signCore_range (by omega) hcore
  have hxe : ((s.putPair sd r t).succeed false).xVal xe = s.xVal xe := s.xVal_putPair_ne r t hlo hhi
  have hpoint : ((s.putPair sd r t).succeed false).point q = s.point q := s.point_putPair_ne r t hq
  have hsigLo : ((s.putPair sd r t).succeed false).pairLo sd = r := s.pairLo_putPair_self sd t (s.fits_of_inScalarRange hr)
  have hsigHi : ((s.putPair sd r t).succeed false).pairHi sd = t := s.pairHi_putPair_self sd r (s.fits_of_inScalarRange ht)
  refine exec_verify_signature (d := s.xVal xd) hpair.cv hpair.curve hpair.secret hk ?_ ?_
  · rw [hpoint]
    exact hpair.publicKey
  · rw [hxe, hsigLo, hsigHi]
    exact hcore

/-- SIGN ends in RETRY_EXHAUSTED or in a signature that verifies. -/
theorem State.HoldsKeyPair.exec_sign : ∃ s2, exec (.sign sd xe xd) s = .next s2 ∧
    ((s2.err = true ∧ s2.errcode = 8#8) ∨ (s2.err = false ∧ exec (.verify xe sd q) s2 = .next (s2.succeed true))) := by
  have hcurve := hpair.curve
  rcases signWith_spec s.curve (s.candidate xe xd) (s.xVal xe) (s.xVal xd) with ⟨i, ⟨r, t⟩, _, hin, hcore, _, hsig⟩ |
    ⟨i, _, hin, hcore, _⟩ | ⟨_, herr⟩
  · exact ⟨_, exec_sign_signature hpair.cv hpair.secret sd hsig, .inr ⟨rfl, hpair.exec_verify hlo hhi hq hin hcore⟩⟩
  · exact absurd hcore (signCore_ne_error hcurve.ok hcurve.primeP hcurve.primeN hin _)
  · exact ⟨_, exec_sign_fails hpair.cv hpair.secret sd herr, .inl ⟨rfl, rfl⟩⟩

/-- SIGNK ends in INVALID_NONCE or in a signature that verifies. -/
theorem State.HoldsKeyPair.exec_signk {xk : XReg} (hk : inScalarRange s.curve (s.xVal xk)) :
    ∃ s2, exec (.signk sd xe xd xk) s = .next s2 ∧
      ((s2.err = true ∧ s2.errcode = 9#8) ∨ (s2.err = false ∧ exec (.verify xe sd q) s2 = .next (s2.succeed true))) := by
  have hcurve := hpair.curve
  have hexec := exec_signk_attempt hpair.cv hpair.secret sd xe hk
  obtain ⟨o, hcore⟩ := signCore_prime (e := s.xVal xe) (d := s.xVal xd) hcurve.ok hcurve.primeP hcurve.primeN hk
  rw [hcore] at hexec
  cases o with
  | none => exact ⟨_, hexec, .inl ⟨rfl, rfl⟩⟩
  | some rs => exact ⟨_, hexec, .inr ⟨rfl, hpair.exec_verify hlo hhi hq hk hcore⟩⟩

end

/-- Settles O55: PUBK makes a key pair, which SIGN and SIGNK find with the digest and the nonce unchanged. -/
theorem signatureVerifies : Obligations.SignatureVerifies := by
  intro q sd xe xd xk s hcv hcurve hkey hnonce hregs hlo hhi hq
  obtain ⟨hdlo, hdhi⟩ := hregs xd (by simp)
  obtain ⟨hklo, hkhi⟩ := hregs xk (by simp)
  obtain ⟨Q, hpubk, hpair⟩ := exec_pubk_holdsKeyPair hcv hcurve hkey hdlo hdhi
  have hk : ((s.putPoint q Q).succeed false).xVal xk = s.xVal xk := s.xVal_putPoint_ne Q hklo hkhi
  have hc : ((s.putPoint q Q).succeed false).curve = s.curve := s.curve_putPoint q Q
  exact ⟨_, hpubk, rfl, hpair.exec_sign hlo hhi hq, hpair.exec_signk hlo hhi hq (by rwa [hc, hk])⟩

end Sys2Proof.Machine

/-! ## Errors and the interrupt line (60_exceptions.md R230, R233, R240) -/

namespace Sys2Proof.Machine

/-! ### Precise errors (R233) -/

/-- A completion with ERR = 1 is the shared error operation, after k entropy bytes drawn. -/
theorem State.complete_error {s t : State} (h : s.complete = .next t) (herr : t.err = true) :
    ∃ k e, t = (s.drawn k).takeError e := by
  rcases s.complete_cases with ⟨k, e, he⟩ | ⟨k, i, s', b, _, _, he⟩
  · exact ⟨k, e, Host.Outcome.next.inj (h.symm.trans he)⟩
  · obtain rfl := Host.Outcome.next.inj (he.symm.trans h)
    cases herr

/-- A word that is not a RAND completes without a draw, whether it is a command or not. -/
theorem State.complete_keeps_entropy {s t : State} (h : s.complete = .next t)
    (hrand : ∀ d, decode s.lastcmd ≠ .command (.rand d)) : t.entropy = s.entropy ∧ t.entropyDrawn = s.entropyDrawn := by
  cases hd : decode s.lastcmd with
  | command i =>
    have hi : ∀ d, i ≠ .rand d := fun d hir => hrand d (hir ▸ hd)
    exact exec_keeps_entropy (drawsEntropy_eq_false hi) ((State.complete_command hd).symm.trans h)
  | illegalOpcode =>
    obtain rfl := Host.Outcome.next.inj ((State.complete_illegalOpcode hd).symm.trans h)
    exact ⟨rfl, rfl⟩
  | illegalOperand =>
    obtain rfl := Host.Outcome.next.inj ((State.complete_illegalOperand hd).symm.trans h)
    exact ⟨rfl, rfl⟩

/-- Settles O10: the only failing outcome of a completion is the shared error operation, and only RAND draws. -/
theorem errorsArePrecise : Obligations.ErrorsArePrecise := by
  intro s t h herr
  refine ⟨?_, State.complete_keeps_entropy h⟩
  obtain ⟨k, e, rfl⟩ := State.complete_error h herr
  rfl

/-! ### Error codes (R230) -/

/-- A command succeeds with code 0, or fails with one of the codes of its rows in R230's table. -/
theorem exec_errcode {i : Instr} {s t : State} (h : exec i s = .next t) :
    (t.err = false ∧ t.errcode = 0#8) ∨ (t.err = true ∧ ∃ e ∈ i.raises, t.errcode = e.code) := by
  obtain ⟨k, _, ⟨e, he, hfail⟩ | ⟨s', b, _, hok⟩⟩ := exec_cases i s
  · obtain rfl := Host.Outcome.next.inj (hfail.symm.trans h)
    exact .inr ⟨rfl, e, he, rfl⟩
  · obtain rfl := Host.Outcome.next.inj (hok.symm.trans h)
    exact .inl ⟨rfl, rfl⟩

/-- Settles O11, by what the accepted word decodes to. -/
theorem errorCodesByCommand : Obligations.ErrorCodesByCommand := by
  refine ⟨⟨rfl, rfl, rfl, rfl, rfl, rfl, rfl, rfl, rfl⟩, fun s t h => ⟨fun hd => ?_, fun hd => ?_, fun i hd => ?_⟩⟩
  · obtain rfl := Host.Outcome.next.inj ((State.complete_illegalOpcode hd).symm.trans h)
    exact ⟨rfl, rfl⟩
  · obtain rfl := Host.Outcome.next.inj ((State.complete_illegalOperand hd).symm.trans h)
    exact ⟨rfl, rfl⟩
  · exact exec_errcode ((State.complete_command hd).symm.trans h)

/-! ### The interrupt line (R240) -/

theorem State.irq_of_done {s : State} (h : s.done = true) : s.irq = s.ie := by rw [State.irq, h, Bool.and_true]

theorem State.irq_of_not_done {s : State} (h : s.done = false) : s.irq = false := by rw [State.irq, h, Bool.and_false]

theorem State.complete_ie {s t : State} (h : s.complete = .next t) : t.ie = s.ie := by
  rcases s.complete_cases with ⟨k, e, he⟩ | ⟨k, i, s', b, _, heff, he⟩
  · obtain rfl := Host.Outcome.next.inj (he.symm.trans h)
    rfl
  · obtain rfl := Host.Outcome.next.inj (he.symm.trans h)
    exact heff.ie

/-- Settles O22, event by event: a completion sets DONE, and each of the others clears DONE or IE. -/
theorem interruptLine : Obligations.InterruptLine := by
  intro s
  refine ⟨rfl, fun hbusy => ?_, fun v hv => ?_, fun hidle w => ?_, ⟨s.coreReset, rfl, rfl⟩, fun v hie hsrst => ?_⟩
  · obtain ⟨t, ht⟩ := s.complete_next
    have hdone : t.done = true := (State.complete_flags ht).1
    exact ⟨t, (stepOn_complete hbusy).trans ht, hdone, (State.irq_of_done hdone).trans (State.complete_ie ht)⟩
  · have hwrite : stepOn (.write 0x008 4 v) s = .next (s.hostWrite .status v) := stepOn_write s v rfl (by omega)
    rw [State.hostWrite_status] at hwrite
    exact ⟨s.writeStatus v, hwrite, State.irq_of_not_done (by simp [hv]), rfl⟩
  · have hwrite : stepOn (.write 0x00C 4 w) s = .next (s.hostWrite .cmd w) := stepOn_write s w rfl (by omega)
    rw [State.hostWrite_cmd w hidle] at hwrite
    exact ⟨s.accept w, hwrite, State.irq_of_not_done rfl⟩
  · have hwrite : stepOn (.write 0x004 4 v) s = .next (s.hostWrite .ctrl v) := stepOn_write s v rfl (by omega)
    rw [State.hostWrite_ctrl, s.writeCtrl_ie hsrst, hie] at hwrite
    exact ⟨{ s with ie := false }, hwrite, rfl, rfl⟩

end Sys2Proof.Machine

/-! ## Host writes while a command is in flight, and the BUSYWR flag (70_reset_and_hazards.md R271) -/

namespace Sys2Proof.Machine

/-! ### Writes while busy, by offset -/

theorem locate_busyLocked {off : Nat} (h : off = 0x00C ∨ off = 0x010 ∨ (0x100 ≤ off ∧ off < 0x680)) :
    (locate off).busyLocked = true := by
  rcases h with rfl | rfl | ⟨hlo, hhi⟩
  · rfl
  · rfl
  · rcases locate_slots hlo hhi with ⟨_, _, hloc⟩ | ⟨_, _, hloc⟩ | hloc <;> rw [hloc] <;> rfl

theorem stepOn_write_lost {s : State} {off : Nat} (v : Word) (hbusy : s.busy = true) (h4 : off % 4 = 0)
    (h : off = 0x00C ∨ off = 0x010 ∨ (0x100 ≤ off ∧ off < 0x680)) :
    stepOn (.write off 4 v) s = .next { s with busywr := true } := by
  rw [stepOn_write s v h4 (by omega), State.hostWrite_locked v hbusy (locate_busyLocked h), State.lostWrite]

/-- A soft reset does what the reset input does (R261). -/
theorem stepOn_write_srst (s : State) {v : Word} (h : v.getLsbD 1 = true) :
    stepOn (.write 0x004 4 v) s = stepOn .reset s := by
  obtain ⟨t, hwrite, hreset, _⟩ := (softResetIsReset s v).1 h
  exact hwrite.trans hreset.symm

/-! ### BUSYWR is sticky -/

theorem State.complete_busywr {s t : State} (h : s.complete = .next t) : t.busywr = s.busywr := by
  rcases s.complete_cases with ⟨k, e, he⟩ | ⟨k, i, s', b, _, heff, he⟩
  · obtain rfl := Host.Outcome.next.inj (he.symm.trans h)
    rfl
  · obtain rfl := Host.Outcome.next.inj (he.symm.trans h)
    exact heff.busywr

/-- Of the host's writes only a STATUS write with bit 5 set and a soft reset lower BUSYWR. -/
theorem HostWrote.busywr {s t : State} {l : Location} {v : Word} (hw : HostWrote s l v t) (h : s.busywr = true) :
    t.busywr = true ∨ (l = .status ∧ v.getLsbD 5 = true) ∨ (l = .ctrl ∧ v.getLsbD 1 = true) := by
  cases hw with
  | lost => exact .inl rfl
  | reset hl hv => exact .inr (.inr ⟨hl, hv⟩)
  | status hl =>
    cases hv : v.getLsbD 5
    · exact .inl (by rw [State.writeStatus_busywr, h, hv, Bool.not_false, Bool.and_self])
    · exact .inr (.inl ⟨hl, rfl⟩)
  | _ => exact .inl h

theorem step_busywr_sticky {s t : State} (hstep : step s = .next t) (h : s.busywr = true) :
    t.busywr = true ∨ (∃ v rest, s.schedule = .write 0x008 4 v :: rest ∧ v.getLsbD 5 = true) ∨
      (∃ v rest, s.schedule = .write 0x004 4 v :: rest ∧ v.getLsbD 1 = true) ∨ (∃ rest, s.schedule = .reset :: rest) := by
  rcases step_cases hstep with ⟨_, rfl⟩ | ⟨_, hc, _⟩ | ⟨off, _, _, _, _, rfl⟩ | ⟨off, width, v, rest, hsch, hr, rfl⟩ |
    ⟨rest, hsch, _⟩
  · exact .inl h
  · exact .inl ((State.complete_busywr hc).trans h)
  · rw [State.hostRead_eq]
    exact .inl h
  · obtain ⟨rfl, _⟩ := accessRefusal_eq_none_iff.1 hr
    rcases (s.popped.hostWrite_wrote (locate off) v).busywr h with hkept | ⟨hl, hv⟩ | ⟨hl, hv⟩
    · exact .inl hkept
    · obtain rfl := locate_eq_status.1 hl
      exact .inr (.inl ⟨v, rest, hsch, hv⟩)
    · obtain rfl := locate_eq_ctrl.1 hl
      exact .inr (.inr (.inl ⟨v, rest, hsch, hv⟩))
  · exact .inr (.inr (.inr ⟨rest, hsch⟩))

/-- Settles O14: a locked offset loses the write, the other offsets act as when idle; only two writes and a reset lower BUSYWR. -/
theorem busyWritesAreLost : Obligations.BusyWritesAreLost := by
  refine ⟨fun s off v hbusy h4 hlt => ?_, fun s t hstep h => step_busywr_sticky hstep h⟩
  obtain ⟨hctrl, hstatus, _⟩ := controlRegisterWrites s v
  refine ⟨stepOn_write_lost v hbusy h4, fun h => stepOn_write_ignored s v h4 (by omega), ?_, ?_, ?_⟩
  · rintro rfl
    exact hctrl
  · rintro rfl
    exact stepOn_write_srst s
  · rintro rfl
    exact hstatus

end Sys2Proof.Machine

/-! ## A digest's residue and SIGN's nonce (43_random_nonce.md R198, 44_ecdsa.md R211) -/

namespace Sys2Proof.Machine

/-! ### A register written before a command (R22, R23) -/

@[simp] theorem State.curve_setX (s : State) (i : XReg) (v : Reg) : (s.setX i v).curve = s.curve := rfl

theorem State.xVal_setX_ne (s : State) {i j : XReg} (v : Reg) (h : j ≠ i) : (s.setX i v).xVal j = s.xVal j :=
  congrArg BitVec.toNat (s.getX_setX_ne v h)

theorem State.scalarIn_setX_ne (s : State) {i j : XReg} (v : Reg) (h : j ≠ i) (e : ErrCode) :
    (s.setX i v).scalarIn j e = s.scalarIn j e := by
  rw [State.scalarIn, State.scalarIn, s.xVal_setX_ne v h, s.curve_setX]

theorem State.point_setX_ne (s : State) {i : XReg} {j : PReg} (v : Reg) (hlo : loReg j ≠ i) (hhi : hiReg j ≠ i) :
    (s.setX i v).point j = s.point j := by
  rw [State.point, State.point, s.getPinf_setX, s.xVal_setX_ne v hlo, s.xVal_setX_ne v hhi]

theorem State.putPair_setX_comm (s : State) {i : XReg} {d : SReg} (v : Reg) (r t : Nat) (hlo : i ≠ loReg d) (hhi : i ≠ hiReg d) :
    (s.setX i v).putPair d r t = (s.putPair d r t).setX i v := by
  rw [State.putPair, State.putX, State.putX, s.setX_comm hlo, State.setX_comm _ hhi]
  rfl

/-- A curve command whose outcome is the same but for a register written before it. -/
theorem State.curveCommand_setX (s : State) {i : XReg} {v : Reg} {r r' : Result} (hr : r' = r.map fun p => (p.1.setX i v, p.2)) :
    (s.setX i v).curveCommand r' = mapNext (·.setX i v) (s.curveCommand r) := by
  subst hr
  cases hcv : s.cv
  · rw [State.curveCommand_unloaded hcv, State.curveCommand_unloaded (s.setX_cv i v ▸ hcv)]
    rfl
  · rw [State.curveCommand_loaded hcv, State.curveCommand_loaded (s.setX_cv i v ▸ hcv)]
    cases r <;> rfl

/-! ### A digest acts as its residue modulo N (R211) -/

section
variable {s : State} {a : XReg} {y : Reg} (hres : y.toNat % s.curve.n = s.xVal a % s.curve.n)
include hres

theorem State.xVal_setX_residue : (s.setX a y).xVal a % s.curve.n = s.xVal a % s.curve.n := by
  rw [State.xVal, State.getX_setX_self, hres]

theorem exec_verify_setX_digest {sg : SReg} {q : PReg} (hsLo : a ≠ loReg sg) (hsHi : a ≠ hiReg sg) (hqLo : a ≠ loReg q)
    (hqHi : a ≠ hiReg q) : exec (.verify a sg q) (s.setX a y) = mapNext (·.setX a y) (exec (.verify a sg q) s) := by
  have hlo : (s.setX a y).pairLo sg = s.pairLo sg := s.xVal_setX_ne y hsLo.symm
  have hhi : (s.setX a y).pairHi sg = s.pairHi sg := s.xVal_setX_ne y hsHi.symm
  refine s.curveCommand_setX ?_
  rw [s.curve_setX, s.point_setX_ne y hqLo.symm hqHi.symm, hlo, hhi, verifyCore_digest (State.xVal_setX_residue hres)]
  split
  · cases verifyCore s.curve (s.xVal a) (s.pairLo sg) (s.pairHi sg) (s.point q) <;> rfl
  · rfl

theorem exec_signk_setX_digest {b c : XReg} {d : SReg} (hb : a ≠ b) (hc : a ≠ c) (hdLo : a ≠ loReg d) (hdHi : a ≠ hiReg d) :
    exec (.signk d a b c) (s.setX a y) = mapNext (·.setX a y) (exec (.signk d a b c) s) := by
  refine s.curveCommand_setX ?_
  rw [State.secret, State.secret, s.scalarIn_setX_ne y hb.symm, s.scalarIn_setX_ne y hc.symm, s.curve_setX]
  rcases s.scalarIn b .invalidKey with _ | key
  · rfl
  rcases s.scalarIn c .invalidNonce with _ | k
  · rfl
  simp only [ok_bind, signCore_digest (State.xVal_setX_residue hres)]
  rcases signCore s.curve (s.xVal a) key k with _ | _ | rs
  · rfl
  · rfl
  · exact congrArg (fun u => Except.ok (u, false)) (s.putPair_setX_comm y rs.1 rs.2 hdLo hdHi)

end

/-- Settles O51: both commands read the digest through verifyCore or signCore alone, and these see its residue. -/
theorem digestActsModN : Obligations.DigestActsModN := by
  intro a b c d sg q y s hres
  refine ⟨fun hsLo hsHi hqLo hqHi => ?_, fun hb hc hdLo hdHi => ?_⟩
  · obtain ⟨t, ht⟩ := exec_next (.verify a sg q) s
    exact ⟨t, _, ht, by rw [exec_verify_setX_digest hres hsLo hsHi hqLo hqHi, ht]; rfl, rfl⟩
  · obtain ⟨t, ht⟩ := exec_next (.signk d a b c) s
    exact ⟨t, _, ht, by rw [exec_signk_setX_digest hres hb hc hdLo hdHi, ht]; rfl, rfl⟩

/-! ### NONCE's result is SIGN's first nonce (R198, R213) -/

/-- Where the first candidate in range gives a signature, it is SIGN's. -/
theorem signWith_of_firstNonce {c : CurveVal} {cand : Nat → Nat} {e d : Nat} {k : Nat × Nat} {rs : Nat × Nat}
    (hfirst : firstNonce cand c.n 0 = .ok k) (hcore : signCore c e d k.1 = .ok (some rs)) : signWith c cand e d = .ok rs := by
  rw [signWith, signLoop, hfirst, ok_bind, hcore]
  rfl

/-- NONCE without an error has found the first candidate in range and written it. -/
theorem exec_nonce_found {s s1 : State} (hcv : s.cv = true) {x a b : XReg} (hkey : inScalarRange s.curve (s.xVal b))
    (h : exec (.nonce x a b) s = .next s1) (herr : s1.err = false) :
    ∃ k, firstNonce (s.candidate a b) s.curve.n 0 = .ok k ∧ inScalarRange s.curve k.1 ∧ s1 = (s.putX x k.1).succeed false := by
  rw [exec_nonce_key hcv x a hkey] at h
  rcases firstNonce_spec (s.candidate a b) s.curve.n 0 with ⟨i, _, _, hin, _, hfirst⟩ | ⟨_, hfirst⟩
  · rw [hfirst] at h
    exact ⟨_, hfirst, hin, (Host.Outcome.next.inj h).symm⟩
  · rw [hfirst] at h
    obtain rfl := Host.Outcome.next.inj h
    cases herr

/-- SIGNK without an error has written the signature of its attempt. -/
theorem exec_signk_signed {s s2 : State} (hcv : s.cv = true) {d : SReg} {a b c : XReg} (hkey : inScalarRange s.curve (s.xVal b))
    (hnonce : inScalarRange s.curve (s.xVal c)) (h : exec (.signk d a b c) s = .next s2) (herr : s2.err = false) :
    ∃ rs, signCore s.curve (s.xVal a) (s.xVal b) (s.xVal c) = .ok (some rs) ∧ s2 = (s.putPair d rs.1 rs.2).succeed false := by
  rw [exec_signk_attempt hcv hkey d a hnonce] at h
  rcases hcore : signCore s.curve (s.xVal a) (s.xVal b) (s.xVal c) with e | _ | rs
  all_goals
    rw [hcore] at h
    obtain rfl := Host.Outcome.next.inj h
  · cases herr
  · cases herr
  · exact ⟨rs, rfl, rfl⟩

/-- Settles O53: SIGNK finds digest and secret as NONCE left them, so its attempt is the first one of SIGN. -/
theorem nonceIsTheSigningNonce : Obligations.NonceIsTheSigningNonce := by
  intro x a b d s _ hcv hkey hxa hxb
  obtain ⟨s1, h1⟩ := exec_next (.nonce x a b) s
  obtain ⟨s2, h2⟩ := exec_next (.signk d a b x) s1
  obtain ⟨s3, h3⟩ := exec_next (.sign d a b) s
  refine ⟨s1, s2, s3, h1, h2, h3, fun herr1 herr2 => ?_⟩
  obtain ⟨k, hfirst, hin, rfl⟩ := exec_nonce_found hcv hkey h1 herr1
  obtain ⟨hx, hkept, _, hcurve, hcv1, _⟩ := s.wrote x (s.fits_of_inScalarRange hin) false
  obtain ⟨rs, hcore, rfl⟩ := exec_signk_signed (hcv1.trans hcv) (by rwa [hcurve, hkept b hxb.symm]) (by rwa [hcurve, hx]) h2 herr2
  rw [hcurve, hkept a hxa.symm, hkept b hxb.symm, hx] at hcore
  obtain rfl := Host.Outcome.next.inj ((exec_sign_signature hcv hkey d (signWith_of_firstNonce hfirst hcore)).symm.trans h3)
  obtain ⟨hr, hu⟩ := signCore_range (by omega) hcore
  have hr := s.fits_of_inScalarRange hr
  have hu := s.fits_of_inScalarRange hu
  exact ⟨rfl, (State.pairLo_putPair_self _ d _ hr).trans (State.pairLo_putPair_self _ d _ hr).symm,
    (State.pairHi_putPair_self _ d _ hu).trans (State.pairHi_putPair_self _ d _ hu).symm⟩

end Sys2Proof.Machine
